-- ==== Sys2Proof/Word.lean ====
section
/-! DEFINITION. The words of DSFC: 32-bit registers, 64-bit commands, bytes, and bit vectors of any length. -/

namespace Sys2Proof

/-- A register (10_state.md R22). -/
abbrev Word := BitVec 32

/-- A command word (30_encoding.md R80). -/
abbrev Command := BitVec 64

/-- A byte of DMEM (10_state.md R21). -/
abbrev Byte := BitVec 8

/-- A bit vector in wire order: the head is `v[0]`, the first and most significant bit (00_scope.md R9). -/
abbrev Bits := List Bool

end Sys2Proof
end

