-- ==== Sys2Proof/Syntax.lean ====
section
/-! DEFINITION. The 38 commands of DSFC, one constructor per row of the opcode table (30_encoding.md R87), each with the
fields the row gives it and no others: a field the command does not use is reserved and zero (R84). -/

namespace Sys2Proof

/-- A command. `var` is VAR, `sel` is SEL, `len` is LEN, `dst` is DST, `src` is SRC (30_encoding.md R81); `imm` is IMM32
and `ty` is TYPE8 (R82). -/
inductive Instr where
  | nop
  | movb (len dst src : BitVec 16)
  | fill (var : BitVec 4) (len dst : BitVec 16)
  | crc16 (var sel : BitVec 4) (len src : BitVec 16)
  | crc16a (var sel : BitVec 4) (len src : BitVec 16)
  | crc16v (var sel : BitVec 4) (len src : BitVec 16)
  | crcs (var : BitVec 4) (len src : BitVec 16)
  | crcsa (var : BitVec 4) (len src : BitVec 16)
  | crcsv (var : BitVec 4) (len src : BitVec 16)
  | gol24e (dst src : BitVec 16)
  | gol24d (dst src : BitVec 16)
  | gol23e (dst src : BitVec 16)
  | gol23d (dst src : BitVec 16)
  | h1511e (dst src : BitVec 16)
  | h1511d (dst src : BitVec 16)
  | h1611e (dst src : BitVec 16)
  | h1611d (dst src : BitVec 16)
  | h139e (dst src : BitVec 16)
  | h139d (dst src : BitVec 16)
  | bptce (dst src : BitVec 16)
  | bptcd (dst src : BitVec 16)
  | conve (len dst src : BitVec 16)
  | vitd (len dst src : BitVec 16)
  | ilv (var sel : BitVec 4) (len dst src : BitVec 16)
  | dilv (var sel : BitVec 4) (len dst src : BitVec 16)
  | scr (var sel : BitVec 4) (len dst src : BitVec 16)
  | frdec (sel : BitVec 4) (len dst src : BitVec 16)
  | frenc (var sel : BitVec 4) (dst src : BitVec 16)
  | envp (ty : BitVec 8) (len dst src : BitVec 16)
  | envu (len dst src : BitVec 16)
  | scon (var sel : BitVec 4) (src : BitVec 16)
  | slnk (var : BitVec 4)
  | sdis
  | srxf (len dst src : BitVec 16)
  | srxt (var : BitVec 4)
  | stxs (imm : BitVec 32)
  | stxe
  | stxt (var : BitVec 4) (dst src : BitVec 16)
deriving DecidableEq, Repr

end Sys2Proof
end

