-- ==== Sys2Proof/WellFormed.lean ====
section
/-! DEFINITION. The well-formed commands: those whose VAR is in the opcode's legal set (30_encoding.md R84, R87). Every
other field admits every value of its width; what a value means (BAD_SEL, BAD_LEN, RANGE) is the meaning's matter. -/

namespace Sys2Proof

/-- VAR is in the legal set of the opcode (30_encoding.md R87). -/
def Instr.wf : Instr → Bool
  | .fill var _ _ => decide (var.toNat ≤ 1)
  | .crc16 var _ _ _ => decide (var.toNat ≤ 1)
  | .crc16a var _ _ _ => decide (var.toNat ≤ 1)
  | .crc16v var _ _ _ => decide (var.toNat ≤ 1)
  | .crcs var _ _ => decide (var.toNat ≤ 2)
  | .crcsa var _ _ => decide (var.toNat ≤ 2)
  | .crcsv var _ _ => decide (var.toNat ≤ 2)
  | .scon var _ _ => decide (var.toNat ≤ 1)
  | .slnk var => decide (var.toNat ≤ 3)
  | .srxt var => decide (var.toNat ≤ 1)
  | .stxt var _ _ => decide (var.toNat ≤ 1)
  | .nop | .movb .. | .gol24e .. | .gol24d .. | .gol23e .. | .gol23d .. | .h1511e .. | .h1511d .. | .h1611e ..
  | .h1611d .. | .h139e .. | .h139d .. | .bptce .. | .bptcd .. | .conve .. | .vitd .. | .ilv .. | .dilv .. | .scr ..
  | .frdec .. | .frenc .. | .envp .. | .envu .. | .sdis | .srxf .. | .stxs .. | .stxe => true

end Sys2Proof
end

