-- ==== Sys2Proof/Decode.lean ====
section
/-! DEFINITION. The decoder of a 64-bit command word and the encoder (30_encoding.md R80 to R90). Decoding runs the
first two checks of 60_exceptions.md R310: ILLEGAL and RESERVED. -/

namespace Sys2Proof

/-- Why a word is no command. -/
inductive DecodeError where
  /-- The opcode is unassigned (30_encoding.md R89, R90). -/
  | illegal
  /-- A reserved field is nonzero, or VAR is outside the opcode's legal set (30_encoding.md R84). -/
  | reserved
deriving DecidableEq, Repr

/-- The six fields of format F (30_encoding.md R81). Formats I and E name parts of the same fields (R82). -/
structure Fields where
  opc : BitVec 8
  var : BitVec 4
  sel : BitVec 4
  len : BitVec 16
  dst : BitVec 16
  src : BitVec 16
deriving DecidableEq, Repr

/-- The fields of a command word: OPC [63:56], VAR [55:52], SEL [51:48], LEN [47:32], DST [31:16], SRC [15:0]
(30_encoding.md R81). -/
def Fields.ofWord (w : Command) : Fields where
  opc := w.extractLsb' 56 8
  var := w.extractLsb' 52 4
  sel := w.extractLsb' 48 4
  len := w.extractLsb' 32 16
  dst := w.extractLsb' 16 16
  src := w.extractLsb' 0 16

/-- The command word of six fields (30_encoding.md R81, R92). -/
def Fields.word (f : Fields) : Command :=
  f.opc ++ f.var ++ f.sel ++ f.len ++ f.dst ++ f.src

/-- `i`, when the fields it does not use are zero and its VAR is legal; RESERVED otherwise (30_encoding.md R84). -/
def decodeIf (ok : Bool) (i : Instr) : Except DecodeError Instr :=
  if ok then .ok i else .error .reserved

/-- The command that six fields spell, row by row of 30_encoding.md R87. -/
def decodeFields (f : Fields) : Except DecodeError Instr :=
  match f.opc.toNat with
  | 0x01 => decodeIf (f.var == 0 && f.sel == 0 && f.len == 0 && f.dst == 0 && f.src == 0) .nop
  | 0x02 => decodeIf (f.var == 0 && f.sel == 0) (.movb f.len f.dst f.src)
  | 0x03 => decodeIf (decide (f.var.toNat ≤ 1) && f.sel == 0 && f.src == 0) (.fill f.var f.len f.dst)
  | 0x10 => decodeIf (decide (f.var.toNat ≤ 1) && f.dst == 0) (.crc16 f.var f.sel f.len f.src)
  | 0x11 => decodeIf (decide (f.var.toNat ≤ 1) && f.dst == 0) (.crc16a f.var f.sel f.len f.src)
  | 0x12 => decodeIf (decide (f.var.toNat ≤ 1) && f.dst == 0) (.crc16v f.var f.sel f.len f.src)
  | 0x13 => decodeIf (decide (f.var.toNat ≤ 2) && f.sel == 0 && f.dst == 0) (.crcs f.var f.len f.src)
  | 0x14 => decodeIf (decide (f.var.toNat ≤ 2) && f.sel == 0 && f.dst == 0) (.crcsa f.var f.len f.src)
  | 0x15 => decodeIf (decide (f.var.toNat ≤ 2) && f.sel == 0 && f.dst == 0) (.crcsv f.var f.len f.src)
  | 0x20 => decodeIf (f.var == 0 && f.sel == 0 && f.len == 0) (.gol24e f.dst f.src)
  | 0x21 => decodeIf (f.var == 0 && f.sel == 0 && f.len == 0) (.gol24d f.dst f.src)
  | 0x22 => decodeIf (f.var == 0 && f.sel == 0 && f.len == 0) (.gol23e f.dst f.src)
  | 0x23 => decodeIf (f.var == 0 && f.sel == 0 && f.len == 0) (.gol23d f.dst f.src)
  | 0x24 => decodeIf (f.var == 0 && f.sel == 0 && f.len == 0) (.h1511e f.dst f.src)
  | 0x25 => decodeIf (f.var == 0 && f.sel == 0 && f.len == 0) (.h1511d f.dst f.src)
  | 0x26 => decodeIf (f.var == 0 && f.sel == 0 && f.len == 0) (.h1611e f.dst f.src)
  | 0x27 => decodeIf (f.var == 0 && f.sel == 0 && f.len == 0) (.h1611d f.dst f.src)
  | 0x28 => decodeIf (f.var == 0 && f.sel == 0 && f.len == 0) (.h139e f.dst f.src)
  | 0x29 => decodeIf (f.var == 0 && f.sel == 0 && f.len == 0) (.h139d f.dst f.src)
  | 0x30 => decodeIf (f.var == 0 && f.sel == 0 && f.len == 0) (.bptce f.dst f.src)
  | 0x31 => decodeIf (f.var == 0 && f.sel == 0 && f.len == 0) (.bptcd f.dst f.src)
  | 0x40 => decodeIf (f.var == 0 && f.sel == 0) (.conve f.len f.dst f.src)
  | 0x41 => decodeIf (f.var == 0 && f.sel == 0) (.vitd f.len f.dst f.src)
  | 0x50 => decodeIf true (.ilv f.var f.sel f.len f.dst f.src)
  | 0x51 => decodeIf true (.dilv f.var f.sel f.len f.dst f.src)
  | 0x52 => decodeIf true (.scr f.var f.sel f.len f.dst f.src)
  | 0x60 => decodeIf (f.var == 0) (.frdec f.sel f.len f.dst f.src)
  | 0x61 => decodeIf (f.len == 0) (.frenc f.var f.sel f.dst f.src)
  | 0x62 => decodeIf true (.envp (f.var ++ f.sel) f.len f.dst f.src)
  | 0x63 => decodeIf (f.var == 0 && f.sel == 0) (.envu f.len f.dst f.src)
  | 0x70 => decodeIf (decide (f.var.toNat ≤ 1) && f.len == 0 && f.dst == 0) (.scon f.var f.sel f.src)
  | 0x71 => decodeIf (decide (f.var.toNat ≤ 3) && f.sel == 0 && f.len == 0 && f.dst == 0 && f.src == 0) (.slnk f.var)
  | 0x72 => decodeIf (f.var == 0 && f.sel == 0 && f.len == 0 && f.dst == 0 && f.src == 0) .sdis
  | 0x73 => decodeIf (f.var == 0 && f.sel == 0) (.srxf f.len f.dst f.src)
  | 0x74 => decodeIf (decide (f.var.toNat ≤ 1) && f.sel == 0 && f.len == 0 && f.dst == 0 && f.src == 0) (.srxt f.var)
  | 0x75 => decodeIf (f.var == 0 && f.sel == 0 && f.len == 0) (.stxs (f.dst ++ f.src))
  | 0x76 => decodeIf (f.var == 0 && f.sel == 0 && f.len == 0 && f.dst == 0 && f.src == 0) .stxe
  | 0x77 => decodeIf (decide (f.var.toNat ≤ 1) && f.sel == 0 && f.len == 0) (.stxt f.var f.dst f.src)
  | _ => .error .illegal

/-- The decoder: total on every 64-bit word (30_encoding.md R80). -/
def decode (w : Command) : Except DecodeError Instr :=
  decodeFields (Fields.ofWord w)

/-- The six fields of a command, every field it does not use zero (30_encoding.md R84, R87). -/
def Instr.fields : Instr → Fields
  | .nop => ⟨0x01, 0, 0, 0, 0, 0⟩
  | .movb len dst src => ⟨0x02, 0, 0, len, dst, src⟩
  | .fill var len dst => ⟨0x03, var, 0, len, dst, 0⟩
  | .crc16 var sel len src => ⟨0x10, var, sel, len, 0, src⟩
  | .crc16a var sel len src => ⟨0x11, var, sel, len, 0, src⟩
  | .crc16v var sel len src => ⟨0x12, var, sel, len, 0, src⟩
  | .crcs var len src => ⟨0x13, var, 0, len, 0, src⟩
  | .crcsa var len src => ⟨0x14, var, 0, len, 0, src⟩
  | .crcsv var len src => ⟨0x15, var, 0, len, 0, src⟩
  | .gol24e dst src => ⟨0x20, 0, 0, 0, dst, src⟩
  | .gol24d dst src => ⟨0x21, 0, 0, 0, dst, src⟩
  | .gol23e dst src => ⟨0x22, 0, 0, 0, dst, src⟩
  | .gol23d dst src => ⟨0x23, 0, 0, 0, dst, src⟩
  | .h1511e dst src => ⟨0x24, 0, 0, 0, dst, src⟩
  | .h1511d dst src => ⟨0x25, 0, 0, 0, dst, src⟩
  | .h1611e dst src => ⟨0x26, 0, 0, 0, dst, src⟩
  | .h1611d dst src => ⟨0x27, 0, 0, 0, dst, src⟩
  | .h139e dst src => ⟨0x28, 0, 0, 0, dst, src⟩
  | .h139d dst src => ⟨0x29, 0, 0, 0, dst, src⟩
  | .bptce dst src => ⟨0x30, 0, 0, 0, dst, src⟩
  | .bptcd dst src => ⟨0x31, 0, 0, 0, dst, src⟩
  | .conve len dst src => ⟨0x40, 0, 0, len, dst, src⟩
  | .vitd len dst src => ⟨0x41, 0, 0, len, dst, src⟩
  | .ilv var sel len dst src => ⟨0x50, var, sel, len, dst, src⟩
  | .dilv var sel len dst src => ⟨0x51, var, sel, len, dst, src⟩
  | .scr var sel len dst src => ⟨0x52, var, sel, len, dst, src⟩
  | .frdec sel len dst src => ⟨0x60, 0, sel, len, dst, src⟩
  | .frenc var sel dst src => ⟨0x61, var, sel, 0, dst, src⟩
  | .envp ty len dst src => ⟨0x62, ty.extractLsb' 4 4, ty.extractLsb' 0 4, len, dst, src⟩
  | .envu len dst src => ⟨0x63, 0, 0, len, dst, src⟩
  | .scon var sel src => ⟨0x70, var, sel, 0, 0, src⟩
  | .slnk var => ⟨0x71, var, 0, 0, 0, 0⟩
  | .sdis => ⟨0x72, 0, 0, 0, 0, 0⟩
  | .srxf len dst src => ⟨0x73, 0, 0, len, dst, src⟩
  | .srxt var => ⟨0x74, var, 0, 0, 0, 0⟩
  | .stxs imm => ⟨0x75, 0, 0, 0, imm.extractLsb' 16 16, imm.extractLsb' 0 16⟩
  | .stxe => ⟨0x76, 0, 0, 0, 0, 0⟩
  | .stxt var dst src => ⟨0x77, var, 0, 0, dst, src⟩

/-- The encoder (30_encoding.md R92: `OPC<<56 | var<<52 | sel<<48 | len<<32 | dst<<16 | src`). -/
def encode (i : Instr) : Command :=
  i.fields.word

/-- The host's question to the decoder: the command of an instruction whose bits are `w`, of which the table gives
`nbits`; the bits above are 0. A command is one 64-bit word, so nothing is laid out in memory. -/
def decodeTableWord (nbits w : Nat) : Option Instr :=
  (decode (BitVec.ofNat 64 (w % 2 ^ nbits))).toOption

end Sys2Proof
end

