-- ==== Sys2Proof/Machine/Bits.lean ====
section
/-! DEFINITION. Bit vectors in wire order as lists of bits, and their reading as unsigned integers, most significant bit
first (00_scope.md R9, R10; 20_memory.md R62). -/

namespace Sys2Proof

/-- A bit vector read as an unsigned integer: `v[0]` has the greatest weight (00_scope.md R9). -/
def Bits.toNat (v : Bits) : Nat :=
  v.foldl (fun a b => 2 * a + b.toNat) 0

/-- The `n` least significant bits of a natural number, most significant first (`trunc_N` of 00_scope.md R10). -/
def Bits.ofNat (n v : Nat) : Bits :=
  (List.range n).map fun i => v.testBit (n - 1 - i)

/-- The bits of a byte, most significant first (20_memory.md R61). -/
def Bits.ofByte (b : Byte) : Bits :=
  Bits.ofNat 8 b.toNat

/-- `n` zero bits. -/
def Bits.zeros (n : Nat) : Bits :=
  List.replicate n false

/-- Bit `i` of a vector; 0 past its end. -/
def Bits.get (v : Bits) (i : Nat) : Bool :=
  v.getD i false

/-- The XOR of all bits (00_scope.md R11). -/
def Bits.parity (v : Bits) : Bool :=
  v.foldl xor false

/-- A vector with bit `k` inverted. -/
def Bits.flip (v : Bits) (k : Nat) : Bits :=
  v.set k (!v.get k)

/-- A bit vector of at most 32 bits, zero-extended into a register (`zext_32` of 00_scope.md R10). -/
def Bits.zext32 (v : Bits) : Word :=
  BitVec.ofNat 32 v.toNat

/-- `v` with the bits `x.2` at the positions `x.1` of a list of (position, bit) pairs. -/
def Bits.setMany (v : Bits) (xs : List (Nat × Bool)) : Bits :=
  xs.foldl (fun u x => u.set x.1 x.2) v

/-- `v` with the bits `u` at positions `at_`, `at_ + 1`, … -/
def Bits.splice (v : Bits) (at_ : Nat) (u : Bits) : Bits :=
  v.take at_ ++ u ++ v.drop (at_ + u.length)

/-- The number of 1 bits among the `n` least significant bits (`popcount` of 00_scope.md R10). -/
def popcount : Nat → Nat → Nat
  | 0, _ => 0
  | n + 1, v => v % 2 + popcount n (v / 2)

end Sys2Proof
end

