-- ==== Sys2Proof/Machine/Hamming.lean ====
section
/-! DEFINITION. The Hamming codes as parity equations: check bits, syndrome and the table from syndrome to bit position
(42_block_codes.md R145, R146, R157, R158). A code of `k` data bits has four equations, each a list of data bit indices;
its codeword is the data and then the four check bits. -/

namespace Sys2Proof

/-- `HAM15_EQ` of 42_block_codes.md R145. -/
def ham15Default : List (List Nat) :=
  [[0, 1, 2, 3, 5, 7, 8], [1, 2, 3, 4, 6, 8, 9], [2, 3, 4, 5, 7, 9, 10], [0, 1, 2, 4, 6, 7, 10]]

/-- `HAM13_EQ` of 42_block_codes.md R157. -/
def ham13Default : List (List Nat) :=
  [[0, 1, 3, 5, 6], [0, 1, 2, 4, 6, 7], [0, 1, 2, 3, 5, 7, 8], [0, 2, 4, 5, 8]]

/-- The check bits of a data word (42_block_codes.md R145, R157). -/
def hamChecks (eqs : List (List Nat)) (d : Bits) : Bits :=
  eqs.map fun e => Bits.parity (e.map d.get)

/-- The syndrome `s0 + 2*s1 + 4*s2 + 8*s3` of a word of `k` data bits and four check bits (42_block_codes.md R146). -/
def hamSyndrome (eqs : List (List Nat)) (k : Nat) (r : Bits) : Nat :=
  (List.zipWith xor (hamChecks eqs (r.take k)) (r.drop k)).foldr (fun b a => b.toNat + 2 * a) 0

/-- The word of `n` bits whose only 1 bit is bit `i`. -/
def unitBits (n i : Nat) : Bits :=
  (Bits.zeros n).set i true

/-- The bit a syndrome names: the position whose error alone gives that syndrome. With the equations of
42_block_codes.md R145 and R157 these are the tables of R146 and R158. -/
def hamBit (eqs : List (List Nat)) (k s : Nat) : Option Nat :=
  (List.range (k + 4)).find? fun i => hamSyndrome eqs k (unitBits (k + 4) i) == s

/-- Four equations make a Hamming code of `k` data bits when the `k + 4` single errors have nonzero syndromes, all
different (log entry 8). -/
def hamOk (eqs : List (List Nat)) (k : Nat) : Bool :=
  let cols := (List.range (k + 4)).map fun i => hamSyndrome eqs k (unitBits (k + 4) i)
  eqs.length == 4 && eqs.all (fun e => e.all (· < k)) && decide cols.Nodup && cols.all (· != 0)

end Sys2Proof
end

