-- ==== Sys2Proof/Config.lean ====
section
/-! DEFINITION. What an implementation of DSFC fixes: the parameters of 00_scope.md R7, the configuration ROM of
46_frame.md R215, and the free values (constants with no body, so that no proof can know them). -/

namespace Sys2Proof

/-! ## Frame programs (46_frame.md R221) -/

/-- The step opcodes (30_encoding.md R91). That a step's opcode is one of them (46_frame.md R218, condition 7) holds
by this type. -/
inductive StepOp where
  | movb | fill
  | crc16 | crc16a | crc16v | crcs | crcsa | crcsv
  | gol24e | gol24d | gol23e | gol23d
  | h1511e | h1511d | h1611e | h1611d | h139e | h139d
  | bptce | bptcd
  | conve | vitd
  | ilv | dilv | scr
deriving DecidableEq, Repr

/-- The base of a step's address: the wire frame or the field block (46_frame.md R221). -/
inductive Base where
  | wire | field
deriving DecidableEq, Repr

/-- What a step's failure means for the frame (46_frame.md R224). -/
inductive Role where
  | control | voice | none
deriving DecidableEq, Repr

/-- One step of a frame program (46_frame.md R221). -/
structure Step where
  op : StepOp
  var : BitVec 4
  len : BitVec 16
  dstBase : Base
  dstOff : BitVec 16
  srcBase : Base
  srcOff : BitVec 16
  role : Role
deriving DecidableEq, Repr

/-! ## The ProtocolDescriptor (46_frame.md R215 to R217) -/

/-- The class of a frame kind; the source's "logical kind" (46_frame.md R217). -/
inductive FrameClass where
  | header | voice | fragment | terminator
deriving DecidableEq, Repr

/-- A sync pattern: the `n` bits at wire offset `off` must equal `pattern` (46_frame.md R217, R219). -/
structure Sync where
  off : Nat
  n : Nat
  pattern : Nat
deriving DecidableEq, Repr

/-- A field of the field block (46_frame.md R216). -/
structure Field where
  off : Nat
  width : Nat
deriving DecidableEq, Repr

/-- A frame kind (46_frame.md R217). -/
structure FrameKind where
  cls : FrameClass
  lenBits : Nat
  syncs : List Sync
  decProg : List Step
  encProg : List Step
  fSid : Option Field
  fSrc : Option Field
  fDst : Option Field
  fSeq : Option Field
  fEot : Option Field
  fFragidx : Option Field
  fFrag : Option Field
  fPayload : Option Field
deriving DecidableEq, Repr

/-- The embedded signalling channel (46_frame.md R229). -/
structure Embedded where
  nfrag : Nat
  fragBits : Nat
  msgOff : Nat
  checkProg : List Step
deriving DecidableEq, Repr

/-- The three kinds STXT transmits, present together or not at all (46_frame.md R215, R218 condition 8). -/
structure TxKinds where
  header : Nat
  voice : Nat
  term : Nat
deriving DecidableEq, Repr

/-- A ProtocolDescriptor, the contents of one slot of `DESC` (46_frame.md R215). The counts `nilv`, `nwhiten` and
`nkind` are the lengths of the lists. -/
structure Descriptor where
  crc16Mask0 : BitVec 16
  crc16Mask1 : BitVec 16
  ilv : List (List Nat)
  whiten : List (List Byte)
  fieldBits : Nat
  kinds : List FrameKind
  embedded : Option Embedded
  tx : Option TxKinds
  wdogLimit : Nat
  kaInterval : Nat
  linkTimeout : Nat
  seqMod : Nat
  muteOnVfail : Bool
  authRequired : Bool
deriving DecidableEq, Repr

/-- The three parameters of one small CRC of width `w` (41_crc.md R126). -/
structure SmallCrc (w : Nat) where
  poly : BitVec w
  init : BitVec w
  xorout : BitVec w
deriving DecidableEq, Repr, Inhabited

/-- The parameters of 00_scope.md R7. `desc` is the configuration ROM `DESC[0..15]` (10_state.md R46). A list of data
bit indices is one parity equation (42_block_codes.md R145, R157). -/
structure Params where
  dmemBytes : Nat
  crc16Poly : BitVec 16
  crc16Init : BitVec 16
  crc16Reflect : Bool
  crc16HighFirst : Bool
  crcs5 : SmallCrc 5
  crcs6 : SmallCrc 6
  crcs8 : SmallCrc 8
  golayPoly : BitVec 12
  ham15Eq : List (List Nat)
  ham13Eq : List (List Nat)
  convG1 : BitVec 5
  convG2 : BitVec 5
  vitMax : Nat
  reasmMax : Nat
  envStart : Byte
  desc : List (Option Descriptor)
deriving DecidableEq, Repr

/-! ## Parameters whose value the source fixes (00_scope.md R7) -/

/-- `BPTC_N`: the BPTC block length in bits (43_bptc.md R170). -/
def bptcN : Nat := 196

/-- `BPTC_K`: the BPTC payload length in bits (43_bptc.md R170). -/
def bptcK : Nat := 96

/-- `BPTC_MULT`: the permutation multiplier (43_bptc.md R171). -/
def bptcMult : Nat := 181

/-- `BPTC_PASSES`: the maximum number of correction passes (43_bptc.md R177). -/
def bptcPasses : Nat := 5

/-! ## Free values: constants with no body -/

/-- What byte `a` of DMEM holds after the reset number `epoch`, before anything writes it: "a draw, never a fixed value"
(10_state.md R21; log entry 3). -/
opaque Config.dmemDraw (epoch a : Nat) : Byte

/-- `CRCS_POLY[5]`, `CRCS_INIT[5]`, `CRCS_XOROUT[5]`: OPEN (00_scope.md R7; log entry 2). -/
opaque Config.openCrcs5 : SmallCrc 5

/-- `CRCS_POLY[6]`, `CRCS_INIT[6]`, `CRCS_XOROUT[6]`: OPEN (00_scope.md R7; log entry 2). -/
opaque Config.openCrcs6 : SmallCrc 6

/-- `CRCS_POLY[8]`, `CRCS_INIT[8]`, `CRCS_XOROUT[8]`: OPEN (00_scope.md R7; log entry 2). -/
opaque Config.openCrcs8 : SmallCrc 8

/-- The contents of each slot of the configuration ROM: OPEN (00_scope.md R7, 92_eei_decisions.md D25; log entry 2). -/
opaque Config.openDesc (slot : Nat) : Option Descriptor

end Sys2Proof
end

