-- ==== Sys2Proof/Machine/Operands.lean ====
section
/-! DEFINITION. The operand forms of the 25 codec commands, which are also the step opcodes (30_encoding.md R87, R91):
the legal VAR, the table index, the legal LEN, and the numbers of bits at SRC and DST that the range check covers. A
command and a frame step use the same forms (46_frame.md R222). -/

namespace Sys2Proof

/-- The width of a small CRC that VAR selects (41_crc.md R126). -/
def crcsWidth (var : Nat) : Nat :=
  match var with
  | 0 => 5
  | 1 => 6
  | _ => 8

/-- The operands of a codec command or step: VAR, LEN and the two effective bit addresses, each zero where the opcode
does not use it (40_control.md R114). -/
structure Operands where
  var : Nat
  len : Nat
  dst : Nat
  src : Nat
deriving DecidableEq, Repr

/-- The opcode names a descriptor slot (the SEL column of 30_encoding.md R87). -/
def StepOp.usesSel : StepOp → Bool
  | .crc16 | .crc16a | .crc16v | .ilv | .dilv | .scr => true
  | _ => false

/-- The opcode has a destination address (the DST column of 30_encoding.md R87). -/
def StepOp.usesDst : StepOp → Bool
  | .crc16 | .crc16a | .crc16v | .crcs | .crcsa | .crcsv => false
  | _ => true

/-- The opcode has a source address (the SRC column of 30_encoding.md R87). -/
def StepOp.usesSrc : StepOp → Bool
  | .fill => false
  | _ => true

/-- VAR is in the legal set of the opcode (the VAR column of 30_encoding.md R87). -/
def StepOp.varOk (op : StepOp) (var : Nat) : Bool :=
  match op with
  | .fill | .crc16 | .crc16a | .crc16v => decide (var ≤ 1)
  | .crcs | .crcsa | .crcsv => decide (var ≤ 2)
  | .ilv | .dilv | .scr => true
  | _ => decide (var = 0)

/-- The table that VAR indexes exists in the descriptor (30_encoding.md R85). -/
def StepOp.indexOk (op : StepOp) (d : Descriptor) (var : Nat) : Bool :=
  match op with
  | .ilv | .dilv => decide (var < d.ilv.length)
  | .scr => decide (var < d.whiten.length)
  | _ => true

/-- LEN is in the legal range of the opcode (the LEN column of 30_encoding.md R87). The upper limit 65535 is the width
of the field. -/
def StepOp.lenOk (op : StepOp) (vitMax : Nat) (d : Descriptor) (var len : Nat) : Bool :=
  match op with
  | .movb | .fill | .crc16 | .crcs => decide (1 ≤ len)
  | .crc16a | .crc16v => decide (3 ≤ len)
  | .crcsa | .crcsv => decide (crcsWidth var + 1 ≤ len)
  | .conve => decide (len % 2 = 0 ∧ 2 ≤ len ∧ len ≤ 2 * vitMax)
  | .vitd => decide (1 ≤ len ∧ len ≤ vitMax)
  | .ilv | .dilv => decide (len = (d.ilv.getD var []).length)
  | .scr => decide (1 ≤ len ∧ len ≤ 8 * (d.whiten.getD var []).length)
  | _ => decide (len = 0)

/-- How many bits at SRC the opcode's rule range-checks. -/
def StepOp.srcBits (op : StepOp) (len : Nat) : Nat :=
  match op with
  | .fill => 0
  | .movb | .crcs | .crcsa | .crcsv | .ilv | .dilv | .scr => len
  | .crc16 | .crc16a | .crc16v => 8 * len
  | .gol24e | .gol23e => 12
  | .gol24d => 24
  | .gol23d => 23
  | .h1511e | .h1611e => 11
  | .h1511d => 15
  | .h1611d => 16
  | .h139e => 9
  | .h139d => 13
  | .bptce => 96
  | .bptcd => 196
  | .conve => len / 2
  | .vitd => 2 * len

/-- How many bits at DST the opcode's rule range-checks. -/
def StepOp.dstBits (op : StepOp) (len : Nat) : Nat :=
  match op with
  | .crc16 | .crc16a | .crc16v | .crcs | .crcsa | .crcsv => 0
  | .movb | .fill | .conve | .vitd | .ilv | .dilv | .scr => len
  | .gol24e => 24
  | .gol24d | .gol23d => 12
  | .gol23e => 23
  | .h1511e => 15
  | .h1511d | .h1611d => 11
  | .h1611e => 16
  | .h139e => 13
  | .h139d => 9
  | .bptce => 196
  | .bptcd => 96

/-- `[a, a + n)` and `[b, b + m)` have an address in common (46_frame.md R225). -/
def overlaps (a n b m : Nat) : Bool :=
  decide (max a b < min (a + n) (b + m))

end Sys2Proof
end

