-- ==== Sys2Proof/Machine/Rom.lean ====
section
/-! DEFINITION. Well-formedness of the parameters and of the configuration ROM (00_scope.md R8, 46_frame.md R218), and the
parameter set a machine has. An ill-formed set is refused by construction: no `Setup` holds one (log entry 1). -/

namespace Sys2Proof

/-- A region check of a step (46_frame.md R218, condition 7): `n` bits at `off` from `base` lie inside the base's
region. `wireBits` is absent in `check_prog`, which uses the FIELD base only. -/
def inRegion (d : Descriptor) (wireBits : Option Nat) (base : Base) (off n : Nat) : Bool :=
  match base, wireBits with
  | .wire, some w => decide (off + n ≤ w)
  | .wire, none => false
  | .field, _ => decide (off + n ≤ d.fieldBits)

/-- The static checks of a step (46_frame.md R218, condition 7). -/
def Step.wf (vitMax : Nat) (d : Descriptor) (wireBits : Option Nat) (t : Step) : Bool :=
  t.op.varOk t.var.toNat
    && t.op.indexOk d t.var.toNat
    && t.op.lenOk vitMax d t.var.toNat t.len.toNat
    && (!t.op.usesSrc || inRegion d wireBits t.srcBase t.srcOff.toNat (t.op.srcBits t.len.toNat))
    && (!t.op.usesDst || inRegion d wireBits t.dstBase t.dstOff.toNat (t.op.dstBits t.len.toNat))

/-- A frame program: at most 32 steps, each passing its static checks (46_frame.md R217, R218). -/
def progWf (vitMax : Nat) (d : Descriptor) (wireBits : Option Nat) (prog : List Step) : Bool :=
  decide (prog.length ≤ 32) && prog.all (Step.wf vitMax d wireBits)

/-- An optional field of `lo` to `hi` bits inside the field block (46_frame.md R217, R218 condition 4). -/
def fieldWf (d : Descriptor) (lo hi : Nat) (o : Option Field) : Bool :=
  o.all fun x => decide (lo ≤ x.width ∧ x.width ≤ hi ∧ x.off + x.width ≤ d.fieldBits)

/-- A sync pattern of a frame of `lenBits` bits (46_frame.md R218, condition 3). -/
def Sync.wf (lenBits : Nat) (y : Sync) : Bool :=
  decide (1 ≤ y.n ∧ y.n ≤ 32 ∧ y.off + y.n ≤ lenBits ∧ y.pattern < 2 ^ y.n)

/-- A frame kind (46_frame.md R217, R218 conditions 2 to 5 and 7). -/
def FrameKind.wf (vitMax : Nat) (d : Descriptor) (k : FrameKind) : Bool :=
  decide (1 ≤ k.lenBits ∧ k.lenBits ≤ 4096)
    && decide (k.syncs.length ≤ 4) && k.syncs.all (Sync.wf k.lenBits)
    && progWf vitMax d (some k.lenBits) k.decProg && progWf vitMax d (some k.lenBits) k.encProg
    && fieldWf d 1 32 k.fSid && fieldWf d 1 32 k.fSrc && fieldWf d 1 32 k.fDst && fieldWf d 1 32 k.fSeq
    && fieldWf d 1 1 k.fEot && fieldWf d 1 4 k.fFragidx && fieldWf d 1 d.fieldBits k.fPayload
    && k.fFrag.all (fun x => d.embedded.any fun e => x.width == e.fragBits && decide (x.off + x.width ≤ d.fieldBits))
    && (k.fFragidx.isNone || (k.fFrag.isSome && d.embedded.isSome))

/-- An interleave table: a permutation of 0 to N - 1 with 1 to 4096 entries (46_frame.md R218, condition 1). -/
def tableWf (t : List Nat) : Bool :=
  decide (1 ≤ t.length ∧ t.length ≤ 4096) && t.all (· < t.length) && decide t.Nodup

/-- The embedded signalling channel (46_frame.md R218, conditions 6 and 7). -/
def Embedded.wf (vitMax reasmMax : Nat) (d : Descriptor) (e : Embedded) : Bool :=
  decide (1 ≤ e.nfrag ∧ e.nfrag ≤ 16 ∧ 1 ≤ e.fragBits ∧ e.nfrag * e.fragBits ≤ reasmMax
    ∧ e.msgOff + e.nfrag * e.fragBits ≤ d.fieldBits)
    && progWf vitMax d none e.checkProg

/-- The transmit kinds (46_frame.md R218, condition 8). -/
def TxKinds.wf (d : Descriptor) (t : TxKinds) : Bool :=
  (d.kinds[t.header]?).any (fun k => k.cls == .header)
    && (d.kinds[t.voice]?).any (fun k => k.cls == .voice)
    && (d.kinds[t.term]?).any (fun k => k.cls == .terminator || k.fEot.isSome)

/-- A well-formed descriptor (46_frame.md R215, R218). -/
def Descriptor.wf (vitMax reasmMax : Nat) (d : Descriptor) : Bool :=
  decide (d.ilv.length ≤ 16) && d.ilv.all tableWf
    && decide (d.whiten.length ≤ 16) && d.whiten.all (fun x => decide (1 ≤ x.length ∧ x.length ≤ 1024))
    && decide (1 ≤ d.fieldBits ∧ d.fieldBits ≤ 4096)
    && decide (1 ≤ d.kinds.length ∧ d.kinds.length ≤ 16) && d.kinds.all (FrameKind.wf vitMax d)
    && d.embedded.all (Embedded.wf vitMax reasmMax d)
    && d.tx.all (TxKinds.wf d)
    && decide (1 ≤ d.wdogLimit ∧ d.wdogLimit ≤ 65535) && decide (d.kaInterval ≤ 65535)
    && decide (d.linkTimeout ≤ 65535) && decide (1 ≤ d.seqMod ∧ d.seqMod ≤ 2 ^ 32)

/-- A well-formed parameter set (00_scope.md R8; the code parameters: log entry 8). -/
def Params.wf (p : Params) : Bool :=
  decide (1 ≤ p.dmemBytes ∧ p.dmemBytes ≤ 8192) && decide (p.vitMax ≤ 2048) && decide (p.reasmMax ≤ 4096)
    && (p.golayPoly == 0xC75#12 || p.golayPoly == 0xAE3#12)
    && hamOk p.ham15Eq 11 && hamOk p.ham13Eq 9
    && p.convG1.getLsbD 4 && p.convG2.getLsbD 4
    && p.desc.length == 16 && p.desc.all (fun o => o.all (Descriptor.wf p.vitMax p.reasmMax))

/-- A parameter set with the proof that it is well-formed: what a machine is built with (00_scope.md R8). -/
structure Setup where
  params : Params
  wf : params.wf = true
deriving DecidableEq, Repr

/-- `DMEM_BITS` (00_scope.md R7). -/
def Params.dmemBits (p : Params) : Nat :=
  8 * p.dmemBytes

/-- The descriptor a slot holds, if any (30_encoding.md R85). -/
def Params.slot (p : Params) (sel : BitVec 4) : Option Descriptor :=
  (p.desc[sel.toNat]?).join

/-- The descriptor an opcode that names no slot is given: it reads none of it. -/
def Descriptor.blank : Descriptor where
  crc16Mask0 := 0
  crc16Mask1 := 0
  ilv := []
  whiten := []
  fieldBits := 0
  kinds := []
  embedded := none
  tx := none
  wdogLimit := 0
  kaInterval := 0
  linkTimeout := 0
  seqMod := 0
  muteOnVfail := false
  authRequired := false

/-- `a + n <= DMEM_BITS`, the range check of `n` bits at address `a` (20_memory.md R65). -/
def Params.fits (p : Params) (a n : Nat) : Bool :=
  decide (a + n ≤ p.dmemBits)

/-- The descriptor a codec command works with: the one of its slot, or a blank one where the opcode names no slot. -/
def Params.descFor (p : Params) (sel : BitVec 4) : Descriptor :=
  (p.slot sel).getD Descriptor.blank

/-- The parameters at reset: the defaults of 00_scope.md R7, and free values for the OPEN ones. A slot of the free ROM
that is ill-formed is left empty, so that the set is a free well-formed one (log entry 2). -/
def Params.reset : Params where
  dmemBytes := 8192
  crc16Poly := 0x1021
  crc16Init := 0
  crc16Reflect := false
  crc16HighFirst := true
  crcs5 := Config.openCrcs5
  crcs6 := Config.openCrcs6
  crcs8 := Config.openCrcs8
  golayPoly := 0xC75
  ham15Eq := ham15Default
  ham13Eq := ham13Default
  convG1 := 0x13
  convG2 := 0x1D
  vitMax := 1024
  reasmMax := 1024
  envStart := 0xE0
  desc := (List.range 16).map fun k => (Config.openDesc k).filter (Descriptor.wf 1024 1024)

/-- The parameters at reset are well-formed, whatever the free values are. -/
theorem Params.reset_wf : Params.reset.wf = true := by
  have h15 : hamOk ham15Default 11 = true := by decide
  have h13 : hamOk ham13Default 9 = true := by decide
  have hd : Params.reset.desc.all (fun o => o.all (Descriptor.wf 1024 1024)) = true := by
    simp only [Params.reset, List.all_map, List.all_eq_true, Function.comp]
    intro k _
    cases Config.openDesc k with
    | none => rfl
    | some d => by_cases h : Descriptor.wf 1024 1024 d = true <;> simp [Option.filter, h]
  unfold Params.wf
  simp only [Bool.and_eq_true]
  exact ⟨⟨⟨⟨⟨⟨⟨⟨⟨by decide, by decide⟩, by decide⟩, by decide⟩, h15⟩, h13⟩, by decide⟩, by decide⟩,
    by simp [Params.reset]⟩, hd⟩

/-- The parameter set at reset (log entry 2). -/
def Setup.reset : Setup where
  params := Params.reset
  wf := Params.reset_wf

end Sys2Proof
end

