-- ==== Sys2Proof/Machine/State.lean ====
section
/-! DEFINITION. The state of DSFC (10_state.md R20 to R50) as plain data, its reset value (70_reset_and_hazards.md R340),
and the ways a step can stop. -/

namespace Sys2Proof.Machine

/-- The codes of STATUS.ERR and FAULT.FIRST (60_exceptions.md R300). Code 15 is never produced: it has no constructor. -/
inductive ErrCode where
  | none
  | illegal | reserved | badSel | badLen | range
  | badState | framing | fecUncorr | crcMismatch | sessionTimeout | authFail | config | linkTimeout | fatalLock
deriving DecidableEq, Repr

/-- STATUS by its fields (10_state.md R24); a field left out is 0. -/
structure Status where
  err : ErrCode := .none
  valid : Bool := false
  vfail : Bool := false
  payload : Bool := false
  msgrdy : Bool := false
  corr : BitVec 8 := 0
  newcall : Bool := false
  endcall : Bool := false
  lostcall : Bool := false
  kadue : Bool := false
  txframe : Bool := false
deriving DecidableEq, Repr

/-- FAULT by its fields (10_state.md R28). -/
structure FaultReg where
  faulted : Bool
  first : ErrCode
  fatal : Bool
  count : BitVec 16
deriving DecidableEq, Repr

/-- LINK_STATE (10_state.md R30). -/
inductive LinkState where
  | disconnected | connecting | auth | connected
deriving DecidableEq, Repr

/-- CALL_STATE (10_state.md R31); `ended` is END. -/
inductive CallState where
  | idle | new | streaming | ended | lost
deriving DecidableEq, Repr

/-- TX_STATE.TXS (10_state.md R39). -/
inductive TxPhase where
  | idle | header | stream | ending
deriving DecidableEq, Repr

/-- The session registers (10_state.md R30 to R43) and FRAG_BUF (R45). -/
structure Session where
  link : LinkState
  call : CallState
  backendValid : Bool
  backendSlot : BitVec 4
  activeSid : Word
  srcId : Word
  dstId : Word
  frameCnt : Word
  wdogCnt : BitVec 16
  linkWdog : BitVec 16
  kaCnt : BitVec 16
  txs : TxPhase
  stopReq : Bool
  txSid : Word
  txSeq : Word
  fragPresent : BitVec 16
  fragBuf : Bits
  cfgSrcId : Word
  cfgDstId : Word
  cfgCallHi : Word
  cfgCallLo : Word
deriving DecidableEq, Repr

/-- DMEM (10_state.md R21). `cells` lists, with addresses rising, the bytes that hold a known value because the host or a
command wrote them since the last reset; `epoch` counts the resets taken and selects the draws of every other byte
(log entry 3). -/
structure Memory where
  cells : List Host.Cell
  epoch : Nat
deriving DecidableEq, Repr

/-- The width of a host access: one byte, 32 bits, or any other (20_memory.md R66 to R68; log entry 6). -/
inductive HostWidth where
  | byte | word | other
deriving DecidableEq, Repr

/-- What the host does to the machine: an access at an offset of the host register space (10_state.md R50), or a reset
(70_reset_and_hazards.md R340). A byte access uses the low 8 bits of `value`. -/
inductive HostEvent where
  | write (off : BitVec 16) (width : HostWidth) (value : Word)
  | read (off : BitVec 16) (width : HostWidth)
  | reset
deriving DecidableEq, Repr

/-- The architectural state (10_state.md R20). `cfg` is the parameter set, which nothing changes (log entry 1). The last
two fields are the model's own: the host's accesses still to come, oldest first (log entry 4), and the value the last
host read returned (log entry 5). -/
structure State where
  cfg : Setup
  dmem : Memory
  cmdLo : Word
  cmdHi : Word
  status : Status
  res : Word
  res2 : Word
  fault : FaultReg
  session : Session
  pending : List HostEvent
  hostData : Word
deriving DecidableEq, Repr

/-- The reasons for a stop with a fault. There are none: every fault of the spec (60_exceptions.md R301) refuses one
command, records itself in STATUS and FAULT, and lets the next command run (R314), so it is a next state. -/
inductive Fault where
deriving DecidableEq, Repr

/-- The reasons for a stop without a meaning. -/
inductive Refusal where
  /-- Raised by an arm of `exec` whose instruction has no meaning in the model yet; safe. No arm raises it now. -/
  | notModelled (mnemonic : String)
deriving DecidableEq, Repr

/-- The state a command's effect is given in: a next state, always (60_exceptions.md R314, R351). -/
abbrev Result := Host.Outcome State Fault Refusal

/-- Every session register 0 and FRAG_BUF all 0, FRAG_BUF being `n` bits (47_session.md R259, 70_reset_and_hazards.md
R340). -/
def Session.cleared (n : Nat) : Session where
  link := .disconnected
  call := .idle
  backendValid := false
  backendSlot := 0
  activeSid := 0
  srcId := 0
  dstId := 0
  frameCnt := 0
  wdogCnt := 0
  linkWdog := 0
  kaCnt := 0
  txs := .idle
  stopReq := false
  txSid := 0
  txSeq := 0
  fragPresent := 0
  fragBuf := Bits.zeros n
  cfgSrcId := 0
  cfgDstId := 0
  cfgCallHi := 0
  cfgCallLo := 0

/-- FAULT with every field 0 (10_state.md R28). -/
def FaultReg.cleared : FaultReg where
  faulted := false
  first := .none
  fatal := false
  count := 0

/-- A machine with parameters `cfg` right after its `epoch`-th reset: every register 0, nothing known of DMEM, and the
host about to perform `pending` (70_reset_and_hazards.md R340; log entries 3 and 13). -/
def State.afterReset (cfg : Setup) (epoch : Nat) (pending : List HostEvent) (hostData : Word) : State where
  cfg := cfg
  dmem := { cells := [], epoch := epoch }
  cmdLo := 0
  cmdHi := 0
  status := {}
  res := 0
  res2 := 0
  fault := FaultReg.cleared
  session := Session.cleared cfg.params.reasmMax
  pending := pending
  hostData := hostData

/-- The machine right after reset (70_reset_and_hazards.md R340), with free OPEN parameters (log entry 2) and a host that
has not begun (log entry 4). -/
def State.reset : State :=
  State.afterReset Setup.reset 0 [] 0

/-- The parameters of the machine (00_scope.md R7). -/
abbrev State.par (s : State) : Params :=
  s.cfg.params

end Sys2Proof.Machine
end

