-- ==== Sys2Proof/Machine/Flags.lean ====
section
/-! DEFINITION. The result flags: the ERR codes, the saturating counts, and the words the host reads for the registers
that have fields (10_state.md R24, R28, R30 to R32, R39; 60_exceptions.md R300). -/

namespace Sys2Proof.Machine

/-- The number of an ERR code (60_exceptions.md R300). -/
def ErrCode.code : ErrCode → BitVec 4
  | .none => 0
  | .illegal => 1
  | .reserved => 2
  | .badSel => 3
  | .badLen => 4
  | .range => 5
  | .badState => 6
  | .framing => 7
  | .fecUncorr => 8
  | .crcMismatch => 9
  | .sessionTimeout => 10
  | .authFail => 11
  | .config => 12
  | .linkTimeout => 13
  | .fatalLock => 14

/-- The first of two codes that is not NONE (60_exceptions.md R311). -/
def ErrCode.orElse (a b : ErrCode) : ErrCode :=
  if a = .none then b else a

/-- `sat8` of 00_scope.md R10. -/
def sat8 (n : Nat) : BitVec 8 :=
  BitVec.ofNat 8 (min n 255)

/-- `sat16` of 00_scope.md R10. -/
def sat16 (n : Nat) : BitVec 16 :=
  BitVec.ofNat 16 (min n 0xFFFF)

/-- One bit as a 1-bit word. -/
def flagBit (b : Bool) : BitVec 1 :=
  BitVec.ofBool b

/-- The STATUS word: ERR [3:0], VALID [4], VFAIL [5], PAYLOAD [6], MSGRDY [7], CORR [15:8], NEWCALL [16], ENDCALL [17],
LOSTCALL [18], KADUE [19], TXFRAME [20], the rest 0 (10_state.md R24). -/
def Status.toWord (st : Status) : Word :=
  0#11 ++ flagBit st.txframe ++ flagBit st.kadue ++ flagBit st.lostcall ++ flagBit st.endcall ++ flagBit st.newcall
    ++ st.corr ++ flagBit st.msgrdy ++ flagBit st.payload ++ flagBit st.vfail ++ flagBit st.valid ++ st.err.code

/-- The FAULT word: FAULTED [0], FIRST [7:4], FATAL [8], COUNT [31:16], the rest 0 (10_state.md R28). -/
def FaultReg.toWord (r : FaultReg) : Word :=
  r.count ++ 0#7 ++ flagBit r.fatal ++ r.first.code ++ 0#3 ++ flagBit r.faulted

/-- The LINK_STATE word (10_state.md R30). -/
def LinkState.toWord : LinkState → Word
  | .disconnected => 0
  | .connecting => 1
  | .auth => 2
  | .connected => 3

/-- The CALL_STATE word (10_state.md R31). -/
def CallState.toWord : CallState → Word
  | .idle => 0
  | .new => 1
  | .streaming => 2
  | .ended => 3
  | .lost => 4

/-- The number of a transmit state (10_state.md R39). -/
def TxPhase.code : TxPhase → BitVec 2
  | .idle => 0
  | .header => 1
  | .stream => 2
  | .ending => 3

/-- The BACKEND word: VALID [4], SLOT [3:0] (10_state.md R32). -/
def Session.backendWord (se : Session) : Word :=
  0#27 ++ flagBit se.backendValid ++ se.backendSlot

/-- The TX_STATE word: TXS [1:0], STOP_REQ [8] (10_state.md R39). -/
def Session.txStateWord (se : Session) : Word :=
  0#23 ++ flagBit se.stopReq ++ 0#6 ++ se.txs.code

end Sys2Proof.Machine
end

