-- ==== Sys2Proof/Machine/Ops.lean ====
section
/-! DEFINITION. The named operations: DMEM by byte, bit and bit field (20_memory.md R61, R62), taking a fault
(60_exceptions.md R301), the outcomes with no effect (R302), and the shared form of a codec command. -/

namespace Sys2Proof.Machine

/-! ## DMEM -/

/-- The byte listed for an address; an unlisted address holds no known value (10_state.md R21). -/
def lookupCell : List Host.Cell → Nat → Option Byte
  | [], _ => none
  | (k, v) :: r, a => if k = a then some v else lookupCell r a

/-- The list with the byte at an address set, in its place by address. -/
def insertCell : List Host.Cell → Nat → Byte → List Host.Cell
  | [], a, v => [(a, v)]
  | (k, w) :: r, a, v =>
    if a < k then (a, v) :: (k, w) :: r
    else if a = k then (a, v) :: r
    else (k, w) :: insertCell r a v

/-- The canonical form: addresses strictly rising. An unlisted address holds no known value, so no entry can equal what
it reads as (log entry 3). -/
abbrev Memory.wf (m : Memory) : Prop :=
  m.cells.Pairwise (fun x y => x.1 < y.1)

/-- DMEM byte `a`: what was last written there, or the draw of its reset (10_state.md R21, 20_memory.md R76). -/
def Memory.byte (m : Memory) (a : Nat) : Byte :=
  (lookupCell m.cells a).getD (Config.dmemDraw m.epoch a)

/-- DMEM with byte `a` set. -/
def Memory.setByte (m : Memory) (a : Nat) (v : Byte) : Memory :=
  { m with cells := insertCell m.cells a v }

/-- DMEM bit address `b`: bit `7 - (b mod 8)` of byte `b div 8` (20_memory.md R61). -/
def Memory.bit (m : Memory) (b : Nat) : Bool :=
  (m.byte (b / 8)).getLsbD (7 - b % 8)

/-- A byte with one bit set to a value. -/
def setByteBit (x : Byte) (i : Nat) (v : Bool) : Byte :=
  if v then x ||| (1#8 <<< i) else x &&& ~~~(1#8 <<< i)

/-- DMEM with bit address `b` set. -/
def Memory.setBit (m : Memory) (b : Nat) (v : Bool) : Memory :=
  m.setByte (b / 8) (setByteBit (m.byte (b / 8)) (7 - b % 8) v)

/-- `ReadBits(a, n)` (00_scope.md R10). -/
def Memory.readBits (m : Memory) (a n : Nat) : Bits :=
  (List.range n).map fun i => m.bit (a + i)

/-- `WriteBits(a, n, v)` for the vector `v` of length `n` (00_scope.md R10). -/
def Memory.writeBits (m : Memory) (a : Nat) : Bits → Memory
  | [] => m
  | v :: r => (m.setBit a v).writeBits (a + 1) r

/-! ## Faults and outcomes -/

/-- Taking a fault with code `x` (60_exceptions.md R301): STATUS holds the code alone, FAULT records it, and nothing else
changes. There is no return from a fault: the next command executes normally (R314). -/
def State.takeFault (x : ErrCode) (s : State) : State :=
  { s with
    status := { err := x }
    fault := { s.fault with
      faulted := true
      first := if s.fault.faulted then s.fault.first else x
      count := sat16 (s.fault.count.toNat + 1) } }

/-- The checks of a command in the order of 60_exceptions.md R310: the first that fails faults with its code, and
`ok` follows when all pass. -/
def checked : List (ErrCode × Bool) → State → State → State
  | [], _, ok => ok
  | (x, good) :: r, s, ok => if good then checked r s ok else s.takeFault x

/-- A command that completes: STATUS, RES and RES2 are written (10_state.md R24 to R26) with DMEM and the session
registers it leaves. -/
def State.finish (s : State) (m : Memory) (se : Session) (st : Status) (res res2 : Word) : State :=
  { s with dmem := m, session := se, status := st, res := res, res2 := res2 }

/-- An outcome with no effect, BAD_STATE or FATAL_LOCK (60_exceptions.md R302): STATUS holds the code alone, RES and RES2
are 0, and nothing else changes. -/
def State.noEffect (x : ErrCode) (s : State) : State :=
  s.finish s.dmem s.session { err := x } 0 0

/-! ## Codec commands -/

/-- What a codec command's rule computes from its inputs: the bits it writes and where, RES, RES2, and the STATUS fields a
codec command can set. As a step of a frame program it yields `err` and `corr` (46_frame.md R222). -/
structure CodecOut where
  addr : Nat := 0
  bits : Bits := []
  res : Word := 0
  res2 : Word := 0
  valid : Bool := true
  err : ErrCode := .none
  corr : BitVec 8 := 0
deriving DecidableEq, Repr

/-- The rule of a codec command: from the parameters, the descriptor of its slot, DMEM and its operands. -/
abbrev CodecRule := Params → Descriptor → Memory → Operands → CodecOut

/-- The STATUS of a codec command that did not fault. -/
def CodecOut.status (o : CodecOut) : Status :=
  { err := o.err, valid := o.valid, corr := o.corr }

/-- DMEM after the output bits are written; all inputs were read before (20_memory.md R70). -/
def CodecOut.store (o : CodecOut) (m : Memory) : Memory :=
  m.writeBits o.addr o.bits

/-- The checks of a codec command in the order of 60_exceptions.md R310. -/
def codecChecks (op : StepOp) (p : Params) (sel : BitVec 4) (x : Operands) : List (ErrCode × Bool) :=
  [ (.reserved, op.varOk x.var),
    (.badSel, !op.usesSel || ((p.slot sel).isSome && op.indexOk (p.descFor sel) x.var)),
    (.badLen, op.lenOk p.vitMax (p.descFor sel) x.var x.len),
    (.range, p.fits x.src (op.srcBits x.len) && p.fits x.dst (op.dstBits x.len)) ]

/-- A codec command: its checks, then its rule. It writes the bits its rule names, STATUS, RES and RES2, and changes no
session register (20_memory.md R72). -/
def codecCommand (op : StepOp) (rule : CodecRule) (sel : BitVec 4) (x : Operands) (s : State) : Result :=
  let o := rule s.par (s.par.descFor sel) s.dmem x
  .next (checked (codecChecks op s.par sel x) s
    (s.finish (o.store s.dmem) s.session o.status o.res o.res2))

end Sys2Proof.Machine
end

