-- ==== Sys2Proof/Machine/BlockCodes.lean ====
section
/-! DEFINITION. The block codes: Golay(24,12) and (23,12), Hamming(15,11), extended Hamming(16,11), Hamming(13,9)
(42_block_codes.md R140 to R160). -/

namespace Sys2Proof.Machine

/-! ## Golay -/

/-- The loop of `par11`: bits `k + 10` down to 11 of the remainder are cleared in turn (42_block_codes.md R140). -/
def par11Loop (g : Nat) : Nat → Nat → Nat
  | 0, r => r
  | k + 1, r => par11Loop g k (if (r >>> (k + 11)) % 2 = 1 then r ^^^ (g <<< k) else r)

/-- `par11`: the 11 check bits of a 12-bit integer, `(d(x) * x^11) mod g(x)` (42_block_codes.md R140). -/
def par11 (p : Params) (d : Nat) : Nat :=
  par11Loop p.golayPoly.toNat 12 (d <<< 11) &&& 0x7FF

/-- `enc23` (42_block_codes.md R140). -/
def enc23 (p : Params) (d : Nat) : Nat :=
  (d <<< 11) ||| par11 p d

/-- `enc24`: `enc23` and its overall even parity bit (42_block_codes.md R140). -/
def enc24 (p : Params) (d : Nat) : Nat :=
  (enc23 p d <<< 1) ||| (popcount 23 (enc23 p d) % 2)

/-- `dist` of two `n`-bit words (00_scope.md R10). -/
def bitDist (n u v : Nat) : Nat :=
  popcount n (u ^^^ v)

/-- The data word whose codeword lies within distance 3 of `r`, if there is one (42_block_codes.md R142, R144). At most
one exists with a Golay generator, which `GOLAY_POLY` is (log entry 8). -/
def golayNearest (enc : Nat → Nat) (n r : Nat) : Option Nat :=
  (List.range 4096).find? fun d => decide (bitDist n r (enc d) ≤ 3)

/-- GOL24E's rule (42_block_codes.md R141). -/
def ruleGol24e : CodecRule := fun p _ m x =>
  let c := enc24 p (m.readBits x.src 12).toNat
  { addr := x.dst, bits := Bits.ofNat 24 c, res := BitVec.ofNat 32 c }

/-- GOL24E (42_block_codes.md R141). -/
def execGol24e (dst src : BitVec 16) (s : State) : Result :=
  codecCommand .gol24e ruleGol24e 0 ⟨0, 0, dst.toNat, src.toNat⟩ s

/-- GOL24D's rule (42_block_codes.md R142): on FEC_UNCORR the received data bits are written unchanged. -/
def ruleGol24d : CodecRule := fun p _ m x =>
  let r := (m.readBits x.src 24).toNat
  match golayNearest (enc24 p) 24 r with
  | some d =>
    { addr := x.dst, bits := Bits.ofNat 12 d, res := BitVec.ofNat 32 d, res2 := BitVec.ofNat 32 (enc24 p d)
      corr := sat8 (bitDist 24 r (enc24 p d)) }
  | none =>
    { addr := x.dst, bits := Bits.ofNat 12 (r >>> 12), res := BitVec.ofNat 32 (r >>> 12), res2 := BitVec.ofNat 32 r
      valid := false, err := .fecUncorr }

/-- GOL24D (42_block_codes.md R142). -/
def execGol24d (dst src : BitVec 16) (s : State) : Result :=
  codecCommand .gol24d ruleGol24d 0 ⟨0, 0, dst.toNat, src.toNat⟩ s

/-- GOL23E's rule (42_block_codes.md R143). -/
def ruleGol23e : CodecRule := fun p _ m x =>
  let c := enc23 p (m.readBits x.src 12).toNat
  { addr := x.dst, bits := Bits.ofNat 23 c, res := BitVec.ofNat 32 c }

/-- GOL23E (42_block_codes.md R143). -/
def execGol23e (dst src : BitVec 16) (s : State) : Result :=
  codecCommand .gol23e ruleGol23e 0 ⟨0, 0, dst.toNat, src.toNat⟩ s

/-- GOL23D's rule (42_block_codes.md R144). The code is perfect, so the data word always exists; the 0 that stands for
its absence is never used (log entry 8). -/
def ruleGol23d : CodecRule := fun p _ m x =>
  let r := (m.readBits x.src 23).toNat
  let d := (golayNearest (enc23 p) 23 r).getD 0
  { addr := x.dst, bits := Bits.ofNat 12 d, res := BitVec.ofNat 32 d, res2 := BitVec.ofNat 32 (enc23 p d)
    corr := sat8 (bitDist 23 r (enc23 p d)) }

/-- GOL23D (42_block_codes.md R144). -/
def execGol23d (dst src : BitVec 16) (s : State) : Result :=
  codecCommand .gol23d ruleGol23d 0 ⟨0, 0, dst.toNat, src.toNat⟩ s

/-! ## Hamming -/

/-- A Hamming encoder's result: the codeword written at DST and in RES (42_block_codes.md R147). -/
def encoded (dst : Nat) (c : Bits) : CodecOut :=
  { addr := dst, bits := c, res := Bits.zext32 c }

/-- A Hamming decoder's result: data bits at DST and in RES, the syndrome value in RES2, and one corrected bit or none
(42_block_codes.md R148). -/
def decoded (dst : Nat) (data : Bits) (syn corr : Nat) : CodecOut :=
  { addr := dst, bits := data, res := Bits.zext32 data, res2 := BitVec.ofNat 32 syn, corr := sat8 corr }

/-- A Hamming decoder's result on a detected, uncorrectable error: the data bits as received (42_block_codes.md R152,
R160). -/
def undecoded (dst : Nat) (data : Bits) (syn : Nat) : CodecOut :=
  { addr := dst, bits := data, res := Bits.zext32 data, res2 := BitVec.ofNat 32 syn, valid := false, err := .fecUncorr }

/-- The overall parity bit of the extended code (42_block_codes.md R150). -/
def extendParity (c : Bits) : Bits :=
  c ++ [c.parity]

/-- H1511E's rule (42_block_codes.md R145, R147). -/
def ruleH1511e : CodecRule := fun p _ m x =>
  let d := m.readBits x.src 11
  encoded x.dst (d ++ hamChecks p.ham15Eq d)

/-- H1511E (42_block_codes.md R147). -/
def execH1511e (dst src : BitVec 16) (s : State) : Result :=
  codecCommand .h1511e ruleH1511e 0 ⟨0, 0, dst.toNat, src.toNat⟩ s

/-- A word with the bit a nonzero syndrome names inverted (42_block_codes.md R148, R152, R160). -/
def hamFix (eqs : List (List Nat)) (k : Nat) (r : Bits) (syn : Nat) : Bits :=
  match hamBit eqs k syn with
  | some i => r.flip i
  | none => r

/-- H1511D's rule (42_block_codes.md R146, R148). Every nonzero syndrome names a bit, since the code is perfect. -/
def ruleH1511d : CodecRule := fun p _ m x =>
  let r := m.readBits x.src 15
  let syn := hamSyndrome p.ham15Eq 11 r
  if syn = 0 then decoded x.dst (r.take 11) syn 0
  else decoded x.dst ((hamFix p.ham15Eq 11 r syn).take 11) syn 1

/-- H1511D (42_block_codes.md R148). -/
def execH1511d (dst src : BitVec 16) (s : State) : Result :=
  codecCommand .h1511d ruleH1511d 0 ⟨0, 0, dst.toNat, src.toNat⟩ s

/-- H1611E's rule (42_block_codes.md R150, R151). -/
def ruleH1611e : CodecRule := fun p _ m x =>
  let d := m.readBits x.src 11
  encoded x.dst (extendParity (d ++ hamChecks p.ham15Eq d))

/-- H1611E (42_block_codes.md R151). -/
def execH1611e (dst src : BitVec 16) (s : State) : Result :=
  codecCommand .h1611e ruleH1611e 0 ⟨0, 0, dst.toNat, src.toNat⟩ s

/-- H1611D's rule (42_block_codes.md R152): four cases on the syndrome and the overall parity. -/
def ruleH1611d : CodecRule := fun p _ m x =>
  let r := m.readBits x.src 16
  let syn := hamSyndrome p.ham15Eq 11 (r.take 15)
  let par := r.parity.toNat
  if syn = 0 then decoded x.dst (r.take 11) (syn + 16 * par) par
  else if par = 1 then decoded x.dst ((hamFix p.ham15Eq 11 r syn).take 11) (syn + 16 * par) 1
  else undecoded x.dst (r.take 11) (syn + 16 * par)

/-- H1611D (42_block_codes.md R152). -/
def execH1611d (dst src : BitVec 16) (s : State) : Result :=
  codecCommand .h1611d ruleH1611d 0 ⟨0, 0, dst.toNat, src.toNat⟩ s

/-- H139E's rule (42_block_codes.md R157, R159). -/
def ruleH139e : CodecRule := fun p _ m x =>
  let d := m.readBits x.src 9
  encoded x.dst (d ++ hamChecks p.ham13Eq d)

/-- H139E (42_block_codes.md R159). -/
def execH139e (dst src : BitVec 16) (s : State) : Result :=
  codecCommand .h139e ruleH139e 0 ⟨0, 0, dst.toNat, src.toNat⟩ s

/-- H139D's rule (42_block_codes.md R158, R160): a syndrome that names no bit is a detected, uncorrectable error. -/
def ruleH139d : CodecRule := fun p _ m x =>
  let r := m.readBits x.src 13
  let syn := hamSyndrome p.ham13Eq 9 r
  if syn = 0 then decoded x.dst (r.take 9) syn 0
  else if (hamBit p.ham13Eq 9 syn).isSome then decoded x.dst ((hamFix p.ham13Eq 9 r syn).take 9) syn 1
  else undecoded x.dst (r.take 9) syn

/-- H139D (42_block_codes.md R160). -/
def execH139d (dst src : BitVec 16) (s : State) : Result :=
  codecCommand .h139d ruleH139d 0 ⟨0, 0, dst.toNat, src.toNat⟩ s

end Sys2Proof.Machine
end

