-- ==== Sys2Proof/Machine/Bptc.lean ====
section
/-! DEFINITION. The BPTC(196,96) codec: BPTCE, BPTCD (43_bptc.md R170 to R178). -/

namespace Sys2Proof.Machine

/-- `m[a] = raw[(a * BPTC_MULT) mod 196]` (43_bptc.md R171). -/
def bptcUnpermute (raw : Bits) : Bits :=
  (List.range bptcN).map fun a => raw.get (a * bptcMult % bptcN)

/-- The inverse, `raw[j] = m[(j * 13) mod 196]` (43_bptc.md R171). -/
def bptcPermute (m : Bits) : Bits :=
  (List.range bptcN).map fun j => m.get (j * 13 % bptcN)

/-- The index in `m` of row `r`, column `c` of the matrix (43_bptc.md R172). -/
def bptcIndex (r c : Nat) : Nat :=
  1 + 15 * r + c

/-- Row `r` of the matrix, 15 bits (43_bptc.md R172). -/
def bptcRow (m : Bits) (r : Nat) : Bits :=
  (List.range 15).map fun c => m.get (bptcIndex r c)

/-- Column `c` of the matrix, 13 bits (43_bptc.md R172). -/
def bptcCol (m : Bits) (c : Nat) : Bits :=
  (List.range 13).map fun r => m.get (bptcIndex r c)

/-- `DATA_POS`: the index in `m` of each payload bit: row 0 columns 3 to 10, then columns 0 to 10 of rows 1 to 8
(43_bptc.md R174). -/
def bptcDataPos : List Nat :=
  (List.range 8).map (fun i => bptcIndex 0 (i + 3))
    ++ (List.range 8).flatMap fun r => (List.range 11).map fun c => bptcIndex (r + 1) c

/-- The check bits of row `r` set from its data (43_bptc.md R176). -/
def bptcRowEncode (p : Params) (m : Bits) (r : Nat) : Bits :=
  m.setMany (((List.range 4).map fun j => bptcIndex r (11 + j)).zip (hamChecks p.ham15Eq ((bptcRow m r).take 11)))

/-- The check bits of column `c` set from its data (43_bptc.md R176). -/
def bptcColEncode (p : Params) (m : Bits) (c : Nat) : Bits :=
  m.setMany (((List.range 4).map fun j => bptcIndex (9 + j) c).zip (hamChecks p.ham13Eq ((bptcCol m c).take 9)))

/-- The block of a payload: scatter, row parity, column parity, permutation (43_bptc.md R176). -/
def bptcEncode (p : Params) (payload : Bits) : Bits :=
  let m0 := (Bits.zeros bptcN).setMany (bptcDataPos.zip payload)
  let m1 := (List.range 9).foldl (bptcRowEncode p) m0
  bptcPermute ((List.range 15).foldl (bptcColEncode p) m1)

/-- The syndrome of column `c` (43_bptc.md R177). -/
def bptcColSyndrome (p : Params) (m : Bits) (c : Nat) : Nat :=
  hamSyndrome p.ham13Eq 9 (bptcCol m c)

/-- The syndrome of row `r` (43_bptc.md R177). -/
def bptcRowSyndrome (p : Params) (m : Bits) (r : Nat) : Nat :=
  hamSyndrome p.ham15Eq 11 (bptcRow m r)

/-- The correction of column `c`: the matrix and the count of bits fixed so far (43_bptc.md R177). -/
def bptcFixCol (p : Params) (x : Bits × Nat) (c : Nat) : Bits × Nat :=
  let syn := bptcColSyndrome p x.1 c
  if syn = 0 then x
  else match hamBit p.ham13Eq 9 syn with
    | some k => (x.1.flip (bptcIndex k c), x.2 + 1)
    | none => x

/-- The correction of row `r` (43_bptc.md R177). -/
def bptcFixRow (p : Params) (x : Bits × Nat) (r : Nat) : Bits × Nat :=
  let syn := bptcRowSyndrome p x.1 r
  if syn = 0 then x
  else match hamBit p.ham15Eq 11 syn with
    | some k => (x.1.flip (bptcIndex r k), x.2 + 1)
    | none => x

/-- One pass: the 15 columns, then the 9 rows, each corrected once on the bits as they then are; the result counts the
bits fixed (43_bptc.md R177). -/
def bptcPass (p : Params) (m : Bits) : Bits × Nat :=
  (List.range 9).foldl (bptcFixRow p) ((List.range 15).foldl (bptcFixCol p) (m, 0))

/-- Up to `n` passes, stopping after one that fixes nothing: the matrix, the passes made and the bits fixed
(43_bptc.md R177). -/
def bptcIterate (p : Params) : Nat → Bits → Nat → Nat → Bits × Nat × Nat
  | 0, m, passes, total => (m, passes, total)
  | n + 1, m, passes, total =>
    let x := bptcPass p m
    if x.2 = 0 then (x.1, passes + 1, total) else bptcIterate p n x.1 (passes + 1) (total + x.2)

/-- The number of columns and data rows whose syndrome is not zero (43_bptc.md R177). -/
def bptcBad (p : Params) (m : Bits) : Nat :=
  (List.range 15).countP (fun c => bptcColSyndrome p m c != 0)
    + (List.range 9).countP (fun r => bptcRowSyndrome p m r != 0)

/-- BPTCE's rule (43_bptc.md R176). -/
def ruleBptce : CodecRule := fun p _ m x =>
  { addr := x.dst, bits := bptcEncode p (m.readBits x.src bptcK) }

/-- BPTCE (43_bptc.md R176). -/
def execBptce (dst src : BitVec 16) (s : State) : Result :=
  codecCommand .bptce ruleBptce 0 ⟨0, 0, dst.toNat, src.toNat⟩ s

/-- BPTCD's rule (43_bptc.md R177): the payload is written on FEC_UNCORR too. -/
def ruleBptcd : CodecRule := fun p _ m x =>
  let y := bptcIterate p bptcPasses (bptcUnpermute (m.readBits x.src bptcN)) 0 0
  let bad := bptcBad p y.1
  { addr := x.dst, bits := bptcDataPos.map y.1.get
    res := BitVec.ofNat 32 y.2.1, res2 := BitVec.ofNat 32 bad
    valid := bad == 0, err := if bad = 0 then .none else .fecUncorr, corr := sat8 y.2.2 }

/-- BPTCD (43_bptc.md R177). -/
def execBptcd (dst src : BitVec 16) (s : State) : Result :=
  codecCommand .bptcd ruleBptcd 0 ⟨0, 0, dst.toNat, src.toNat⟩ s

end Sys2Proof.Machine
end

