-- ==== Sys2Proof/Machine/Control.lean ====
section
/-! DEFINITION. Control and bit-movement commands: NOP, MOVB, FILL (40_control.md R110 to R112). -/

namespace Sys2Proof.Machine

/-- NOP: STATUS, RES and RES2 are 0 and nothing else changes (40_control.md R110). -/
def execNop (s : State) : Result :=
  .next (s.finish s.dmem s.session {} 0 0)

/-- MOVB's rule (40_control.md R111). -/
def ruleMovb : CodecRule := fun _ _ m x =>
  { addr := x.dst, bits := m.readBits x.src x.len, valid := false }

/-- MOVB (40_control.md R111). -/
def execMovb (len dst src : BitVec 16) (s : State) : Result :=
  codecCommand .movb ruleMovb 0 ⟨0, len.toNat, dst.toNat, src.toNat⟩ s

/-- FILL's rule (40_control.md R112). -/
def ruleFill : CodecRule := fun _ _ _ x =>
  { addr := x.dst, bits := List.replicate x.len (x.var == 1), valid := false }

/-- FILL (40_control.md R112). -/
def execFill (var : BitVec 4) (len dst : BitVec 16) (s : State) : Result :=
  codecCommand .fill ruleFill 0 ⟨var.toNat, len.toNat, dst.toNat, 0⟩ s

end Sys2Proof.Machine
end

