-- ==== Sys2Proof/Machine/Conv.lean ====
section
/-! DEFINITION. The convolutional codec: CONVE, VITD (44_convolutional.md R185 to R193). -/

namespace Sys2Proof.Machine

/-- The 5-bit encoder register for state `st` and input bit `d` (44_convolutional.md R185). -/
def convReg (st : Nat) (d : Bool) : Nat :=
  (d.toNat <<< 4) ||| st

/-- The output bit of one tap mask (44_convolutional.md R186). -/
def convTap (g : BitVec 5) (reg : Nat) : Bool :=
  popcount 5 (reg &&& g.toNat) % 2 == 1

/-- The state after a step (44_convolutional.md R185, R187). -/
def convNext (st : Nat) (d : Bool) : Nat :=
  convReg st d >>> 1

/-- The output bits of the encoder from a state (44_convolutional.md R188). -/
def convEncode (p : Params) : Nat → Bits → Bits
  | _, [] => []
  | st, d :: r =>
    convTap p.convG1 (convReg st d) :: convTap p.convG2 (convReg st d) :: convEncode p (convNext st d) r

/-- The encoder state after a bit vector (44_convolutional.md R188). -/
def convFinal (st : Nat) (v : Bits) : Nat :=
  v.foldl convNext st

/-- CONVE's rule (44_convolutional.md R188). -/
def ruleConve : CodecRule := fun p _ m x =>
  let v := m.readBits x.src (x.len / 2)
  { addr := x.dst, bits := convEncode p 0 v, res := BitVec.ofNat 32 (convFinal 0 v) }

/-- CONVE (44_convolutional.md R188). -/
def execConve (len dst src : BitVec 16) (s : State) : Result :=
  codecCommand .conve ruleConve 0 ⟨0, len.toNat, dst.toNat, src.toNat⟩ s

/-- Path metrics of the 16 states; `none` is the infinite metric of an unreachable state (44_convolutional.md R190). -/
abbrev Metrics := List (Option Nat)

/-- The metrics before the first step (44_convolutional.md R190). -/
def vitStart : Metrics :=
  some 0 :: List.replicate 15 none

/-- The input bit that leads into state `st` (44_convolutional.md R191). -/
def vitInput (st : Nat) : Bool :=
  st >>> 3 == 1

/-- Predecessor `b` of state `st` (44_convolutional.md R191). -/
def vitPred (st b : Nat) : Nat :=
  ((st &&& 7) <<< 1) ||| b

/-- The metric of the path into `st` through its predecessor `b` when the bits `r0`, `r1` are received
(44_convolutional.md R190, R191). -/
def vitCandidate (p : Params) (pm : Metrics) (r0 r1 : Bool) (st b : Nat) : Option Nat :=
  (pm.getD (vitPred st b) none).map fun x =>
    let reg := convReg (vitPred st b) (vitInput st)
    x + (convTap p.convG1 reg ^^ r0).toNat + (convTap p.convG2 reg ^^ r1).toNat

/-- The best metric of state `st` and its predecessor: a tie keeps the lower one (44_convolutional.md R191). -/
def vitSelect (p : Params) (pm : Metrics) (r0 r1 : Bool) (st : Nat) : Option Nat × Nat :=
  match vitCandidate p pm r0 r1 st 0, vitCandidate p pm r0 r1 st 1 with
  | some x, some y => if y < x then (some y, vitPred st 1) else (some x, vitPred st 0)
  | none, some y => (some y, vitPred st 1)
  | x, none => (x, vitPred st 0)

/-- The forward recursion over the received pairs: the final metrics, and the predecessors of each step, last step first
(44_convolutional.md R191). -/
def vitForward (p : Params) : Metrics → List (List Nat) → Bits → Metrics × List (List Nat)
  | pm, preds, r0 :: r1 :: r =>
    let sel := (List.range 16).map (vitSelect p pm r0 r1)
    vitForward p (sel.map Prod.fst) (sel.map Prod.snd :: preds) r
  | pm, preds, _ => (pm, preds)

/-- The state with the smallest metric, the lowest-numbered on a tie, and that metric (44_convolutional.md R191). -/
def vitBest (pm : Metrics) : Nat × Nat :=
  (List.range 16).foldl
    (fun (best : Nat × Option Nat) st =>
      match pm.getD st none, best.2 with
      | some x, some y => if x < y then (st, some x) else best
      | some x, none => (st, some x)
      | none, _ => best)
    (0, none) |>.map id (·.getD 0)

/-- The chainback from a final state through the predecessors, last step first (44_convolutional.md R191). -/
def vitChain : Nat → List (List Nat) → Bits → Bits
  | _, [], out => out
  | st, pr :: r, out => vitChain (pr.getD st 0) r (vitInput st :: out)

/-- VITD's rule (44_convolutional.md R191). -/
def ruleVitd : CodecRule := fun p _ m x =>
  let f := vitForward p vitStart [] (m.readBits x.src (2 * x.len))
  let best := vitBest f.1
  { addr := x.dst, bits := vitChain best.1 f.2 [], res := BitVec.ofNat 32 best.2, res2 := BitVec.ofNat 32 best.1
    corr := sat8 best.2 }

/-- VITD (44_convolutional.md R191). -/
def execVitd (len dst src : BitVec 16) (s : State) : Result :=
  codecCommand .vitd ruleVitd 0 ⟨0, len.toNat, dst.toNat, src.toNat⟩ s

end Sys2Proof.Machine
end

