-- ==== Sys2Proof/Machine/Crc.lean ====
section
/-! DEFINITION. The CRC Engine: CRC16, CRC16A, CRC16V, CRCS, CRCSA, CRCSV (41_crc.md R120 to R129). -/

namespace Sys2Proof.Machine

/-! ## CRC-CCITT-16 -/

/-- One bit step of the CRC register (41_crc.md R120). -/
def crc16Bit (poly c : BitVec 16) : BitVec 16 :=
  if c.msb then (c <<< 1) ^^^ poly else c <<< 1

/-- One byte step of the CRC register: the byte, reflected if the parameter says so, enters at the top, and eight bit
steps follow (41_crc.md R120). -/
def crc16Byte (p : Params) (c : BitVec 16) (b : Byte) : BitVec 16 :=
  let b' := if p.crc16Reflect then b.reverse else b
  (List.range 8).foldl (fun c _ => crc16Bit p.crc16Poly c) (c ^^^ (b'.setWidth 16 <<< 8))

/-- `crc16_raw` of a list of bytes (41_crc.md R120). -/
def crc16Raw (p : Params) (bytes : List Byte) : BitVec 16 :=
  let c := bytes.foldl (crc16Byte p) p.crc16Init
  if p.crc16Reflect then c.reverse else c

/-- The `n` bytes at bit address `a`, each the 8 bits there whatever the address is modulo 8 (20_memory.md R63). -/
def Memory.readBytes (m : Memory) (a n : Nat) : List Byte :=
  (List.range n).map fun i => BitVec.ofNat 8 (m.readBits (a + 8 * i) 8).toNat

/-- `DESC[s].crc16_mask[v]` (46_frame.md R215). -/
def crc16Mask (d : Descriptor) (v : Nat) : BitVec 16 :=
  if v = 0 then d.crc16Mask0 else d.crc16Mask1

/-- `crc16(a, n, s, v)` (41_crc.md R120). -/
def crc16 (p : Params) (d : Descriptor) (m : Memory) (a n v : Nat) : BitVec 16 :=
  crc16Raw p (m.readBytes a n) ^^^ crc16Mask d v

/-- `byteswap16` (41_crc.md R123). -/
def byteswap16 (c : BitVec 16) : BitVec 16 :=
  c.extractLsb' 0 8 ++ c.extractLsb' 8 8

/-- A CRC in the order its two bytes stand in the buffer, `CRC16_APPEND_ORDER` (41_crc.md R123, R124). -/
def crc16Order (p : Params) (c : BitVec 16) : BitVec 16 :=
  if p.crc16HighFirst then c else byteswap16 c

/-- CRC16's rule (41_crc.md R121). -/
def ruleCrc16 : CodecRule := fun p d m x =>
  { res := (crc16 p d m x.src x.len x.var).setWidth 32 }

/-- CRC16 (41_crc.md R121). -/
def execCrc16 (var sel : BitVec 4) (len src : BitVec 16) (s : State) : Result :=
  codecCommand .crc16 ruleCrc16 sel ⟨var.toNat, len.toNat, 0, src.toNat⟩ s

/-- CRC16A's rule (41_crc.md R123). -/
def ruleCrc16a : CodecRule := fun p d m x =>
  let c := crc16 p d m x.src (x.len - 2) x.var
  { addr := x.src + 8 * (x.len - 2), bits := Bits.ofNat 16 (crc16Order p c).toNat, res := c.setWidth 32 }

/-- CRC16A (41_crc.md R123). -/
def execCrc16a (var sel : BitVec 4) (len src : BitVec 16) (s : State) : Result :=
  codecCommand .crc16a ruleCrc16a sel ⟨var.toNat, len.toNat, 0, src.toNat⟩ s

/-- A CRC check: RES is the computed value, RES2 the stored one, and VALID says whether they agree (41_crc.md R124,
R129). -/
def crcVerdict (c t : Word) : CodecOut :=
  { res := c, res2 := t, valid := c == t, err := if c = t then .none else .crcMismatch }

/-- CRC16V's rule (41_crc.md R124). -/
def ruleCrc16v : CodecRule := fun p d m x =>
  let c := crc16 p d m x.src (x.len - 2) x.var
  let t := crc16Order p (BitVec.ofNat 16 (m.readBits (x.src + 8 * (x.len - 2)) 16).toNat)
  crcVerdict (c.setWidth 32) (t.setWidth 32)

/-- CRC16V (41_crc.md R124). -/
def execCrc16v (var sel : BitVec 4) (len src : BitVec 16) (s : State) : Result :=
  codecCommand .crc16v ruleCrc16v sel ⟨var.toNat, len.toNat, 0, src.toNat⟩ s

/-! ## Small CRCs -/

/-- One bit step of a small CRC register (41_crc.md R126). -/
def smallCrcBit {w : Nat} (poly c : BitVec w) (b : Bool) : BitVec w :=
  if c.msb ^^ b then (c <<< 1) ^^^ poly else c <<< 1

/-- A small CRC of a bit vector (41_crc.md R126). -/
def smallCrc {w : Nat} (k : SmallCrc w) (v : Bits) : BitVec w :=
  v.foldl (smallCrcBit k.poly) k.init ^^^ k.xorout

/-- `crcs` of a bit vector at the width VAR selects (41_crc.md R126). -/
def crcsOf (p : Params) (var : Nat) (v : Bits) : Nat :=
  match var with
  | 0 => (smallCrc p.crcs5 v).toNat
  | 1 => (smallCrc p.crcs6 v).toNat
  | _ => (smallCrc p.crcs8 v).toNat

/-- CRCS's rule (41_crc.md R127). -/
def ruleCrcs : CodecRule := fun p _ m x =>
  { res := BitVec.ofNat 32 (crcsOf p x.var (m.readBits x.src x.len)) }

/-- CRCS (41_crc.md R127). -/
def execCrcs (var : BitVec 4) (len src : BitVec 16) (s : State) : Result :=
  codecCommand .crcs ruleCrcs 0 ⟨var.toNat, len.toNat, 0, src.toNat⟩ s

/-- CRCSA's rule (41_crc.md R128). -/
def ruleCrcsa : CodecRule := fun p _ m x =>
  let w := crcsWidth x.var
  let c := crcsOf p x.var (m.readBits x.src (x.len - w))
  { addr := x.src + (x.len - w), bits := Bits.ofNat w c, res := BitVec.ofNat 32 c }

/-- CRCSA (41_crc.md R128). -/
def execCrcsa (var : BitVec 4) (len src : BitVec 16) (s : State) : Result :=
  codecCommand .crcsa ruleCrcsa 0 ⟨var.toNat, len.toNat, 0, src.toNat⟩ s

/-- CRCSV's rule (41_crc.md R129). -/
def ruleCrcsv : CodecRule := fun p _ m x =>
  let w := crcsWidth x.var
  let c := crcsOf p x.var (m.readBits x.src (x.len - w))
  crcVerdict (BitVec.ofNat 32 c) (Bits.zext32 (m.readBits (x.src + (x.len - w)) w))

/-- CRCSV (41_crc.md R129). -/
def execCrcsv (var : BitVec 4) (len src : BitVec 16) (s : State) : Result :=
  codecCommand .crcsv ruleCrcsv 0 ⟨var.toNat, len.toNat, 0, src.toNat⟩ s

end Sys2Proof.Machine
end

