-- ==== Sys2Proof/Machine/Interleave.lean ====
section
/-! DEFINITION. The interleaver and the scrambler: ILV, DILV, SCR (45_interleave_scramble.md R200 to R206). -/

namespace Sys2Proof.Machine

/-- `interleave`: logical bit `i` goes to transmitted position `T[i]` (45_interleave_scramble.md R201). -/
def interleave (t : List Nat) (v : Bits) : Bits :=
  (Bits.zeros t.length).setMany (t.zip v)

/-- `deinterleave`: logical bit `i` comes from transmitted position `T[i]` (45_interleave_scramble.md R202). -/
def deinterleave (t : List Nat) (v : Bits) : Bits :=
  t.map v.get

/-- The bit stream of a whitening sequence (45_interleave_scramble.md R204). -/
def whitenBits (w : List Byte) : Bits :=
  w.flatMap Bits.ofByte

/-- `scramble`: the XOR with the sequence from its first bit (45_interleave_scramble.md R205). -/
def scramble (w : List Byte) (v : Bits) : Bits :=
  List.zipWith xor v (whitenBits w)

/-- ILV's rule (45_interleave_scramble.md R201). -/
def ruleIlv : CodecRule := fun _ d m x =>
  { addr := x.dst, bits := interleave (d.ilv.getD x.var []) (m.readBits x.src x.len) }

/-- ILV (45_interleave_scramble.md R201). -/
def execIlv (var sel : BitVec 4) (len dst src : BitVec 16) (s : State) : Result :=
  codecCommand .ilv ruleIlv sel ⟨var.toNat, len.toNat, dst.toNat, src.toNat⟩ s

/-- DILV's rule (45_interleave_scramble.md R202). -/
def ruleDilv : CodecRule := fun _ d m x =>
  { addr := x.dst, bits := deinterleave (d.ilv.getD x.var []) (m.readBits x.src x.len) }

/-- DILV (45_interleave_scramble.md R202). -/
def execDilv (var sel : BitVec 4) (len dst src : BitVec 16) (s : State) : Result :=
  codecCommand .dilv ruleDilv sel ⟨var.toNat, len.toNat, dst.toNat, src.toNat⟩ s

/-- SCR's rule (45_interleave_scramble.md R205). -/
def ruleScr : CodecRule := fun _ d m x =>
  { addr := x.dst, bits := scramble (d.whiten.getD x.var []) (m.readBits x.src x.len) }

/-- SCR (45_interleave_scramble.md R205). -/
def execScr (var sel : BitVec 4) (len dst src : BitVec 16) (s : State) : Result :=
  codecCommand .scr ruleScr sel ⟨var.toNat, len.toNat, dst.toNat, src.toNat⟩ s

end Sys2Proof.Machine
end

