-- ==== Sys2Proof/Machine/Frame.lean ====
section
/-! DEFINITION. Frame programs, the frame parser and assembler, and the modem envelope: FRDEC, FRENC, ENVP, ENVU
(46_frame.md R215 to R233). -/

namespace Sys2Proof.Machine

/-! ## Frame programs -/

/-- The rule a step opcode executes: that of the command with the same opcode (46_frame.md R222). -/
def stepRule : StepOp → CodecRule
  | .movb => ruleMovb
  | .fill => ruleFill
  | .crc16 => ruleCrc16
  | .crc16a => ruleCrc16a
  | .crc16v => ruleCrc16v
  | .crcs => ruleCrcs
  | .crcsa => ruleCrcsa
  | .crcsv => ruleCrcsv
  | .gol24e => ruleGol24e
  | .gol24d => ruleGol24d
  | .gol23e => ruleGol23e
  | .gol23d => ruleGol23d
  | .h1511e => ruleH1511e
  | .h1511d => ruleH1511d
  | .h1611e => ruleH1611e
  | .h1611d => ruleH1611d
  | .h139e => ruleH139e
  | .h139d => ruleH139d
  | .bptce => ruleBptce
  | .bptcd => ruleBptcd
  | .conve => ruleConve
  | .vitd => ruleVitd
  | .ilv => ruleIlv
  | .dilv => ruleDilv
  | .scr => ruleScr

/-- The address a base and an offset name, for wire address `w` and field block address `f` (46_frame.md R222). -/
def baseAddr (w f : Nat) (base : Base) (off : BitVec 16) : Nat :=
  (match base with
   | .wire => w
   | .field => f) + off.toNat

/-- The operands of a step: those of the command word of 46_frame.md R222. -/
def stepOperands (w f : Nat) (t : Step) : Operands where
  var := t.var.toNat
  len := t.len.toNat
  dst := if t.op.usesDst then baseAddr w f t.dstBase t.dstOff else 0
  src := if t.op.usesSrc then baseAddr w f t.srcBase t.srcOff else 0

/-- What a frame program has done so far: DMEM, the first CONTROL failure, the first VOICE failure, and the sum of the
steps' CORR values (46_frame.md R225). -/
structure ProgState where
  mem : Memory
  ctl : ErrCode
  voice : ErrCode
  corr : Nat
deriving DecidableEq, Repr

/-- A program about to run on a memory. -/
def ProgState.start (m : Memory) : ProgState where
  mem := m
  ctl := .none
  voice := .none
  corr := 0

/-- One step: it executes as its command word would, writes no result register, and yields its outcome and CORR, which
its role puts to use (46_frame.md R222, R224, R225). -/
def runStep (p : Params) (d : Descriptor) (w f : Nat) (x : ProgState) (t : Step) : ProgState :=
  let o := stepRule t.op p d x.mem (stepOperands w f t)
  { mem := o.store x.mem
    ctl := if t.role = .control then x.ctl.orElse o.err else x.ctl
    voice := if t.role = .voice then x.voice.orElse o.err else x.voice
    corr := x.corr + o.corr.toNat }

/-- A frame program: every step, in order (46_frame.md R221). -/
def runProg (p : Params) (d : Descriptor) (w f : Nat) (prog : List Step) (m : Memory) : ProgState :=
  prog.foldl (runStep p d w f) (ProgState.start m)

/-! ## The frame parser -/

/-- A sync matches when its bits equal its pattern exactly (46_frame.md R219). -/
def syncMatches (m : Memory) (w : Nat) (y : Sync) : Bool :=
  (m.readBits (w + y.off) y.n).toNat == y.pattern

/-- A frame of `n` bits at `w` has the length and the syncs of a kind (46_frame.md R220). -/
def kindMatches (m : Memory) (w n : Nat) (k : FrameKind) : Bool :=
  k.lenBits == n && k.syncs.all (syncMatches m w)

/-- The kind of a frame: the lowest index that matches, if any (46_frame.md R220). -/
def classify (d : Descriptor) (m : Memory) (w n : Nat) : Option Nat :=
  d.kinds.findIdx? (kindMatches m w n)

/-- The number of a frame class (46_frame.md R217). -/
def classCode : FrameClass → Word
  | .header => 0
  | .voice => 1
  | .fragment => 2
  | .terminator => 3

/-- A parsed frame: its kind's index and record, and what the decode program did. -/
structure Parsed where
  index : Nat
  kind : FrameKind
  prog : ProgState
deriving DecidableEq, Repr

/-- The body of FRDEC after its checks (46_frame.md R225): classify, clear the field block, run the decode program.
`none` is FRAMING. -/
def parseFrame (p : Params) (d : Descriptor) (m : Memory) (w n f : Nat) : Option Parsed :=
  match classify d m w n with
  | none => none
  | some k =>
    match d.kinds[k]? with
    | none => none
    | some kd => some ⟨k, kd, runProg p d w f kd.decProg (m.writeBits f (Bits.zeros d.fieldBits))⟩

/-- The STATUS fields a parsed frame gives: VALID, VFAIL, CORR and ERR (46_frame.md R225, 47_session.md R271). -/
def ProgState.status (x : ProgState) : Status :=
  { valid := x.ctl == .none, vfail := x.voice != .none, corr := sat8 x.corr, err := x.ctl.orElse x.voice }

/-- The result of a command whose frame or envelope matched nothing: FRAMING, DMEM and the session unchanged
(46_frame.md R225, R232; 47_session.md R260). -/
def State.framing (s : State) : State :=
  s.finish s.dmem s.session { err := .framing } 0xFFFFFFFF 0

/-- FRDEC (46_frame.md R225). -/
def execFrdec (sel : BitVec 4) (len dst src : BitVec 16) (s : State) : Result :=
  let d := s.par.descFor sel
  let w := src.toNat
  let n := len.toNat
  let f := dst.toNat
  .next (checked
    [ (.badSel, (s.par.slot sel).isSome),
      (.badLen, decide (1 ≤ n)),
      (.range, s.par.fits w n && s.par.fits f d.fieldBits),
      (.range, !overlaps w n f d.fieldBits) ] s
    (match parseFrame s.par d s.dmem w n f with
     | none => s.framing
     | some y => s.finish y.prog.mem s.session y.prog.status (BitVec.ofNat 32 y.index) (classCode y.kind.cls)))

/-! ## The frame assembler -/

/-- A sync pattern written into a frame (46_frame.md R227). -/
def writeSync (w : Nat) (m : Memory) (y : Sync) : Memory :=
  m.writeBits (w + y.off) (Bits.ofNat y.n y.pattern)

/-- The body of FRENC after its checks (46_frame.md R227): a zero frame, the syncs, the encode program. -/
def buildFrame (p : Params) (d : Descriptor) (k : FrameKind) (m : Memory) (w f : Nat) : Memory :=
  (runProg p d w f k.encProg (k.syncs.foldl (writeSync w) (m.writeBits w (Bits.zeros k.lenBits)))).mem

/-- The length of frame kind `k`, 0 where there is none. -/
def Descriptor.lenOf (d : Descriptor) (k : Nat) : Nat :=
  ((d.kinds[k]?).map FrameKind.lenBits).getD 0

/-- FRENC (46_frame.md R227). -/
def execFrenc (var sel : BitVec 4) (dst src : BitVec 16) (s : State) : Result :=
  let d := s.par.descFor sel
  let k := var.toNat
  let w := dst.toNat
  let f := src.toNat
  let n := Descriptor.lenOf d k
  .next (checked
    [ (.badSel, (s.par.slot sel).isSome && decide (k < d.kinds.length)),
      (.range, s.par.fits w n && s.par.fits f d.fieldBits),
      (.range, !overlaps w n f d.fieldBits) ] s
    (match d.kinds[k]? with
     | none => s.takeFault .badSel
     | some kd =>
       s.finish (buildFrame s.par d kd s.dmem w f) s.session { valid := true } (BitVec.ofNat 32 n) (BitVec.ofNat 32 k)))

/-! ## The envelope -/

/-- The envelope of a payload: start byte, total length, type byte, payload (46_frame.md R230, R231). -/
def envelope (p : Params) (ty : BitVec 8) (payload : Bits) (n : Nat) : Bits :=
  Bits.ofByte p.envStart ++ Bits.ofNat 8 (n + 3) ++ Bits.ofByte ty ++ payload

/-- ENVP (46_frame.md R231). -/
def execEnvp (ty : BitVec 8) (len dst src : BitVec 16) (s : State) : Result :=
  let n := len.toNat
  .next (checked
    [ (.badLen, decide (n ≤ 252)),
      (.range, s.par.fits src.toNat (8 * n) && s.par.fits dst.toNat (8 * (n + 3))) ] s
    (s.finish (s.dmem.writeBits dst.toNat (envelope s.par ty (s.dmem.readBits src.toNat (8 * n)) n)) s.session
      { valid := true } (BitVec.ofNat 32 (n + 3)) 0))

/-- ENVU (46_frame.md R232). -/
def execEnvu (len dst src : BitVec 16) (s : State) : Result :=
  let n := len.toNat
  let a := src.toNat
  let b0 := (s.dmem.readBits a 8).toNat
  let l := (s.dmem.readBits (a + 8) 8).toNat
  let ty := (s.dmem.readBits (a + 16) 8).toNat
  .next (checked
    [ (.badLen, decide (3 ≤ n)),
      (.range, s.par.fits a (8 * n) && s.par.fits dst.toNat (8 * (n - 3))) ] s
    (if b0 ≠ s.par.envStart.toNat ∨ l < 3 ∨ n < l then s.framing
     else s.finish (s.dmem.writeBits dst.toNat (s.dmem.readBits (a + 24) (8 * (l - 3)))) s.session
       { valid := true } (BitVec.ofNat 32 ty) (BitVec.ofNat 32 (l - 3))))

end Sys2Proof.Machine
end

