-- ==== Sys2Proof/Machine/Session.lean ====
section
/-! DEFINITION. The stream session: SCON, SLNK, SDIS, SRXF, SRXT, STXS, STXE, STXT (47_session.md R250 to R282). -/

namespace Sys2Proof.Machine

/-- `DESC[BACKEND.SLOT]`, if a slot is selected and holds a descriptor (47_session.md R260, R272). While the link is not
DISCONNECTED it always does (log entry 9). -/
def State.backend (s : State) : Option Descriptor :=
  if s.session.backendValid then s.par.slot s.session.backendSlot else none

/-- A completed session command that leaves DMEM as it is: RES and RES2 0 (47_session.md R251, R253). -/
def State.sessionDone (s : State) (se : Session) (st : Status) : State :=
  s.finish s.dmem se st 0 0

/-- The session reset (47_session.md R259). -/
def State.sessionReset (s : State) : Session :=
  Session.cleared s.par.reasmMax

/-! ## Connection -/

/-- The session SCON starts with slot `sel` from the configuration record at `a` (47_session.md R251). -/
def connectSession (m : Memory) (se : Session) (sel : BitVec 4) (a : Nat) : Session :=
  { se with
    link := .connecting
    backendValid := true
    backendSlot := sel
    cfgSrcId := (m.readBits a 32).zext32
    cfgDstId := (m.readBits (a + 32) 32).zext32
    cfgCallHi := (m.readBits (a + 64) 32).zext32
    cfgCallLo := (m.readBits (a + 96) 32).zext32 }

/-- The configuration error: FAULT.FATAL and the CONFIG outcome, nothing else (47_session.md R252). -/
def State.configError (s : State) : State :=
  { s.sessionDone s.session { err := .config } with fault := { s.fault with fatal := true } }

/-- SCON (47_session.md R251, R252). -/
def execScon (var sel : BitVec 4) (src : BitVec 16) (s : State) : Result :=
  .next (checked
    [ (.reserved, decide (var.toNat ≤ 1)),
      (.badSel, (s.par.slot sel).isSome),
      (.range, s.par.fits src.toNat 128) ] s
    (if s.fault.fatal then s.noEffect .fatalLock
     else if s.session.link ≠ .disconnected then s.noEffect .badState
     else if var.toNat = 1 then s.configError
     else s.sessionDone (connectSession s.dmem s.session sel src.toNat) { valid := true }))

/-- The link state LINK_UP leads to (47_session.md R253). -/
def linkUpState (d : Descriptor) : LinkState :=
  if d.authRequired then .auth else .connected

/-- SLNK (47_session.md R253). -/
def execSlnk (var : BitVec 4) (s : State) : Result :=
  let se := s.session
  .next (checked [(.reserved, decide (var.toNat ≤ 3))] s
    (match var.toNat with
     | 0 =>
       match s.backend with
       | some d =>
         if se.link = .connecting then s.sessionDone { se with link := linkUpState d, linkWdog := 0 } { valid := true }
         else s.noEffect .badState
       | none => s.noEffect .badState
     | 1 =>
       if se.link = .auth then s.sessionDone { se with link := .connected, linkWdog := 0 } { valid := true }
       else s.noEffect .badState
     | 2 =>
       if se.link = .auth then s.sessionDone s.sessionReset { err := .authFail }
       else s.noEffect .badState
     | _ =>
       if se.link ≠ .disconnected then s.sessionDone { se with linkWdog := 0 } { valid := true }
       else s.noEffect .badState))

/-- SDIS (47_session.md R258, R259). -/
def execSdis (s : State) : Result :=
  .next (s.sessionDone s.sessionReset { valid := true })

/-! ## Receiving -/

/-- A field of the field block at `f` as an unsigned integer (46_frame.md R216). -/
def fieldVal (m : Memory) (f : Nat) (x : Field) : Nat :=
  (m.readBits (f + x.off) x.width).toNat

/-- An optional field zero-extended into a register, 0 where the kind has none (47_session.md R263). -/
def fieldWord (m : Memory) (f : Nat) (o : Option Field) : Word :=
  match o with
  | none => 0
  | some x => BitVec.ofNat 32 (fieldVal m f x)

/-- `same` of 47_session.md R261. -/
def sameStream (m : Memory) (f : Nat) (k : FrameKind) (se : Session) : Bool :=
  k.fSid.isNone || fieldWord m f k.fSid == se.activeSid

/-- `e` of 47_session.md R261: the explicit end flag. -/
def endsCall (m : Memory) (f : Nat) (k : FrameKind) : Bool :=
  k.cls == .terminator || k.fEot.any fun x => fieldVal m f x == 1

/-- `start` of 47_session.md R261. -/
def startsCall (m : Memory) (f : Nat) (k : FrameKind) : Bool :=
  (k.cls == .header || k.cls == .voice) && !endsCall m f k

/-- Entering NEW (47_session.md R263); FRAG_BUF is `n` bits. -/
def enterNew (n : Nat) (m : Memory) (f : Nat) (k : FrameKind) (se : Session) : Session :=
  { se with
    call := .new
    activeSid := fieldWord m f k.fSid
    srcId := fieldWord m f k.fSrc
    dstId := fieldWord m f k.fDst
    frameCnt := 0
    fragPresent := 0
    fragBuf := Bits.zeros n }

/-- What a call transition does: the session, whether it accepts the frame, NEWCALL and ENDCALL (47_session.md R262). -/
structure CallStep where
  session : Session
  accepted : Bool
  newcall : Bool
  endcall : Bool
deriving DecidableEq, Repr

/-- The transition that does nothing and does not accept the frame. -/
def CallStep.ignore (se : Session) : CallStep :=
  ⟨se, false, false, false⟩

/-- The call transitions for a state-valid frame (47_session.md R262 to R264). -/
def callStep (n : Nat) (m : Memory) (f : Nat) (k : FrameKind) (se : Session) : CallStep :=
  let entered := enterNew n m f k se
  match se.call with
  | .idle | .lost =>
    if startsCall m f k then ⟨entered, true, true, false⟩ else .ignore se
  | .new | .streaming =>
    match sameStream m f k se, endsCall m f k with
    | true, false => ⟨{ se with call := .streaming }, true, false, false⟩
    | true, true => ⟨{ se with call := .ended }, true, false, true⟩
    | false, false => ⟨entered, true, true, false⟩
    | false, true => ⟨{ entered with call := .ended }, true, true, true⟩
  | .ended =>
    if !sameStream m f k se && startsCall m f k then ⟨entered, true, true, false⟩ else .ignore se

/-- The call is NEW or STREAMING. -/
def CallState.active : CallState → Bool
  | .new | .streaming => true
  | _ => false

/-- What reassembly leaves: the session, DMEM, MSGRDY, and the message's failure code (47_session.md R270). -/
structure Reassembly where
  session : Session
  mem : Memory
  msgrdy : Bool
  msg : ErrCode
deriving DecidableEq, Repr

/-- Every fragment 0 to `n - 1` is present (47_session.md R270). -/
def allPresent (n : Nat) (present : BitVec 16) : Bool :=
  (List.range n).all present.getLsbD

/-- The check of a complete message in `buf`: it is written into the field block and validated; on success the buffer is
cleared, on failure it is kept (47_session.md R270). -/
def completeMessage (p : Params) (d : Descriptor) (e : Embedded) (m : Memory) (w f : Nat) (se : Session) : Reassembly :=
  let x := runProg p d w f e.checkProg (m.writeBits (f + e.msgOff) (se.fragBuf.take (e.nfrag * e.fragBits)))
  if x.ctl = .none then
    ⟨{ se with fragPresent := 0, fragBuf := Bits.zeros p.reasmMax }, x.mem, true, .none⟩
  else ⟨se, x.mem, false, x.ctl⟩

/-- The session with fragment `i` stored (47_session.md R270). -/
def storeFragment (e : Embedded) (i : Nat) (frag : Bits) (se : Session) : Session :=
  { se with
    fragBuf := se.fragBuf.splice (i * e.fragBits) frag
    fragPresent := se.fragPresent ||| (1#16 <<< i) }

/-- Reassembly of the fragment in fields `xi` (its index) and `xf` (its bits) (47_session.md R270). -/
def takeFragment (p : Params) (d : Descriptor) (e : Embedded) (m : Memory) (w f : Nat) (xi xf : Field) (se : Session) :
    Reassembly :=
  let i := fieldVal m f xi
  if i < e.nfrag then
    let se' := storeFragment e i (m.readBits (f + xf.off) e.fragBits) se
    if allPresent e.nfrag se'.fragPresent then completeMessage p d e m w f se' else ⟨se', m, false, .none⟩
  else ⟨se, m, false, .none⟩

/-- Reassembly for an accepted frame of kind `k` (47_session.md R270): only a kind with a fragment index carries one, and
only while the call is NEW or STREAMING after the transition. -/
def reassemble (p : Params) (d : Descriptor) (k : FrameKind) (m : Memory) (w f : Nat) (se : Session) : Reassembly :=
  match d.embedded, k.fFragidx, k.fFrag with
  | some e, some xi, some xf =>
    if se.call.active then takeFragment p d e m w f xi xf se else ⟨se, m, false, .none⟩
  | _, _, _ => ⟨se, m, false, .none⟩

/-- The kind carries a voice payload: class VOICE with `f_payload` (47_session.md R265, R268). -/
def carriesPayload (k : FrameKind) : Bool :=
  k.cls == .voice && k.fPayload.isSome

/-- The frame counted (47_session.md R266). -/
def countFrame (se : Session) : Session :=
  { se with frameCnt := se.frameCnt + 1 }

/-- A frame whose voice payload failed: forwarded or muted, nothing else (47_session.md R265). -/
def State.voiceFailed (s : State) (d : Descriptor) (f : Nat) (y : Parsed) : State :=
  let se := s.session
  let fwd := carriesPayload y.kind && se.call.active && sameStream y.prog.mem f y.kind se && !d.muteOnVfail
  s.finish y.prog.mem se { y.prog.status with payload := fwd } (BitVec.ofNat 32 y.index) (classCode y.kind.cls)

/-- The session with both watchdogs cleared (47_session.md R267). -/
def clearWatchdogs (se : Session) : Session :=
  { se with wdogCnt := 0, linkWdog := 0 }

/-- A state-valid frame: watchdogs, call transition, count, reassembly, payload (47_session.md R260, R262 to R270). -/
def State.validFrame (s : State) (d : Descriptor) (w f : Nat) (y : Parsed) : State :=
  let m := y.prog.mem
  let c := callStep s.par.reasmMax m f y.kind (clearWatchdogs s.session)
  let x := if c.accepted then reassemble s.par d y.kind m w f (countFrame c.session) else ⟨c.session, m, false, .none⟩
  s.finish x.mem x.session
    { y.prog.status with
      err := (y.prog.ctl.orElse y.prog.voice).orElse x.msg
      payload := c.accepted && carriesPayload y.kind
      msgrdy := x.msgrdy
      newcall := c.newcall
      endcall := c.endcall }
    (BitVec.ofNat 32 y.index) (classCode y.kind.cls)

/-- A classified frame (47_session.md R260): dropped when a CONTROL step failed, with the STATUS of R271 (log entry 7). -/
def State.receive (s : State) (d : Descriptor) (w f : Nat) (y : Parsed) : State :=
  if y.prog.ctl ≠ .none then
    s.finish y.prog.mem s.session y.prog.status (BitVec.ofNat 32 y.index) (classCode y.kind.cls)
  else if y.prog.voice ≠ .none then s.voiceFailed d f y
  else s.validFrame d w f y

/-- The size of the session's field block, 0 with no backend (47_session.md R260, R277). -/
def State.fieldBits (s : State) : Nat :=
  (s.backend.map Descriptor.fieldBits).getD 0

/-- SRXF (47_session.md R260). -/
def execSrxf (len dst src : BitVec 16) (s : State) : Result :=
  let w := src.toNat
  let n := len.toNat
  let f := dst.toNat
  .next (checked
    [ (.badLen, decide (1 ≤ n)),
      (.range, s.par.fits w n && s.par.fits f s.fieldBits),
      (.range, !overlaps w n f s.fieldBits) ] s
    (match s.backend with
     | none => s.noEffect .badState
     | some d =>
       if s.session.link ≠ .connected then s.noEffect .badState
       else match parseFrame s.par d s.dmem w n f with
         | none => s.framing
         | some y => s.receive d w f y))

/-! ## Receive ticks -/

/-- A 16-bit counter's next value (00_scope.md R10, `sat16`). -/
def satSucc (c : BitVec 16) : BitVec 16 :=
  sat16 (c.toNat + 1)

/-- Entering LOST (47_session.md R273); FRAG_BUF is `n` bits. -/
def enterLost (n : Nat) (se : Session) : Session :=
  { se with call := .lost, fragPresent := 0, fragBuf := Bits.zeros n }

/-- Return to IDLE (47_session.md R274); FRAG_BUF is `n` bits. -/
def returnToIdle (n : Nat) (se : Session) : Session :=
  { se with
    call := .idle
    activeSid := 0
    srcId := 0
    dstId := 0
    frameCnt := 0
    fragPresent := 0
    fragBuf := Bits.zeros n }

/-- The call is END or LOST. -/
def CallState.over : CallState → Bool
  | .ended | .lost => true
  | _ => false

/-- The result of a receive tick: RES and RES2 are the two watchdogs (47_session.md R272). -/
def State.ticked (s : State) (se : Session) (st : Status) : State :=
  s.finish s.dmem se st (se.wdogCnt.setWidth 32) (se.linkWdog.setWidth 32)

/-- A receive tick in CONNECTED, with the link watchdog already counted in `se` (47_session.md R272). -/
def State.callTick (s : State) (d : Descriptor) (drained : Bool) (se : Session) : State :=
  let se' := { se with wdogCnt := satSucc se.wdogCnt }
  if se'.call.active && decide (d.wdogLimit ≤ se'.wdogCnt.toNat) then
    s.ticked (enterLost s.par.reasmMax se') { err := .sessionTimeout, lostcall := true }
  else if se'.call.over && drained then s.ticked (returnToIdle s.par.reasmMax se') { valid := true }
  else s.ticked se' { valid := true }

/-- SRXT (47_session.md R272). -/
def execSrxt (var : BitVec 4) (s : State) : Result :=
  .next (checked [(.reserved, decide (var.toNat ≤ 1))] s
    (match s.backend with
     | none => s.noEffect .badState
     | some d =>
       if s.session.link = .disconnected then s.noEffect .badState
       else
         let se := { s.session with linkWdog := satSucc s.session.linkWdog }
         if 0 < d.linkTimeout ∧ d.linkTimeout ≤ se.linkWdog.toNat then
           s.sessionDone s.sessionReset { err := .linkTimeout }
         else if se.link = .connected then s.callTick d (var == 1) se
         else s.ticked se { valid := true }))

/-! ## Transmitting -/

/-- STXS (47_session.md R275). -/
def execStxs (imm : BitVec 32) (s : State) : Result :=
  let se := s.session
  .next (match s.backend with
    | none => s.noEffect .badState
    | some d =>
      if se.link ≠ .connected ∨ se.txs ≠ .idle ∨ d.tx.isNone then s.noEffect .badState
      else s.sessionDone { se with txSid := imm, txSeq := 0, txs := .header, stopReq := false } { valid := true })

/-- STXE (47_session.md R276). -/
def execStxe (s : State) : Result :=
  let se := s.session
  .next (match se.txs with
    | .header => s.sessionDone { se with stopReq := true } { valid := true }
    | .stream => s.sessionDone { se with txs := .ending } { valid := true }
    | .idle | .ending => s.noEffect .badState)

/-- A number written into an optional field, truncated to its width (47_session.md R278). -/
def putField (m : Memory) (f : Nat) (o : Option Field) (v : Nat) : Memory :=
  match o with
  | none => m
  | some x => m.writeBits (f + x.off) (Bits.ofNat x.width v)

/-- The field block with the session's fields for a frame of kind `k` (47_session.md R278). -/
def putFields (d : Descriptor) (k : FrameKind) (eot : Bool) (se : Session) (m : Memory) (f : Nat) : Memory :=
  let m1 := putField m f k.fSid se.txSid.toNat
  let m2 := putField m1 f k.fSrc se.cfgSrcId.toNat
  let m3 := putField m2 f k.fDst se.cfgDstId.toNat
  let m4 := putField m3 f k.fSeq (se.txSeq.toNat % d.seqMod)
  putField m4 f k.fEot eot.toNat

/-- What a transmit tick has produced: DMEM, the session, TXFRAME, RES and RES2 (47_session.md R277). -/
structure TxResult where
  mem : Memory
  session : Session
  txframe : Bool
  res : Word
  res2 : Word
deriving DecidableEq, Repr

/-- A transmit tick that sends nothing. -/
def TxResult.silent (m : Memory) (se : Session) : TxResult :=
  ⟨m, se, false, 0, 0⟩

/-- `emit(k, eot)` (47_session.md R278). -/
def emit (p : Params) (d : Descriptor) (k : Nat) (eot : Bool) (se : Session) (m : Memory) (w f : Nat) : TxResult :=
  match d.kinds[k]? with
  | none => .silent m se
  | some kd =>
    ⟨buildFrame p d kd (putFields d kd eot se m f) w f, { se with txSeq := se.txSeq + 1 }, true,
      BitVec.ofNat 32 kd.lenBits, BitVec.ofNat 32 k⟩

/-- The outbound machine's tick (47_session.md R277). -/
def txTick (p : Params) (d : Descriptor) (t : TxKinds) (queued : Bool) (se : Session) (m : Memory) (w f : Nat) :
    TxResult :=
  match se.txs with
  | .idle => .silent m se
  | .header =>
    let x := emit p d t.header false se m w f
    { x with session := { x.session with txs := if se.stopReq then .ending else .stream, stopReq := false } }
  | .stream => if queued then emit p d t.voice false se m w f else .silent m se
  | .ending =>
    let x := emit p d t.term true se m w f
    { x with session := { x.session with txs := .idle, stopReq := false, txSid := 0, txSeq := 0 } }

/-- A keepalive is due on this transmit tick (47_session.md R281). -/
def keepaliveDue (d : Descriptor) (se : Session) : Bool :=
  decide (0 < d.kaInterval ∧ d.kaInterval ≤ se.kaCnt.toNat + 1)

/-- The keepalive step (47_session.md R281). -/
def keepaliveStep (d : Descriptor) (se : Session) : Session :=
  if keepaliveDue d se then { se with kaCnt := 0 }
  else if 0 < d.kaInterval then { se with kaCnt := se.kaCnt + 1 }
  else se

/-- The longest of the three transmit kinds, 0 without a backend or without transmit kinds (47_session.md R277). -/
def State.txBits (s : State) : Nat :=
  match s.backend with
  | none => 0
  | some d =>
    match d.tx with
    | none => 0
    | some t => max (max (Descriptor.lenOf d t.header) (Descriptor.lenOf d t.voice)) (Descriptor.lenOf d t.term)

/-- A transmit tick in CONNECTED (47_session.md R277). Without transmit kinds the outbound machine is idle and sends
nothing. -/
def State.transmit (s : State) (d : Descriptor) (queued : Bool) (w f : Nat) : State :=
  let se := keepaliveStep d s.session
  let x := match d.tx with
    | none => TxResult.silent s.dmem se
    | some t => txTick s.par d t queued se s.dmem w f
  s.finish x.mem x.session { valid := true, txframe := x.txframe, kadue := keepaliveDue d s.session } x.res x.res2

/-- STXT (47_session.md R277). -/
def execStxt (var : BitVec 4) (dst src : BitVec 16) (s : State) : Result :=
  let f := src.toNat
  let w := dst.toNat
  .next (checked
    [ (.reserved, decide (var.toNat ≤ 1)),
      (.range, s.par.fits f s.fieldBits && s.par.fits w s.txBits),
      (.range, !overlaps w s.txBits f s.fieldBits) ] s
    (match s.backend with
     | none => s.noEffect .badState
     | some d =>
       if s.session.link ≠ .connected then s.noEffect .badState
       else s.transmit d (var == 1) w f))

end Sys2Proof.Machine
end

