-- ==== Sys2Proof/Machine/Dispatch.lean ====
section
/-! DEFINITION. The meaning of each command: one arm per constructor of Instr. -/

namespace Sys2Proof.Machine

/-- The meaning of a command. -/
def exec (i : Instr) (s : State) : Host.Outcome State Fault Refusal :=
  match i with
  | .nop => Sys2Proof.Machine.execNop s
  | .movb len dst src => Sys2Proof.Machine.execMovb len dst src s
  | .fill var len dst => Sys2Proof.Machine.execFill var len dst s
  | .crc16 var sel len src => Sys2Proof.Machine.execCrc16 var sel len src s
  | .crc16a var sel len src => Sys2Proof.Machine.execCrc16a var sel len src s
  | .crc16v var sel len src => Sys2Proof.Machine.execCrc16v var sel len src s
  | .crcs var len src => Sys2Proof.Machine.execCrcs var len src s
  | .crcsa var len src => Sys2Proof.Machine.execCrcsa var len src s
  | .crcsv var len src => Sys2Proof.Machine.execCrcsv var len src s
  | .gol24e dst src => Sys2Proof.Machine.execGol24e dst src s
  | .gol24d dst src => Sys2Proof.Machine.execGol24d dst src s
  | .gol23e dst src => Sys2Proof.Machine.execGol23e dst src s
  | .gol23d dst src => Sys2Proof.Machine.execGol23d dst src s
  | .h1511e dst src => Sys2Proof.Machine.execH1511e dst src s
  | .h1511d dst src => Sys2Proof.Machine.execH1511d dst src s
  | .h1611e dst src => Sys2Proof.Machine.execH1611e dst src s
  | .h1611d dst src => Sys2Proof.Machine.execH1611d dst src s
  | .h139e dst src => Sys2Proof.Machine.execH139e dst src s
  | .h139d dst src => Sys2Proof.Machine.execH139d dst src s
  | .bptce dst src => Sys2Proof.Machine.execBptce dst src s
  | .bptcd dst src => Sys2Proof.Machine.execBptcd dst src s
  | .conve len dst src => Sys2Proof.Machine.execConve len dst src s
  | .vitd len dst src => Sys2Proof.Machine.execVitd len dst src s
  | .ilv var sel len dst src => Sys2Proof.Machine.execIlv var sel len dst src s
  | .dilv var sel len dst src => Sys2Proof.Machine.execDilv var sel len dst src s
  | .scr var sel len dst src => Sys2Proof.Machine.execScr var sel len dst src s
  | .frdec sel len dst src => Sys2Proof.Machine.execFrdec sel len dst src s
  | .frenc var sel dst src => Sys2Proof.Machine.execFrenc var sel dst src s
  | .envp ty len dst src => Sys2Proof.Machine.execEnvp ty len dst src s
  | .envu len dst src => Sys2Proof.Machine.execEnvu len dst src s
  | .scon var sel src => Sys2Proof.Machine.execScon var sel src s
  | .slnk var => Sys2Proof.Machine.execSlnk var s
  | .sdis => Sys2Proof.Machine.execSdis s
  | .srxf len dst src => Sys2Proof.Machine.execSrxf len dst src s
  | .srxt var => Sys2Proof.Machine.execSrxt var s
  | .stxs imm => Sys2Proof.Machine.execStxs imm s
  | .stxe => Sys2Proof.Machine.execStxe s
  | .stxt var dst src => Sys2Proof.Machine.execStxt var dst src s

end Sys2Proof.Machine
end

