-- ==== Sys2Proof/Machine/HostPort.lean ====
section
/-! DEFINITION. The host port: register and DMEM accesses, the execution of the command word by a write of CMD_HI, and
reset (10_state.md R23, R50; 20_memory.md R66 to R71; 70_reset_and_hazards.md R340). -/

namespace Sys2Proof.Machine

/-- The register a 32-bit read at an offset returns; CMD_LO and CMD_HI read 0 (10_state.md R50, 20_memory.md R67).
`none` is an offset with no register. -/
def readReg (s : State) (off : Nat) : Option Word :=
  match off with
  | 0x0000 => some 0
  | 0x0004 => some 0
  | 0x0008 => some s.status.toWord
  | 0x000C => some s.res
  | 0x0010 => some s.res2
  | 0x0014 => some s.fault.toWord
  | 0x0020 => some s.session.link.toWord
  | 0x0024 => some s.session.call.toWord
  | 0x0028 => some s.session.backendWord
  | 0x002C => some s.session.activeSid
  | 0x0030 => some s.session.srcId
  | 0x0034 => some s.session.dstId
  | 0x0038 => some s.session.frameCnt
  | 0x003C => some (s.session.wdogCnt.setWidth 32)
  | 0x0040 => some (s.session.linkWdog.setWidth 32)
  | 0x0044 => some (s.session.kaCnt.setWidth 32)
  | 0x0048 => some s.session.txStateWord
  | 0x004C => some s.session.txSid
  | 0x0050 => some s.session.txSeq
  | 0x0054 => some (s.session.fragPresent.setWidth 32)
  | 0x0058 => some s.session.cfgSrcId
  | 0x005C => some s.session.cfgDstId
  | 0x0060 => some s.session.cfgCallHi
  | 0x0064 => some s.session.cfgCallLo
  | _ => none

/-- The DMEM byte that a byte access at an offset reaches, if any (20_memory.md R66). -/
def dmemIndex (p : Params) (off : Nat) : Option Nat :=
  if 0x8000 ≤ off ∧ off < 0x8000 + p.dmemBytes then some (off - 0x8000) else none

/-- What a host read returns; an unmapped read returns 0 (20_memory.md R66 to R68). -/
def hostRead (s : State) (off : BitVec 16) (width : HostWidth) : Word :=
  match width with
  | .word => (readReg s off.toNat).getD 0
  | .byte =>
    match dmemIndex s.par off.toNat with
    | some a => (s.dmem.byte a).setWidth 32
    | none => 0
  | .other => 0

/-- The fault code of a word that is no command (60_exceptions.md R310, steps 1 and 2). -/
def decodeFault : DecodeError → ErrCode
  | .illegal => .illegal
  | .reserved => .reserved

/-- The execution of the command word `CMD_HI : CMD_LO` (10_state.md R23, 30_encoding.md R80). -/
def runCommand (s : State) : Result :=
  match decode (s.cmdHi ++ s.cmdLo) with
  | .ok i => exec i s
  | .error x => .next (s.takeFault (decodeFault x))

/-- A host write: CMD_LO is set, CMD_HI is set and executes, a DMEM byte is set; any other write has no effect
(10_state.md R23; 20_memory.md R66 to R68). -/
def hostWrite (s : State) (off : BitVec 16) (width : HostWidth) (v : Word) : Result :=
  match width with
  | .word =>
    if off = 0x0000#16 then .next { s with cmdLo := v }
    else if off = 0x0004#16 then runCommand { s with cmdHi := v }
    else .next s
  | .byte =>
    match dmemIndex s.par off.toNat with
    | some a => .next { s with dmem := s.dmem.setByte a (v.setWidth 8) }
    | none => .next s
  | .other => .next s

/-- Reset as an event between commands (70_reset_and_hazards.md R340): the state after reset, with the parameters kept,
DMEM drawn afresh, and the model's own fields as log entry 13 says. -/
def State.takeReset (s : State) : State :=
  State.afterReset s.cfg (s.dmem.epoch + 1) s.pending s.hostData

/-- One host event. -/
def hostEvent (s : State) : HostEvent → Result
  | .write off width v => hostWrite s off width v
  | .read off width => .next { s with hostData := hostRead s off width }
  | .reset => .next s.takeReset

/-- The host's next event, taken off `pending`; with none the machine is idle and keeps all state (60_exceptions.md
R321). -/
def hostStep (s : State) : Result :=
  match s.pending with
  | [] => .next s
  | e :: r => hostEvent { s with pending := r } e

/-- The command word `w` about to be executed: its low half in CMD_LO and the write of its high half to CMD_HI next
(10_state.md R23; log entry 4). -/
def State.aboutToRun (s : State) (w : Command) : State :=
  { s with
    cmdLo := w.extractLsb' 0 32
    pending := .write 0x0004#16 .word (w.extractLsb' 32 32) :: s.pending }

end Sys2Proof.Machine
end

