-- ==== Sys2Proof/Machine/Step.lean ====
section
/-! DEFINITION. One step of the machine: the host's next event. -/

namespace Sys2Proof.Machine

/-- One step: the host's next event, or idleness (20_memory.md R76, 60_exceptions.md R321; log entry 4). -/
def step (s : State) : Host.Outcome State Fault Refusal :=
  hostStep s

/-- `s` with the command whose bits are `w` (the bits above `nbits` zero) about to be executed: CMD_LO holds its low half
and the host's next event writes its high half to CMD_HI (log entry 4). -/
def State.withFetchWord (s : State) (nbits w : Nat) : State :=
  s.aboutToRun (BitVec.ofNat 64 (w % 2 ^ nbits))

end Sys2Proof.Machine
end

