-- ==== Sys2Proof/Safety.lean ====
section
/-! DEFINITION. The terms claims are stated in: what a command keeps, what a store changes, and the invariants of the
machine. -/

namespace Sys2Proof.Machine

/-! ## Frames -/

/-- The machine keeps its parameters, its command registers and the model's own fields: what no command writes
(10_state.md R23, R46). -/
structure State.KeepsPort (s t : State) : Prop where
  cfg : t.cfg = s.cfg
  cmdLo : t.cmdLo = s.cmdLo
  cmdHi : t.cmdHi = s.cmdHi
  pending : t.pending = s.pending
  hostData : t.hostData = s.hostData

/-- DMEM after `bits` were stored at bit address `a`: they read back, every other bit reads as before, and so does every
byte that holds none of the stored bits. -/
structure Stored (m m' : Memory) (a : Nat) (bits : Bits) : Prop where
  reads : m'.readBits a bits.length = bits
  otherBits : ∀ b, b < a ∨ a + bits.length ≤ b → m'.bit b = m.bit b
  otherBytes : ∀ k, 8 * k + 8 ≤ a ∨ a + bits.length ≤ 8 * k → m'.byte k = m.byte k

/-- A codec command that did not fault went from `s` to `t` with these results, having stored `bits` at `a`: it changed
no session register and not FAULT (20_memory.md R72). -/
structure CodecDone (s t : State) (a : Nat) (bits : Bits) (st : Status) (res res2 : Word) : Prop where
  status : t.status = st
  res : t.res = res
  res2 : t.res2 = res2
  stored : Stored s.dmem t.dmem a bits
  session : t.session = s.session
  fault : t.fault = s.fault
  port : s.KeepsPort t

/-- The same for a command that stores nothing: DMEM is unchanged. -/
structure ReadOnlyDone (s t : State) (st : Status) (res res2 : Word) : Prop where
  status : t.status = st
  res : t.res = res
  res2 : t.res2 = res2
  dmem : t.dmem = s.dmem
  session : t.session = s.session
  fault : t.fault = s.fault
  port : s.KeepsPort t

/-- A session command went from `s` to `t` leaving the session `se`, with DMEM and FAULT unchanged. -/
structure SessionDone (s t : State) (se : Session) (st : Status) (res res2 : Word) : Prop where
  status : t.status = st
  res : t.res = res
  res2 : t.res2 = res2
  dmem : t.dmem = s.dmem
  session : t.session = se
  fault : t.fault = s.fault
  port : s.KeepsPort t

/-- DMEM after a command that worked on two regions, `[a, a + n)` and `[b, b + k)`: every bit outside both reads as before,
and so does every byte that touches neither. -/
structure KeptOutside (m m' : Memory) (a n b k : Nat) : Prop where
  bits : ∀ x, (x < a ∨ a + n ≤ x) → (x < b ∨ b + k ≤ x) → m'.bit x = m.bit x
  bytes : ∀ x, (8 * x + 8 ≤ a ∨ a + n ≤ 8 * x) → (8 * x + 8 ≤ b ∨ b + k ≤ 8 * x) → m'.byte x = m.byte x

/-- A frame command went from `s` to `t` leaving the session `se` and the memory `m`, which agrees with the old one
outside the wire frame `[w, w + n)` and the field block `[f, f + k)`; FAULT is unchanged. -/
structure FrameDone (s t : State) (m : Memory) (w n f k : Nat) (se : Session) (st : Status) (res res2 : Word) : Prop where
  status : t.status = st
  res : t.res = res
  res2 : t.res2 = res2
  dmem : t.dmem = m
  kept : KeptOutside s.dmem t.dmem w n f k
  session : t.session = se
  fault : t.fault = s.fault
  port : s.KeepsPort t

/-- The state with DMEM bit address `b` inverted: what a bit error, or a host write of one byte, does. -/
def State.flipBit (s : State) (b : Nat) : State :=
  { s with dmem := s.dmem.setBit b (!s.dmem.bit b) }

/-- The codes of faults (60_exceptions.md R300, R301). -/
def ErrCode.isFault : ErrCode → Bool
  | .illegal | .reserved | .badSel | .badLen | .range => true
  | _ => false

/-! ## Vocabulary of the claims -/

/-- The unassigned opcodes (30_encoding.md R90). -/
def Unassigned (o : Nat) : Prop :=
  o = 0x00 ∨ (0x04 ≤ o ∧ o ≤ 0x0F) ∨ (0x16 ≤ o ∧ o ≤ 0x1F) ∨ (0x2A ≤ o ∧ o ≤ 0x2F) ∨ (0x32 ≤ o ∧ o ≤ 0x3F)
    ∨ (0x42 ≤ o ∧ o ≤ 0x4F) ∨ (0x53 ≤ o ∧ o ≤ 0x5F) ∨ (0x64 ≤ o ∧ o ≤ 0x6F) ∨ (0x78 ≤ o ∧ o ≤ 0xFF)

/-- What a 32-bit read of each register of 10_state.md R50 returns, by offset. -/
def registerMap (s : State) : List (BitVec 16 × Word) :=
  [ (0x0000, 0), (0x0004, 0), (0x0008, s.status.toWord), (0x000C, s.res), (0x0010, s.res2),
    (0x0014, s.fault.toWord), (0x0020, s.session.link.toWord), (0x0024, s.session.call.toWord),
    (0x0028, s.session.backendWord), (0x002C, s.session.activeSid), (0x0030, s.session.srcId),
    (0x0034, s.session.dstId), (0x0038, s.session.frameCnt), (0x003C, s.session.wdogCnt.setWidth 32),
    (0x0040, s.session.linkWdog.setWidth 32), (0x0044, s.session.kaCnt.setWidth 32),
    (0x0048, s.session.txStateWord), (0x004C, s.session.txSid), (0x0050, s.session.txSeq),
    (0x0054, s.session.fragPresent.setWidth 32), (0x0058, s.session.cfgSrcId), (0x005C, s.session.cfgDstId),
    (0x0060, s.session.cfgCallHi), (0x0064, s.session.cfgCallLo) ]

/-- A host access the map of 10_state.md R50 lists: a 32-bit access of a register, or a byte access of DMEM. -/
def Mapped (s : State) (width : HostWidth) (off : BitVec 16) : Prop :=
  (width = .word ∧ off ∈ (registerMap s).map Prod.fst)
    ∨ (width = .byte ∧ 0x8000 ≤ off.toNat ∧ off.toNat < 0x8000 + s.par.dmemBytes)

/-- The commands of the codec families (40_control.md to 45_interleave_scramble.md; 20_memory.md R72). -/
def isCodec : Instr → Bool
  | .nop | .movb .. | .fill .. | .crc16 .. | .crc16a .. | .crc16v .. | .crcs .. | .crcsa .. | .crcsv .. | .gol24e ..
  | .gol24d .. | .gol23e .. | .gol23d .. | .h1511e .. | .h1511d .. | .h1611e .. | .h1611d .. | .h139e .. | .h139d ..
  | .bptce .. | .bptcd .. | .conve .. | .vitd .. | .ilv .. | .dilv .. | .scr .. => true
  | .frdec .. | .frenc .. | .envp .. | .envu .. | .scon .. | .slnk .. | .sdis | .srxf .. | .srxt .. | .stxs .. | .stxe
  | .stxt .. => false

/-- The codes a well-formed command can report besides NONE (60_exceptions.md R303). -/
def reportedCodes : Instr → List ErrCode
  | .nop => []
  | .movb .. | .fill .. => [.badLen, .range]
  | .crc16 .. | .crc16a .. => [.badSel, .badLen, .range]
  | .crc16v .. => [.badSel, .badLen, .range, .crcMismatch]
  | .crcs .. | .crcsa .. => [.badLen, .range]
  | .crcsv .. => [.badLen, .range, .crcMismatch]
  | .gol24e .. | .gol23e .. | .gol23d .. | .h1511e .. | .h1511d .. | .h1611e .. | .h139e .. => [.range]
  | .gol24d .. | .h1611d .. | .h139d .. => [.range, .fecUncorr]
  | .bptce .. => [.range]
  | .bptcd .. => [.range, .fecUncorr]
  | .conve .. | .vitd .. => [.badLen, .range]
  | .ilv .. | .dilv .. | .scr .. => [.badSel, .badLen, .range]
  | .frdec .. => [.badSel, .badLen, .range, .framing, .fecUncorr, .crcMismatch]
  | .frenc .. => [.badSel, .range]
  | .envp .. => [.badLen, .range]
  | .envu .. => [.badLen, .range, .framing]
  | .scon .. => [.badSel, .range, .fatalLock, .badState, .config]
  | .slnk .. => [.badState, .authFail]
  | .sdis => []
  | .srxf .. => [.badLen, .range, .badState, .framing, .fecUncorr, .crcMismatch]
  | .srxt .. => [.badState, .linkTimeout, .sessionTimeout]
  | .stxs .. | .stxe => [.badState]
  | .stxt .. => [.range, .badState]

/-- The syncs and the length of a kind are those of the frame of `n` bits at `w` (46_frame.md R219, R220). -/
def Qualifies (m : Memory) (w n : Nat) (k : FrameKind) : Prop :=
  k.lenBits = n ∧ ∀ y ∈ k.syncs, (m.readBits (w + y.off) y.n).toNat = y.pattern

/-- SRXF with these operands passes its checks in CONNECTED, with descriptor `d` (47_session.md R260). -/
structure SrxfReady (s : State) (w n f : Nat) (d : Descriptor) : Prop where
  link : s.session.link = .connected
  backend : s.backend = some d
  len : 1 ≤ n
  wire : w + n ≤ s.par.dmemBits
  field : f + d.fieldBits ≤ s.par.dmemBits
  apart : overlaps w n f d.fieldBits = false

/-- A state-valid frame is parsed as `y`: its kind is found and no CONTROL and no VOICE step failed (47_session.md R260). -/
structure StateValid (s : State) (w n f : Nat) (d : Descriptor) (y : Parsed) : Prop where
  parsed : parseFrame s.par d s.dmem w n f = some y
  control : y.prog.ctl = .none
  voice : y.prog.voice = .none

/-- A field of the field block at `f`, zero-extended into a register; 0 where the kind has none (47_session.md R263). -/
def frameReg (m : Memory) (f : Nat) (o : Option Field) : Word :=
  match o with
  | none => 0
  | some x => BitVec.ofNat 32 (m.readBits (f + x.off) x.width).toNat

/-- `same` of 47_session.md R261, written out: the kind has no `f_sid`, or its bits, zero-extended, are ACTIVE_SID. -/
def frameSame (m : Memory) (f : Nat) (k : FrameKind) (se : Session) : Bool :=
  match k.fSid with
  | none => true
  | some x => BitVec.ofNat 32 (m.readBits (f + x.off) x.width).toNat == se.activeSid

/-- `e` of 47_session.md R261, written out: class TERMINATOR, or the kind has `f_eot` and its bit is 1. -/
def frameEnds (m : Memory) (f : Nat) (k : FrameKind) : Bool :=
  k.cls == .terminator
    || match k.fEot with
      | none => false
      | some x => (m.readBits (f + x.off) x.width).toNat == 1

/-- `start` of 47_session.md R261, written out: class HEADER or VOICE, and not `e`. -/
def frameStarts (m : Memory) (f : Nat) (k : FrameKind) : Bool :=
  (k.cls == .header || k.cls == .voice) && !frameEnds m f k

/-- CALL_STATE is NEW or STREAMING. -/
def Session.inCall (se : Session) : Bool :=
  se.call == .new || se.call == .streaming

/-- A frame of kind `k` makes the call enter NEW: the rows of 47_session.md R262 that do. -/
def entersNew (m : Memory) (f : Nat) (k : FrameKind) (se : Session) : Bool :=
  match se.call with
  | .idle | .lost => frameStarts m f k
  | .new | .streaming => !frameSame m f k se
  | .ended => !frameSame m f k se && frameStarts m f k

/-- A frame of kind `k` belongs to the call that is NEW or STREAMING (47_session.md R262). -/
def continuesCall (m : Memory) (f : Nat) (k : FrameKind) (se : Session) : Bool :=
  se.inCall && frameSame m f k se

/-- A frame of kind `k` makes the call enter END (47_session.md R262). -/
def endsNow (m : Memory) (f : Nat) (k : FrameKind) (se : Session) : Bool :=
  se.inCall && frameEnds m f k

/-! ### Codes written out from their rules -/

/-- The multiple `q(x) * g(x)` of a generator, for a `q` of 12 bits: the XOR of the shifts of `g` that `q` names
(42_block_codes.md R140). -/
def polyMultiple (g q : Nat) : Nat :=
  (List.range 12).foldl (fun x i => if q.testBit i then x ^^^ (g <<< i) else x) 0

/-- The output bit of a tap mask at step `t` of the input `v`: tap bit `4 - j` takes the input `j` steps back, 0 before
the first (44_convolutional.md R185, R186). -/
def tapOutput (g : BitVec 5) (v : Bits) (t : Nat) : Bool :=
  (List.range 5).foldl (fun b j => b ^^ (g.getLsbD (4 - j) && decide (j ≤ t) && v.get (t - j))) false

/-- The deinterleaved block `m` of a block `raw`, `m[a] = raw[(a * 181) mod 196]` (43_bptc.md R171). -/
def bptcBlock (raw : Bits) : Bits :=
  (List.range 196).map fun a => raw.get (a * 181 % 196)

/-- The index in `m` of payload bit `i`: the table of 43_bptc.md R174, `m[4..11]` and then eleven bits of every fifteen
from `m[16]` on. -/
def bptcPayloadIndex (i : Nat) : Nat :=
  if i < 8 then 4 + i else 16 + 15 * ((i - 8) / 11) + (i - 8) % 11

/-- The syndrome of column `c` of a deinterleaved block, `M(r, c) = m[1 + 15*r + c]` (43_bptc.md R172). -/
def bptcColumnError (p : Params) (m : Bits) (c : Nat) : Nat :=
  hamSyndrome p.ham13Eq 9 ((List.range 13).map fun r => m.get (1 + 15 * r + c))

/-- The syndrome of row `r` of a deinterleaved block (43_bptc.md R172). -/
def bptcRowError (p : Params) (m : Bits) (r : Nat) : Nat :=
  hamSyndrome p.ham15Eq 11 ((List.range 15).map fun c => m.get (1 + 15 * r + c))

/-- STXT with these operands passes its checks in CONNECTED, with descriptor `d` (47_session.md R277). -/
structure StxtReady (s : State) (w f : Nat) (d : Descriptor) : Prop where
  link : s.session.link = .connected
  backend : s.backend = some d
  wire : w + s.txBits ≤ s.par.dmemBits
  field : f + d.fieldBits ≤ s.par.dmemBits
  apart : overlaps w s.txBits f d.fieldBits = false

/-! ## Invariants -/

/-- DMEM lists its bytes in the canonical form, and lists only bytes it has (10_state.md R21). -/
structure MemoryInv (s : State) : Prop where
  rising : s.dmem.wf
  inside : ∀ c ∈ s.dmem.cells, c.1 < s.par.dmemBytes

/-- FRAG_BUF keeps its size (10_state.md R45). -/
def FragInv (s : State) : Prop :=
  s.session.fragBuf.length = s.par.reasmMax

/-- While the link is DISCONNECTED every session register, FRAG_BUF and BACKEND are 0 (47_session.md R255). -/
def DisconnectedInv (s : State) : Prop :=
  s.session.link = .disconnected → s.session = Session.cleared s.par.reasmMax

/-- CALL_STATE is IDLE in every link state but CONNECTED (10_state.md R31). -/
def CallInv (s : State) : Prop :=
  s.session.link ≠ .connected → s.session.call = .idle

/-- The call-scoped registers are 0 while the call is IDLE (10_state.md R44, 47_session.md R274). -/
def CallScopeInv (s : State) : Prop :=
  s.session.call = .idle →
    s.session.activeSid = 0 ∧ s.session.srcId = 0 ∧ s.session.dstId = 0 ∧ s.session.frameCnt = 0
      ∧ s.session.fragPresent = 0 ∧ s.session.fragBuf = Bits.zeros s.par.reasmMax

/-- While the link is not DISCONNECTED the selected slot holds a descriptor (47_session.md R251, 10_state.md R46). -/
def BackendInv (s : State) : Prop :=
  s.session.link ≠ .disconnected → s.backend.isSome

/-- The outbound machine runs only in CONNECTED and with transmit kinds, and STOP_REQ is set only before the header
(47_session.md R275 to R277). -/
structure TransmitInv (s : State) : Prop where
  connected : s.session.txs ≠ .idle → s.session.link = .connected
  kinds : s.session.txs ≠ .idle → ∃ d, s.backend = some d ∧ d.tx.isSome
  stop : s.session.stopReq = true → s.session.txs = .header

/-- The counters stay below their limits: an active call's reception watchdog, the link watchdog, the keepalive count
(47_session.md R272, R273, R281). -/
structure CounterInv (s : State) : Prop where
  wdog : ∀ d, s.backend = some d → s.session.call.active = true → s.session.wdogCnt.toNat < d.wdogLimit
  link : ∀ d, s.backend = some d → 0 < d.linkTimeout → s.session.linkWdog.toNat < d.linkTimeout
  keepalive : ∀ d, s.backend = some d → s.session.kaCnt.toNat ≤ d.kaInterval - 1

/-- FAULT is consistent: with no fault recorded FIRST and COUNT are 0, and with one FIRST is a fault code and COUNT is
not 0 (10_state.md R28, 60_exceptions.md R301). -/
structure FaultInv (s : State) : Prop where
  clear : s.fault.faulted = false → s.fault.first = .none ∧ s.fault.count = 0
  set : s.fault.faulted = true → s.fault.first.isFault = true ∧ s.fault.count ≠ 0

/-- A safe state: every invariant holds. -/
structure Safe (s : State) : Prop where
  memory : MemoryInv s
  frag : FragInv s
  disconnected : DisconnectedInv s
  call : CallInv s
  callScope : CallScopeInv s
  backend : BackendInv s
  transmit : TransmitInv s
  counters : CounterInv s
  fault : FaultInv s

end Sys2Proof.Machine
end

