-- ==== Sys2Proof/Certificates/Slice0/Obligations.lean ====
section
/-! DEFINITION. The statements for the provers, family by family: encoding, host port, faults, the codecs, frames and
the envelope, the session, and the rules of the whole machine. -/

open Sys2Proof Sys2Proof.Machine

/-! ## Encoding -/

/-- Every well-formed command is what its encoding decodes to (30_encoding.md R81, R82, R87). -/
def Obligations.DecodeOfEncode : Prop :=
  ∀ i : Instr, i.wf = true → decode (encode i) = .ok i

/-- A word that decodes is the encoding of the well-formed command it decodes to, so no bit of it is ignored
(30_encoding.md R84). -/
def Obligations.EncodeOfDecode : Prop :=
  ∀ (w : Command) (i : Instr), decode w = .ok i → i.wf = true ∧ encode i = w

/-- The words that raise ILLEGAL are those with an unassigned opcode (30_encoding.md R90). -/
def Obligations.IllegalExactlyOnUnassignedOpcodes : Prop :=
  ∀ s : State,
    (Unassigned (s.cmdHi.extractLsb' 24 8).toNat → runCommand s = .next (s.takeFault .illegal))
    ∧ (¬ Unassigned (s.cmdHi.extractLsb' 24 8).toNat → decode (s.cmdHi ++ s.cmdLo) ≠ .error .illegal)

/-- A word with an assigned opcode either is the encoding of a well-formed command, which then executes, or has a nonzero
reserved field or an illegal VAR and raises RESERVED (30_encoding.md R84). -/
def Obligations.ReservedFieldsRaiseReserved : Prop :=
  ∀ s : State, ¬ Unassigned (s.cmdHi.extractLsb' 24 8).toNat →
    (∃ i : Instr, i.wf = true ∧ encode i = s.cmdHi ++ s.cmdLo ∧ runCommand s = exec i s)
    ∨ ((∀ i : Instr, i.wf = true → encode i ≠ s.cmdHi ++ s.cmdLo) ∧ runCommand s = .next (s.takeFault .reserved))

/-- Some words written out from the table of 30_encoding.md R87, among them the example of R94. -/
def Obligations.SampleWordsDecode : Prop :=
  decode 0x111F000500000000#64 = .ok (.crc16a 1 15 5 0)
  ∧ decode 0x0100000000000000#64 = .ok .nop
  ∧ decode 0x0200000400_0C0000#64 = .ok (.movb 4 12 0)
  ∧ decode 0x2000000000400008#64 = .ok (.gol24e 0x40 8)
  ∧ decode 0x6210000200400008#64 = .ok (.envp 0x10 2 0x40 8)
  ∧ decode 0x750000001234ABCD#64 = .ok (.stxs 0x1234ABCD)
  ∧ decode 0x7710000001000200#64 = .ok (.stxt 1 0x100 0x200)
  ∧ decode 0#64 = .error .illegal
  ∧ decode 0x0100000000000001#64 = .error .reserved

/-! ## The host port -/

/-- A write of CMD_HI executes the command that CMD_HI and CMD_LO hold, or takes the fault of a word that is none; with
nothing to do the machine keeps its state (10_state.md R23, 30_encoding.md R80, 60_exceptions.md R310, R321). -/
def Obligations.StepRunsTheDecodedCommand : Prop :=
  ∀ s : State,
    (∀ (r : List HostEvent) (v : Word) (i : Instr), s.pending = .write 0x0004#16 .word v :: r →
      decode (v ++ s.cmdLo) = .ok i → step s = exec i { s with cmdHi := v, pending := r })
    ∧ (∀ (r : List HostEvent) (v : Word), s.pending = .write 0x0004#16 .word v :: r →
      decode (v ++ s.cmdLo) = .error .illegal →
      step s = .next (State.takeFault .illegal { s with cmdHi := v, pending := r }))
    ∧ (∀ (r : List HostEvent) (v : Word), s.pending = .write 0x0004#16 .word v :: r →
      decode (v ++ s.cmdLo) = .error .reserved →
      step s = .next (State.takeFault .reserved { s with cmdHi := v, pending := r }))
    ∧ (s.pending = [] → step s = .next s)

/-- What reset sets, and that it is the only event that clears FAULT (70_reset_and_hazards.md R340). DMEM holds no known
value after it, and the parameters, the configuration ROM among them, are unchanged. -/
def Obligations.ResetClearsEverythingAndAloneClearsFault : Prop :=
  ∀ s t : State, step s = .next t →
    (∀ r : List HostEvent, s.pending = .reset :: r →
      t.cmdLo = 0 ∧ t.cmdHi = 0 ∧ t.status.toWord = 0 ∧ t.res = 0 ∧ t.res2 = 0 ∧ t.fault.toWord = 0
      ∧ t.session.link = .disconnected ∧ t.session.call = .idle ∧ t.session.backendWord = 0
      ∧ t.session.activeSid = 0 ∧ t.session.srcId = 0 ∧ t.session.dstId = 0 ∧ t.session.frameCnt = 0
      ∧ t.session.wdogCnt = 0 ∧ t.session.linkWdog = 0 ∧ t.session.kaCnt = 0
      ∧ t.session.txStateWord = 0 ∧ t.session.txSid = 0 ∧ t.session.txSeq = 0
      ∧ t.session.fragPresent = 0 ∧ t.session.fragBuf = List.replicate s.par.reasmMax false
      ∧ t.session.cfgSrcId = 0 ∧ t.session.cfgDstId = 0 ∧ t.session.cfgCallHi = 0 ∧ t.session.cfgCallLo = 0
      ∧ t.dmem.cells = [] ∧ t.cfg = s.cfg)
    ∧ ((∀ r : List HostEvent, s.pending ≠ .reset :: r) →
      (s.fault.faulted = true → t.fault.faulted = true ∧ t.fault.first = s.fault.first)
      ∧ (s.fault.fatal = true → t.fault.fatal = true)
      ∧ s.fault.count.toNat ≤ t.fault.count.toNat)

/-- The state after reset satisfies every invariant, the one of 47_session.md R255 among them (70_reset_and_hazards.md
R342). -/
def Obligations.ResetStateIsSafe : Prop :=
  Safe State.reset

/-- No access has a side effect but a write of CMD_HI (20_memory.md R71): a read changes only the value returned, any
other write changes at most CMD_LO or DMEM, and reading a place twice returns the same value. -/
def Obligations.OnlyCmdHiHasASideEffect : Prop :=
  ∀ (s : State) (r : List HostEvent) (off : BitVec 16) (width : HostWidth),
    (s.pending = .read off width :: r →
      step s = .next { s with pending := r, hostData := hostRead s off width })
    ∧ (∀ v : Word, s.pending = .write off width v :: r → ¬ (width = .word ∧ off = 0x0004#16) →
      ∃ t : State, step s = .next t ∧ t = { s with pending := r, cmdLo := t.cmdLo, dmem := t.dmem }
        ∧ (t.cmdLo ≠ s.cmdLo → width = .word ∧ off = 0x0000#16)
        ∧ (t.dmem ≠ s.dmem → width = .byte ∧ 0x8000 ≤ off.toNat))
    ∧ (s.pending = .read off width :: .read off width :: r →
      ∃ t u : State, step s = .next t ∧ step t = .next u ∧ u.hostData = t.hostData)

/-- The host reads and writes DMEM byte by byte (20_memory.md R66). -/
def Obligations.HostDmemBytes : Prop :=
  ∀ (s : State) (r : List HostEvent) (k : Nat), k < s.par.dmemBytes →
    (s.pending = .read (BitVec.ofNat 16 (0x8000 + k)) .byte :: r →
      step s = .next { s with pending := r, hostData := (s.dmem.byte k).setWidth 32 })
    ∧ (∀ v : Word, s.pending = .write (BitVec.ofNat 16 (0x8000 + k)) .byte v :: r →
      ∃ t : State, step s = .next t ∧ t.dmem.byte k = v.setWidth 8
        ∧ (∀ j : Nat, j ≠ k → t.dmem.byte j = s.dmem.byte j)
        ∧ t = { s with pending := r, dmem := t.dmem })
    ∧ (∀ width : HostWidth, width ≠ .byte →
      (s.pending = .read (BitVec.ofNat 16 (0x8000 + k)) width :: r →
        step s = .next { s with pending := r, hostData := 0 })
      ∧ (∀ v : Word, s.pending = .write (BitVec.ofNat 16 (0x8000 + k)) width v :: r →
        step s = .next { s with pending := r }))

/-- A 32-bit read of a register returns it, the command registers read 0, a write to a read-only register has no effect,
a write of CMD_LO sets it (20_memory.md R67, 10_state.md R23, R50); an unmapped access has no effect, returns 0 and sets
no fault (20_memory.md R68). -/
def Obligations.RegisterMapAndUnmappedAccesses : Prop :=
  ∀ (s : State) (r : List HostEvent),
    (∀ (off : BitVec 16) (x : Word), (off, x) ∈ registerMap s → s.pending = .read off .word :: r →
      step s = .next { s with pending := r, hostData := x })
    ∧ (∀ (off : BitVec 16) (x v : Word), (off, x) ∈ registerMap s → off ≠ 0x0000#16 → off ≠ 0x0004#16 →
      s.pending = .write off .word v :: r → step s = .next { s with pending := r })
    ∧ (∀ v : Word, s.pending = .write 0x0000#16 .word v :: r → step s = .next { s with pending := r, cmdLo := v })
    ∧ (∀ (off : BitVec 16) (width : HostWidth), ¬ Mapped s width off → s.pending = .read off width :: r →
      step s = .next { s with pending := r, hostData := 0 })
    ∧ (∀ (off : BitVec 16) (width : HostWidth) (v : Word), ¬ Mapped s width off → s.pending = .write off width v :: r →
      step s = .next { s with pending := r })

/-- The bits of STATUS, FAULT, BACKEND and TX_STATE (10_state.md R24, R28, R32, R39), and the codes of ERR, LINK_STATE,
CALL_STATE and TXS (60_exceptions.md R300; 10_state.md R30, R31, R39) and of the frame classes (46_frame.md R217). -/
def Obligations.RegisterLayouts : Prop :=
  (∀ st : Status,
    st.toWord.extractLsb' 0 4 = st.err.code ∧ st.toWord.getLsbD 4 = st.valid ∧ st.toWord.getLsbD 5 = st.vfail
    ∧ st.toWord.getLsbD 6 = st.payload ∧ st.toWord.getLsbD 7 = st.msgrdy ∧ st.toWord.extractLsb' 8 8 = st.corr
    ∧ st.toWord.getLsbD 16 = st.newcall ∧ st.toWord.getLsbD 17 = st.endcall ∧ st.toWord.getLsbD 18 = st.lostcall
    ∧ st.toWord.getLsbD 19 = st.kadue ∧ st.toWord.getLsbD 20 = st.txframe ∧ st.toWord.extractLsb' 21 11 = 0)
  ∧ (∀ x : FaultReg,
    x.toWord.getLsbD 0 = x.faulted ∧ x.toWord.extractLsb' 1 3 = 0 ∧ x.toWord.extractLsb' 4 4 = x.first.code
    ∧ x.toWord.getLsbD 8 = x.fatal ∧ x.toWord.extractLsb' 9 7 = 0 ∧ x.toWord.extractLsb' 16 16 = x.count)
  ∧ (∀ se : Session,
    se.backendWord.extractLsb' 0 4 = se.backendSlot ∧ se.backendWord.getLsbD 4 = se.backendValid
    ∧ se.backendWord.extractLsb' 5 27 = 0 ∧ se.txStateWord.extractLsb' 0 2 = se.txs.code
    ∧ se.txStateWord.extractLsb' 2 6 = 0 ∧ se.txStateWord.getLsbD 8 = se.stopReq
    ∧ se.txStateWord.extractLsb' 9 23 = 0)
  ∧ [ErrCode.none, .illegal, .reserved, .badSel, .badLen, .range, .badState, .framing, .fecUncorr, .crcMismatch,
      .sessionTimeout, .authFail, .config, .linkTimeout, .fatalLock].map (fun x => x.code.toNat) = List.range 15
  ∧ [LinkState.disconnected, .connecting, .auth, .connected].map (fun x => x.toWord.toNat) = List.range 4
  ∧ [CallState.idle, .new, .streaming, .ended, .lost].map (fun x => x.toWord.toNat) = List.range 5
  ∧ [TxPhase.idle, .header, .stream, .ending].map (fun x => x.code.toNat) = List.range 4
  ∧ [FrameClass.header, .voice, .fragment, .terminator].map (fun x => (classCode x).toNat) = List.range 4

/-! ## Faults -/

/-- A command word that faults changes STATUS and FAULT only, as 60_exceptions.md R301 says, and whether it faults, and
with which code, depends on the word, the configuration ROM and BACKEND alone, never on DMEM. -/
def Obligations.FaultsArePreciseAndIgnoreData : Prop :=
  ∀ s t : State, runCommand s = .next t → t.status.err.isFault = true →
    t.status = { err := t.status.err }
    ∧ t.fault.first = (if s.fault.faulted then s.fault.first else t.status.err)
    ∧ t.fault.faulted = true
    ∧ t.fault.count.toNat = min (s.fault.count.toNat + 1) 0xFFFF
    ∧ t = { s with
        status := t.status
        fault := { t.fault with fatal := s.fault.fatal } }
    ∧ ∀ s' t' : State, s'.cmdHi = s.cmdHi → s'.cmdLo = s.cmdLo → s'.cfg = s.cfg →
        s'.session.backendValid = s.session.backendValid → s'.session.backendSlot = s.session.backendSlot →
        runCommand s' = .next t' → t'.status.err = t.status.err

/-- Every command completes, in every state, and leaves the parameters, CMD_LO and CMD_HI alone: no outcome stops the
machine (60_exceptions.md R302, R314; 70_reset_and_hazards.md R351; 10_state.md R23, R46). -/
def Obligations.EveryCommandCompletes : Prop :=
  ∀ (i : Instr) (s : State), ∃ t : State, exec i s = .next t ∧ s.KeepsPort t

/-- The codes a command can report are those of the table of 60_exceptions.md R303. -/
def Obligations.CommandsReportOnlyTheirCodes : Prop :=
  ∀ (i : Instr) (s t : State), i.wf = true → exec i s = .next t →
    t.status.err = .none ∨ t.status.err ∈ reportedCodes i

/-- An empty slot, or a table or kind index at or beyond its count, raises BAD_SEL (30_encoding.md R85). -/
def Obligations.EmptySlotOrBadIndexIsBadSel : Prop :=
  ∀ (s : State) (var sel : BitVec 4) (len dst src : BitVec 16),
    (s.par.slot sel = none →
      (var.toNat ≤ 1 →
        exec (.crc16 var sel len src) s = .next (s.takeFault .badSel)
        ∧ exec (.crc16a var sel len src) s = .next (s.takeFault .badSel)
        ∧ exec (.crc16v var sel len src) s = .next (s.takeFault .badSel)
        ∧ exec (.scon var sel src) s = .next (s.takeFault .badSel))
      ∧ exec (.ilv var sel len dst src) s = .next (s.takeFault .badSel)
      ∧ exec (.dilv var sel len dst src) s = .next (s.takeFault .badSel)
      ∧ exec (.scr var sel len dst src) s = .next (s.takeFault .badSel)
      ∧ exec (.frdec sel len dst src) s = .next (s.takeFault .badSel)
      ∧ exec (.frenc var sel dst src) s = .next (s.takeFault .badSel))
    ∧ (∀ d : Descriptor, s.par.slot sel = some d →
      (d.ilv.length ≤ var.toNat →
        exec (.ilv var sel len dst src) s = .next (s.takeFault .badSel)
        ∧ exec (.dilv var sel len dst src) s = .next (s.takeFault .badSel))
      ∧ (d.whiten.length ≤ var.toNat → exec (.scr var sel len dst src) s = .next (s.takeFault .badSel))
      ∧ (d.kinds.length ≤ var.toNat → exec (.frenc var sel dst src) s = .next (s.takeFault .badSel)))

/-- A LEN outside the legal range of 30_encoding.md R87 raises BAD_LEN (R86). -/
def Obligations.LengthsOutsideTheTableAreBadLen : Prop :=
  ∀ (s : State) (var sel : BitVec 4) (ty : BitVec 8) (len dst src : BitVec 16) (d : Descriptor),
    (len = 0 →
      exec (.movb len dst src) s = .next (s.takeFault .badLen)
      ∧ (var.toNat ≤ 1 → exec (.fill var len dst) s = .next (s.takeFault .badLen))
      ∧ (var.toNat ≤ 2 → exec (.crcs var len src) s = .next (s.takeFault .badLen))
      ∧ exec (.srxf len dst src) s = .next (s.takeFault .badLen))
    ∧ (var.toNat ≤ 2 → len.toNat < [6, 7, 9].getD var.toNat 0 →
      exec (.crcsa var len src) s = .next (s.takeFault .badLen)
      ∧ exec (.crcsv var len src) s = .next (s.takeFault .badLen))
    ∧ ((len.toNat % 2 = 1 ∨ len.toNat = 0 ∨ 2 * s.par.vitMax < len.toNat) →
      exec (.conve len dst src) s = .next (s.takeFault .badLen))
    ∧ ((len.toNat = 0 ∨ s.par.vitMax < len.toNat) → exec (.vitd len dst src) s = .next (s.takeFault .badLen))
    ∧ (252 < len.toNat → exec (.envp ty len dst src) s = .next (s.takeFault .badLen))
    ∧ (len.toNat < 3 → exec (.envu len dst src) s = .next (s.takeFault .badLen))
    ∧ (s.par.slot sel = some d →
      (var.toNat ≤ 1 → len.toNat = 0 → exec (.crc16 var sel len src) s = .next (s.takeFault .badLen))
      ∧ (var.toNat ≤ 1 → len.toNat < 3 →
        exec (.crc16a var sel len src) s = .next (s.takeFault .badLen)
        ∧ exec (.crc16v var sel len src) s = .next (s.takeFault .badLen))
      ∧ (∀ tab : List Nat, d.ilv[var.toNat]? = some tab → len.toNat ≠ tab.length →
        exec (.ilv var sel len dst src) s = .next (s.takeFault .badLen)
        ∧ exec (.dilv var sel len dst src) s = .next (s.takeFault .badLen))
      ∧ (∀ seq : List Byte, d.whiten[var.toNat]? = some seq → (len.toNat = 0 ∨ 8 * seq.length < len.toNat) →
        exec (.scr var sel len dst src) s = .next (s.takeFault .badLen))
      ∧ (len.toNat = 0 → exec (.frdec sel len dst src) s = .next (s.takeFault .badLen)))

/-- An operand range that leaves DMEM raises RANGE, as do frame regions that overlap (20_memory.md R65, 60_exceptions.md
R310): the commands with fixed ranges, with the numbers of bits at SRC and DST; the codecs whose ranges LEN gives; and
the frame and session commands. -/
def Obligations.RangesOutsideDmemRaiseRange : Prop :=
  ∀ (s : State) (var sel : BitVec 4) (ty : BitVec 8) (len dst src : BitVec 16) (d : Descriptor),
    let out := fun (a n : Nat) => s.par.dmemBits < a + n
    (∀ (i : Instr) (n k : Nat),
      (i, n, k) ∈ [ (Instr.gol24e dst src, 12, 24), (.gol24d dst src, 24, 12), (.gol23e dst src, 12, 23),
        (.gol23d dst src, 23, 12), (.h1511e dst src, 11, 15), (.h1511d dst src, 15, 11), (.h1611e dst src, 11, 16),
        (.h1611d dst src, 16, 11), (.h139e dst src, 9, 13), (.h139d dst src, 13, 9), (.bptce dst src, 96, 196),
        (.bptcd dst src, 196, 96) ] →
      (out src.toNat n ∨ out dst.toNat k) → exec i s = .next (s.takeFault .range))
    ∧ (1 ≤ len.toNat → (out src.toNat len.toNat ∨ out dst.toNat len.toNat) →
      exec (.movb len dst src) s = .next (s.takeFault .range))
    ∧ (var.toNat ≤ 1 → 1 ≤ len.toNat → out dst.toNat len.toNat →
      exec (.fill var len dst) s = .next (s.takeFault .range))
    ∧ (var.toNat ≤ 2 → 1 ≤ len.toNat → out src.toNat len.toNat →
      exec (.crcs var len src) s = .next (s.takeFault .range))
    ∧ (var.toNat ≤ 2 → [6, 7, 9].getD var.toNat 0 ≤ len.toNat → out src.toNat len.toNat →
      exec (.crcsa var len src) s = .next (s.takeFault .range)
      ∧ exec (.crcsv var len src) s = .next (s.takeFault .range))
    ∧ (len.toNat % 2 = 0 → 2 ≤ len.toNat → len.toNat ≤ 2 * s.par.vitMax →
      (out src.toNat (len.toNat / 2) ∨ out dst.toNat len.toNat) →
      exec (.conve len dst src) s = .next (s.takeFault .range))
    ∧ (1 ≤ len.toNat → len.toNat ≤ s.par.vitMax → (out src.toNat (2 * len.toNat) ∨ out dst.toNat len.toNat) →
      exec (.vitd len dst src) s = .next (s.takeFault .range))
    ∧ (len.toNat ≤ 252 → (out src.toNat (8 * len.toNat) ∨ out dst.toNat (8 * (len.toNat + 3))) →
      exec (.envp ty len dst src) s = .next (s.takeFault .range))
    ∧ (3 ≤ len.toNat → (out src.toNat (8 * len.toNat) ∨ out dst.toNat (8 * (len.toNat - 3))) →
      exec (.envu len dst src) s = .next (s.takeFault .range))
    ∧ (s.par.slot sel = some d →
      (var.toNat ≤ 1 → 1 ≤ len.toNat → out src.toNat (8 * len.toNat) →
        exec (.crc16 var sel len src) s = .next (s.takeFault .range))
      ∧ (var.toNat ≤ 1 → 3 ≤ len.toNat → out src.toNat (8 * len.toNat) →
        exec (.crc16a var sel len src) s = .next (s.takeFault .range)
        ∧ exec (.crc16v var sel len src) s = .next (s.takeFault .range))
      ∧ (∀ tab : List Nat, d.ilv[var.toNat]? = some tab → len.toNat = tab.length →
        (out src.toNat len.toNat ∨ out dst.toNat len.toNat) →
        exec (.ilv var sel len dst src) s = .next (s.takeFault .range)
        ∧ exec (.dilv var sel len dst src) s = .next (s.takeFault .range))
      ∧ (∀ seq : List Byte, d.whiten[var.toNat]? = some seq → 1 ≤ len.toNat → len.toNat ≤ 8 * seq.length →
        (out src.toNat len.toNat ∨ out dst.toNat len.toNat) →
        exec (.scr var sel len dst src) s = .next (s.takeFault .range))
      ∧ (1 ≤ len.toNat →
        (out src.toNat len.toNat ∨ out dst.toNat d.fieldBits
          ∨ overlaps src.toNat len.toNat dst.toNat d.fieldBits = true) →
        exec (.frdec sel len dst src) s = .next (s.takeFault .range))
      ∧ (∀ k : FrameKind, d.kinds[var.toNat]? = some k →
        (out dst.toNat k.lenBits ∨ out src.toNat d.fieldBits
          ∨ overlaps dst.toNat k.lenBits src.toNat d.fieldBits = true) →
        exec (.frenc var sel dst src) s = .next (s.takeFault .range))
      ∧ (var.toNat ≤ 1 → out src.toNat 128 → exec (.scon var sel src) s = .next (s.takeFault .range)))
    ∧ (1 ≤ len.toNat →
      (out src.toNat len.toNat ∨ out dst.toNat s.fieldBits
        ∨ overlaps src.toNat len.toNat dst.toNat s.fieldBits = true) →
      exec (.srxf len dst src) s = .next (s.takeFault .range))
    ∧ (var.toNat ≤ 1 →
      (out src.toNat s.fieldBits ∨ out dst.toNat s.txBits
        ∨ overlaps dst.toNat s.txBits src.toNat s.fieldBits = true) →
      exec (.stxt var dst src) s = .next (s.takeFault .range))

/-! ## Control and bit movement -/

/-- NOP writes 0 to STATUS, RES and RES2 and changes nothing else (40_control.md R110). -/
def Obligations.NopClearsTheResults : Prop :=
  ∀ s : State, ∃ t : State, exec .nop s = .next t ∧ ReadOnlyDone s t {} 0 0 ∧ t.status.toWord = 0

/-- MOVB copies the bits at SRC as they were to DST, FILL writes LEN copies of its value at DST; both leave STATUS, RES
and RES2 at 0 (40_control.md R111, R112; 20_memory.md R70). -/
def Obligations.MovbCopiesAndFillSets : Prop :=
  (∀ (s : State) (len dst src : BitVec 16), 1 ≤ len.toNat → src.toNat + len.toNat ≤ s.par.dmemBits →
    dst.toNat + len.toNat ≤ s.par.dmemBits →
    ∃ t : State, exec (.movb len dst src) s = .next t
      ∧ CodecDone s t dst.toNat (s.dmem.readBits src.toNat len.toNat) {} 0 0
      ∧ ∀ k : Nat, k < len.toNat → t.dmem.bit (dst.toNat + k) = s.dmem.bit (src.toNat + k))
  ∧ (∀ (s : State) (var : BitVec 4) (len dst : BitVec 16), var.toNat ≤ 1 → 1 ≤ len.toNat →
    dst.toNat + len.toNat ≤ s.par.dmemBits →
    ∃ t : State, exec (.fill var len dst) s = .next t
      ∧ CodecDone s t dst.toNat (List.replicate len.toNat (var == 1)) {} 0 0)

/-! ## CRC -/

/-- CRC16 puts the CRC in RES, and CRC16V compares the computed CRC (RES) with the stored one (RES2), in the order
`CRC16_APPEND_ORDER`; neither writes DMEM (41_crc.md R120, R121, R124). -/
def Obligations.Crc16ComputesAndVerifies : Prop :=
  ∀ (s : State) (var sel : BitVec 4) (len src : BitVec 16) (d : Descriptor),
    s.par.slot sel = some d → var.toNat ≤ 1 → src.toNat + 8 * len.toNat ≤ s.par.dmemBits →
    (1 ≤ len.toNat → ∃ t : State, exec (.crc16 var sel len src) s = .next t
      ∧ ReadOnlyDone s t { valid := true }
          ((crc16Raw s.par (s.dmem.readBytes src.toNat len.toNat)
            ^^^ (if var = 0 then d.crc16Mask0 else d.crc16Mask1)).setWidth 32) 0)
    ∧ (3 ≤ len.toNat → ∃ t : State, exec (.crc16v var sel len src) s = .next t
      ∧ ∃ c x : BitVec 16,
        c = crc16Raw s.par (s.dmem.readBytes src.toNat (len.toNat - 2))
          ^^^ (if var = 0 then d.crc16Mask0 else d.crc16Mask1)
        ∧ s.dmem.readBits (src.toNat + 8 * (len.toNat - 2)) 16
          = Bits.ofNat 16 (if s.par.crc16HighFirst then x else byteswap16 x).toNat
        ∧ ReadOnlyDone s t { valid := c == x, err := if c = x then .none else .crcMismatch }
          (c.setWidth 32) (x.setWidth 32))

/-- CRC16A writes the CRC of all but the last two bytes into the last two, in the order `CRC16_APPEND_ORDER`
(41_crc.md R123). -/
def Obligations.Crc16aAppends : Prop :=
  ∀ (s : State) (var sel : BitVec 4) (len src : BitVec 16) (d : Descriptor),
    s.par.slot sel = some d → var.toNat ≤ 1 → 3 ≤ len.toNat → src.toNat + 8 * len.toNat ≤ s.par.dmemBits →
    ∃ (t : State) (c : BitVec 16), exec (.crc16a var sel len src) s = .next t
      ∧ c = crc16Raw s.par (s.dmem.readBytes src.toNat (len.toNat - 2))
        ^^^ (if var = 0 then d.crc16Mask0 else d.crc16Mask1)
      ∧ CodecDone s t (src.toNat + 8 * (len.toNat - 2))
        (Bits.ofNat 16 (if s.par.crc16HighFirst then c else byteswap16 c).toNat) { valid := true } (c.setWidth 32) 0

/-- After CRC16A, CRC16V with the same slot and variant returns VALID = 1; after any single bit of the bytes is flipped it
returns CRC_MISMATCH, when bit 0 of `CRC16_POLY` is 1; and with the other variant it returns VALID = 1 exactly when the
two masks are equal (41_crc.md R125). -/
def Obligations.CrcAppendThenVerify : Prop :=
  ∀ (s t : State) (var sel : BitVec 4) (len src : BitVec 16) (d : Descriptor),
    s.par.slot sel = some d → var.toNat ≤ 1 → 3 ≤ len.toNat → src.toNat + 8 * len.toNat ≤ s.par.dmemBits →
    exec (.crc16a var sel len src) s = .next t →
    (∃ u : State, exec (.crc16v var sel len src) t = .next u ∧ u.status.valid = true ∧ u.status.err = .none)
    ∧ (s.par.crc16Poly.getLsbD 0 = true → ∀ b : Nat, src.toNat ≤ b → b < src.toNat + 8 * len.toNat →
      ∃ u : State, exec (.crc16v var sel len src) (t.flipBit b) = .next u
        ∧ u.status.valid = false ∧ u.status.err = .crcMismatch)
    ∧ (∃ u : State, exec (.crc16v (1 - var) sel len src) t = .next u
      ∧ (u.status.valid = true ↔ d.crc16Mask0 = d.crc16Mask1))

/-- The table-driven byte step gives the CRC register of the eight bit steps (41_crc.md R122). -/
def Obligations.TableDrivenCrcAgrees : Prop :=
  ∀ (p : Params) (c : BitVec 16) (b : Byte), p.crc16Reflect = false →
    crc16Byte p c b
      = (c <<< 8) ^^^ crc16Raw { p with crc16Init := 0 } [c.extractLsb' 8 8 ^^^ b]

/-- The small CRCs: CRCS computes, CRCSA appends the `w` bits, CRCSV compares (41_crc.md R126 to R129). -/
def Obligations.SmallCrcCommands : Prop :=
  ∀ (s : State) (var : BitVec 4) (len src : BitVec 16) (w : Nat),
    var.toNat ≤ 2 → w = [5, 6, 8].getD var.toNat 0 → src.toNat + len.toNat ≤ s.par.dmemBits →
    (1 ≤ len.toNat → ∃ t : State, exec (.crcs var len src) s = .next t
      ∧ ReadOnlyDone s t { valid := true }
        (BitVec.ofNat 32 (crcsOf s.par var.toNat (s.dmem.readBits src.toNat len.toNat))) 0)
    ∧ (w + 1 ≤ len.toNat → ∃ (t : State) (c : Nat), exec (.crcsa var len src) s = .next t
      ∧ c = crcsOf s.par var.toNat (s.dmem.readBits src.toNat (len.toNat - w))
      ∧ CodecDone s t (src.toNat + len.toNat - w) (Bits.ofNat w c) { valid := true } (BitVec.ofNat 32 c) 0
      ∧ ∃ u : State, exec (.crcsv var len src) t = .next u ∧ u.status.valid = true)
    ∧ (w + 1 ≤ len.toNat → ∃ (t : State) (c x : Nat), exec (.crcsv var len src) s = .next t
      ∧ c = crcsOf s.par var.toNat (s.dmem.readBits src.toNat (len.toNat - w))
      ∧ x = (s.dmem.readBits (src.toNat + len.toNat - w) w).toNat
      ∧ ReadOnlyDone s t { valid := c == x, err := if c = x then .none else .crcMismatch }
        (BitVec.ofNat 32 c) (BitVec.ofNat 32 x))

/-! ## Block codes -/

/-- The block encoders write the codeword at DST and its value into RES (42_block_codes.md R141, R143, R147, R151,
R159). A Golay codeword has the data bits in front and is a multiple of the generator, and the 24-bit form has even weight
(R140); that GOLAY_POLY has degree 11 is the model's choice of log entry 8. -/
def Obligations.BlockEncodersWriteTheCodeword : Prop :=
  ∀ (s : State) (dst src : BitVec 16),
    (src.toNat + 12 ≤ s.par.dmemBits → dst.toNat + 24 ≤ s.par.dmemBits →
      ∃ (t : State) (c q : Nat), exec (.gol24e dst src) s = .next t
        ∧ c = enc24 s.par (s.dmem.readBits src.toNat 12).toNat
        ∧ c / 2 ^ 12 = (s.dmem.readBits src.toNat 12).toNat
        ∧ q < 2 ^ 12 ∧ c / 2 = polyMultiple s.par.golayPoly.toNat q ∧ (Bits.ofNat 24 c).count true % 2 = 0
        ∧ CodecDone s t dst.toNat (Bits.ofNat 24 c) { valid := true } (BitVec.ofNat 32 c) 0)
    ∧ (src.toNat + 12 ≤ s.par.dmemBits → dst.toNat + 23 ≤ s.par.dmemBits →
      ∃ (t : State) (c q : Nat), exec (.gol23e dst src) s = .next t
        ∧ c = enc23 s.par (s.dmem.readBits src.toNat 12).toNat
        ∧ c / 2 ^ 11 = (s.dmem.readBits src.toNat 12).toNat
        ∧ q < 2 ^ 12 ∧ c = polyMultiple s.par.golayPoly.toNat q
        ∧ CodecDone s t dst.toNat (Bits.ofNat 23 c) { valid := true } (BitVec.ofNat 32 c) 0)
    ∧ (src.toNat + 11 ≤ s.par.dmemBits → dst.toNat + 15 ≤ s.par.dmemBits →
      ∃ (t : State) (c : Bits), exec (.h1511e dst src) s = .next t
        ∧ c = s.dmem.readBits src.toNat 11 ++ hamChecks s.par.ham15Eq (s.dmem.readBits src.toNat 11)
        ∧ CodecDone s t dst.toNat c { valid := true } c.zext32 0)
    ∧ (src.toNat + 11 ≤ s.par.dmemBits → dst.toNat + 16 ≤ s.par.dmemBits →
      ∃ (t : State) (c : Bits), exec (.h1611e dst src) s = .next t
        ∧ c = s.dmem.readBits src.toNat 11 ++ hamChecks s.par.ham15Eq (s.dmem.readBits src.toNat 11)
        ∧ CodecDone s t dst.toNat (c ++ [c.parity]) { valid := true } (Bits.zext32 (c ++ [c.parity])) 0)
    ∧ (src.toNat + 9 ≤ s.par.dmemBits → dst.toNat + 13 ≤ s.par.dmemBits →
      ∃ (t : State) (c : Bits), exec (.h139e dst src) s = .next t
        ∧ c = s.dmem.readBits src.toNat 9 ++ hamChecks s.par.ham13Eq (s.dmem.readBits src.toNat 9)
        ∧ CodecDone s t dst.toNat c { valid := true } c.zext32 0)

/-- GOL24D returns the data word within distance 3 of what it read, whichever such word is named, and reports FEC_UNCORR
with the received data bits when there is none (42_block_codes.md R142). That GOLAY_POLY is one of the two Golay
generators, so that at most one such word exists, is the model's choice of log entry 8. -/
def Obligations.Gol24dDecodesWithinDistanceThree : Prop :=
  ∀ (s : State) (dst src : BitVec 16) (r : Nat),
    src.toNat + 24 ≤ s.par.dmemBits → dst.toNat + 12 ≤ s.par.dmemBits → r = (s.dmem.readBits src.toNat 24).toNat →
    (∀ d : Nat, d < 4096 → bitDist 24 r (enc24 s.par d) ≤ 3 →
      ∃ t : State, exec (.gol24d dst src) s = .next t
        ∧ CodecDone s t dst.toNat (Bits.ofNat 12 d)
          { valid := true, corr := BitVec.ofNat 8 (bitDist 24 r (enc24 s.par d)) }
          (BitVec.ofNat 32 d) (BitVec.ofNat 32 (enc24 s.par d)))
    ∧ ((∀ d : Nat, d < 4096 → 3 < bitDist 24 r (enc24 s.par d)) →
      ∃ t : State, exec (.gol24d dst src) s = .next t
        ∧ CodecDone s t dst.toNat (Bits.ofNat 12 (r / 4096)) { err := .fecUncorr }
          (BitVec.ofNat 32 (r / 4096)) (BitVec.ofNat 32 r))

/-- GOL23D always finds the one data word within distance 3, since the code is perfect, and never reports FEC_UNCORR
(42_block_codes.md R144). That GOLAY_POLY is one of the two Golay generators is the model's choice of log entry 8. -/
def Obligations.Gol23dDecodesEveryWord : Prop :=
  ∀ (s : State) (dst src : BitVec 16) (r : Nat),
    src.toNat + 23 ≤ s.par.dmemBits → dst.toNat + 12 ≤ s.par.dmemBits → r = (s.dmem.readBits src.toNat 23).toNat →
    ∃ (t : State) (d : Nat), exec (.gol23d dst src) s = .next t
      ∧ d < 4096 ∧ bitDist 23 r (enc23 s.par d) ≤ 3
      ∧ (∀ d' : Nat, d' < 4096 → bitDist 23 r (enc23 s.par d') ≤ 3 → d' = d)
      ∧ CodecDone s t dst.toNat (Bits.ofNat 12 d)
        { valid := true, corr := BitVec.ofNat 8 (bitDist 23 r (enc23 s.par d)) }
        (BitVec.ofNat 32 d) (BitVec.ofNat 32 (enc23 s.par d))

/-- The check equations of Hamming(15,11) and (13,9) and the tables from syndrome to bit position (42_block_codes.md
R145, R146, R157, R158), for the default `HAM15_EQ` and `HAM13_EQ`. -/
def Obligations.HammingEquationsAndTables : Prop :=
  (∀ d0 d1 d2 d3 d4 d5 d6 d7 d8 d9 d10 : Bool,
    hamChecks ham15Default [d0, d1, d2, d3, d4, d5, d6, d7, d8, d9, d10]
      = [d0 ^^ d1 ^^ d2 ^^ d3 ^^ d5 ^^ d7 ^^ d8, d1 ^^ d2 ^^ d3 ^^ d4 ^^ d6 ^^ d8 ^^ d9,
         d2 ^^ d3 ^^ d4 ^^ d5 ^^ d7 ^^ d9 ^^ d10, d0 ^^ d1 ^^ d2 ^^ d4 ^^ d6 ^^ d7 ^^ d10])
  ∧ (∀ d0 d1 d2 d3 d4 d5 d6 d7 d8 : Bool,
    hamChecks ham13Default [d0, d1, d2, d3, d4, d5, d6, d7, d8]
      = [d0 ^^ d1 ^^ d3 ^^ d5 ^^ d6, d0 ^^ d1 ^^ d2 ^^ d4 ^^ d6 ^^ d7,
         d0 ^^ d1 ^^ d2 ^^ d3 ^^ d5 ^^ d7 ^^ d8, d0 ^^ d2 ^^ d4 ^^ d5 ^^ d8])
  ∧ (List.range 15).map (fun i => hamBit ham15Default 11 (i + 1))
      = [some 11, some 12, some 8, some 13, some 5, some 9, some 3, some 14, some 0, some 6, some 1, some 10, some 7,
         some 4, some 2]
  ∧ (List.range 15).map (fun i => hamBit ham13Default 9 (i + 1))
      = [some 9, some 10, some 6, some 11, some 3, some 7, some 1, some 12, none, some 4, none, some 8, some 5,
         some 2, some 0]

/-- The Hamming decoders on every received word: one bit is inverted where the syndrome names it, and H1611D and H139D
report FEC_UNCORR in their uncorrectable cases with the data bits as received (42_block_codes.md R148, R152, R160). For
equations other than the defaults of R145 and R157, that they make Hamming codes is the model's choice of log entry 8. -/
def Obligations.HammingDecodersComplete : Prop :=
  ∀ (s : State) (dst src : BitVec 16),
    (src.toNat + 15 ≤ s.par.dmemBits → dst.toNat + 11 ≤ s.par.dmemBits →
      ∃ (t : State) (r : Bits) (syn : Nat), exec (.h1511d dst src) s = .next t
        ∧ r = s.dmem.readBits src.toNat 15 ∧ syn = hamSyndrome s.par.ham15Eq 11 r
        ∧ (syn = 0 → CodecDone s t dst.toNat (r.take 11) { valid := true } (Bits.zext32 (r.take 11)) 0)
        ∧ (syn ≠ 0 → ∃ k : Nat, hamBit s.par.ham15Eq 11 syn = some k
          ∧ CodecDone s t dst.toNat ((r.flip k).take 11) { valid := true, corr := 1 }
            (Bits.zext32 ((r.flip k).take 11)) (BitVec.ofNat 32 syn)))
    ∧ (src.toNat + 16 ≤ s.par.dmemBits → dst.toNat + 11 ≤ s.par.dmemBits →
      ∃ (t : State) (r : Bits) (syn : Nat), exec (.h1611d dst src) s = .next t
        ∧ r = s.dmem.readBits src.toNat 16 ∧ syn = hamSyndrome s.par.ham15Eq 11 (r.take 15)
        ∧ (syn = 0 → r.parity = false →
          CodecDone s t dst.toNat (r.take 11) { valid := true } (Bits.zext32 (r.take 11)) 0)
        ∧ (syn = 0 → r.parity = true →
          CodecDone s t dst.toNat (r.take 11) { valid := true, corr := 1 } (Bits.zext32 (r.take 11)) 16)
        ∧ (syn ≠ 0 → r.parity = true → ∃ k : Nat, hamBit s.par.ham15Eq 11 syn = some k
          ∧ CodecDone s t dst.toNat ((r.flip k).take 11) { valid := true, corr := 1 }
            (Bits.zext32 ((r.flip k).take 11)) (BitVec.ofNat 32 (syn + 16)))
        ∧ (syn ≠ 0 → r.parity = false →
          CodecDone s t dst.toNat (r.take 11) { err := .fecUncorr } (Bits.zext32 (r.take 11)) (BitVec.ofNat 32 syn)))
    ∧ (src.toNat + 13 ≤ s.par.dmemBits → dst.toNat + 9 ≤ s.par.dmemBits →
      ∃ (t : State) (r : Bits) (syn : Nat), exec (.h139d dst src) s = .next t
        ∧ r = s.dmem.readBits src.toNat 13 ∧ syn = hamSyndrome s.par.ham13Eq 9 r
        ∧ (syn = 0 → CodecDone s t dst.toNat (r.take 9) { valid := true } (Bits.zext32 (r.take 9)) 0)
        ∧ (∀ k : Nat, hamBit s.par.ham13Eq 9 syn = some k → syn ≠ 0 →
          CodecDone s t dst.toNat ((r.flip k).take 9) { valid := true, corr := 1 }
            (Bits.zext32 ((r.flip k).take 9)) (BitVec.ofNat 32 syn))
        ∧ (hamBit s.par.ham13Eq 9 syn = none → syn ≠ 0 →
          CodecDone s t dst.toNat (r.take 9) { err := .fecUncorr } (Bits.zext32 (r.take 9)) (BitVec.ofNat 32 syn)))

/-- Every single bit error of a codeword is corrected by the three Hamming decoders, and H1611D detects every double
error (42_block_codes.md R148, R152, R160). For equations other than the defaults of R145 and R157, that they make Hamming
codes is the model's choice of log entry 8. -/
def Obligations.HammingDecodersCorrectSingleErrors : Prop :=
  ∀ (s : State) (dst src : BitVec 16) (d : Bits),
    (d.length = 11 → src.toNat + 15 ≤ s.par.dmemBits → dst.toNat + 11 ≤ s.par.dmemBits → ∀ k : Nat, k < 15 →
      s.dmem.readBits src.toNat 15 = (d ++ hamChecks s.par.ham15Eq d).flip k →
      ∃ t : State, exec (.h1511d dst src) s = .next t ∧ t.dmem.readBits dst.toNat 11 = d
        ∧ t.status = { valid := true, corr := 1 })
    ∧ (d.length = 11 → src.toNat + 16 ≤ s.par.dmemBits → dst.toNat + 11 ≤ s.par.dmemBits →
      (∀ k : Nat, k < 16 → s.dmem.readBits src.toNat 16 = (extendParity (d ++ hamChecks s.par.ham15Eq d)).flip k →
        ∃ t : State, exec (.h1611d dst src) s = .next t ∧ t.dmem.readBits dst.toNat 11 = d
          ∧ t.status = { valid := true, corr := 1 })
      ∧ (∀ k l : Nat, k < l → l < 16 →
        s.dmem.readBits src.toNat 16 = ((extendParity (d ++ hamChecks s.par.ham15Eq d)).flip k).flip l →
        ∃ t : State, exec (.h1611d dst src) s = .next t ∧ t.status = { err := .fecUncorr }))
    ∧ (d.length = 9 → src.toNat + 13 ≤ s.par.dmemBits → dst.toNat + 9 ≤ s.par.dmemBits → ∀ k : Nat, k < 13 →
      s.dmem.readBits src.toNat 13 = (d ++ hamChecks s.par.ham13Eq d).flip k →
      ∃ t : State, exec (.h139d dst src) s = .next t ∧ t.dmem.readBits dst.toNat 9 = d
        ∧ t.status = { valid := true, corr := 1 })

/-! ## BPTC -/

/-- BPTCE writes the 196-bit block and BPTCD the 96 payload bits, with the passes in RES and the number of bad columns
and rows in RES2 (43_bptc.md R176, R177). The block BPTCE writes, deinterleaved (R171), holds payload bit `i` at
`m[DATA_POS[i]]` (R174), 0 in `m[0..3]`, and all 15 column and 13 row syndromes of its matrix are 0 (R172, R176); BPTCD
starts from the deinterleaved block and takes the payload from the same places. -/
def Obligations.BptcCommandsComplete : Prop :=
  ∀ (s : State) (dst src : BitVec 16),
    (src.toNat + 96 ≤ s.par.dmemBits → dst.toNat + 196 ≤ s.par.dmemBits →
      ∃ (t : State) (raw m : Bits), exec (.bptce dst src) s = .next t
        ∧ raw = bptcEncode s.par (s.dmem.readBits src.toNat 96) ∧ raw.length = 196 ∧ m = bptcBlock raw
        ∧ CodecDone s t dst.toNat raw { valid := true } 0 0
        ∧ (∀ a : Nat, a < 196 → t.dmem.bit (dst.toNat + a * 181 % 196) = m.get a)
        ∧ (∀ i : Nat, i < 96 → m.get (bptcPayloadIndex i) = s.dmem.bit (src.toNat + i))
        ∧ (∀ a : Nat, a < 4 → m.get a = false)
        ∧ (∀ c : Nat, c < 15 → bptcColumnError s.par m c = 0)
        ∧ (∀ r : Nat, r < 13 → bptcRowError s.par m r = 0))
    ∧ (src.toNat + 196 ≤ s.par.dmemBits → dst.toNat + 96 ≤ s.par.dmemBits →
      ∃ (t : State) (m : Bits) (passes total bad : Nat), exec (.bptcd dst src) s = .next t
        ∧ bptcIterate s.par 5 (bptcBlock (s.dmem.readBits src.toNat 196)) 0 0 = (m, passes, total)
        ∧ bad = (List.range 15).countP (fun c => bptcColumnError s.par m c != 0)
          + (List.range 9).countP (fun r => bptcRowError s.par m r != 0)
        ∧ 1 ≤ passes ∧ passes ≤ 5
        ∧ CodecDone s t dst.toNat ((List.range 96).map fun i => m.get (bptcPayloadIndex i))
          { valid := bad == 0, err := if bad = 0 then .none else .fecUncorr, corr := BitVec.ofNat 8 (min total 255) }
          (BitVec.ofNat 32 passes) (BitVec.ofNat 32 bad))

/-- BPTCD of what BPTCE wrote returns the payload with VALID = 1, and so does it after any one of the 196 bits is flipped
(43_bptc.md R178). For check equations other than the defaults, that they make Hamming codes is the model's choice of log
entry 8. -/
def Obligations.BptcRoundTrip : Prop :=
  ∀ (s t : State) (mid dst src : BitVec 16),
    src.toNat + 96 ≤ s.par.dmemBits → mid.toNat + 196 ≤ s.par.dmemBits → dst.toNat + 96 ≤ s.par.dmemBits →
    exec (.bptce mid src) s = .next t →
    (∃ u : State, exec (.bptcd dst mid) t = .next u ∧ u.status.valid = true
      ∧ u.dmem.readBits dst.toNat 96 = s.dmem.readBits src.toNat 96)
    ∧ (∀ k : Nat, k < 196 → ∃ u : State, exec (.bptcd dst mid) (t.flipBit (mid.toNat + k)) = .next u
      ∧ u.status.valid = true ∧ u.dmem.readBits dst.toNat 96 = s.dmem.readBits src.toNat 96)

/-! ## Convolutional code -/

/-- CONVE writes output pair `t` from the two taps and the register of step `t`, which holds the inputs `t` to `t - 4`,
with the final encoder state, the last four inputs, in RES (44_convolutional.md R185 to R188); VITD writes the chainback
of the best final state, the lowest-numbered on a tie, with its metric in RES and the state in RES2 (R191). -/
def Obligations.ConvolutionalCommandsComplete : Prop :=
  ∀ (s : State) (len dst src : BitVec 16),
    (len.toNat % 2 = 0 → 2 ≤ len.toNat → len.toNat ≤ 2 * s.par.vitMax →
      src.toNat + len.toNat / 2 ≤ s.par.dmemBits → dst.toNat + len.toNat ≤ s.par.dmemBits →
      ∃ (t : State) (v out : Bits) (final : Nat), exec (.conve len dst src) s = .next t
        ∧ v = s.dmem.readBits src.toNat (len.toNat / 2)
        ∧ out = convEncode s.par 0 v ∧ out.length = len.toNat
        ∧ (∀ i : Nat, i < len.toNat / 2 → out.get (2 * i) = tapOutput s.par.convG1 v i
          ∧ out.get (2 * i + 1) = tapOutput s.par.convG2 v i)
        ∧ final < 16
        ∧ (∀ j : Nat, j < 4 → final.testBit (3 - j) = (decide (j < v.length) && v.get (v.length - 1 - j)))
        ∧ CodecDone s t dst.toNat out { valid := true } (BitVec.ofNat 32 final) 0)
    ∧ (1 ≤ len.toNat → len.toNat ≤ s.par.vitMax → src.toNat + 2 * len.toNat ≤ s.par.dmemBits →
      dst.toNat + len.toNat ≤ s.par.dmemBits →
      ∃ (t : State) (pm : Metrics) (preds : List (List Nat)), exec (.vitd len dst src) s = .next t
        ∧ vitForward s.par vitStart [] (s.dmem.readBits src.toNat (2 * len.toNat)) = (pm, preds)
        ∧ (vitChain (vitBest pm).1 preds []).length = len.toNat
        ∧ (vitBest pm).1 < 16 ∧ pm[(vitBest pm).1]? = some (some (vitBest pm).2)
        ∧ (∀ f x : Nat, pm[f]? = some (some x) →
          (vitBest pm).2 < x ∨ ((vitBest pm).2 = x ∧ (vitBest pm).1 ≤ f))
        ∧ CodecDone s t dst.toNat (vitChain (vitBest pm).1 preds [])
          { valid := true, corr := BitVec.ofNat 8 (min (vitBest pm).2 255) }
          (BitVec.ofNat 32 (vitBest pm).2) (BitVec.ofNat 32 (vitBest pm).1))

/-- VITD of what CONVE wrote returns the input with RES = 0, zero tail or not (44_convolutional.md R193). -/
def Obligations.ViterbiRoundTrip : Prop :=
  ∀ (s t : State) (len len2 mid dst src : BitVec 16),
    1 ≤ len.toNat → len.toNat ≤ s.par.vitMax → len2.toNat = 2 * len.toNat →
    src.toNat + len.toNat ≤ s.par.dmemBits → mid.toNat + 2 * len.toNat ≤ s.par.dmemBits →
    dst.toNat + len.toNat ≤ s.par.dmemBits →
    exec (.conve len2 mid src) s = .next t →
    ∃ u : State, exec (.vitd len dst mid) t = .next u ∧ u.res = 0 ∧ u.status = { valid := true }
      ∧ u.dmem.readBits dst.toNat len.toNat = s.dmem.readBits src.toNat len.toNat

/-- VITD decodes to a maximum-likelihood input: RES is the number of received bits that differ from the re-encoding of
what it writes, and no input of the same length differs in fewer (44_convolutional.md R191; the source's "recover the
maximum-likelihood input sequence"). -/
def Obligations.ViterbiIsMaximumLikelihood : Prop :=
  ∀ (s : State) (len dst src : BitVec 16),
    1 ≤ len.toNat → len.toNat ≤ s.par.vitMax → src.toNat + 2 * len.toNat ≤ s.par.dmemBits →
    dst.toNat + len.toNat ≤ s.par.dmemBits →
    let rx := s.dmem.readBits src.toNat (2 * len.toNat)
    let differ := fun v : Bits => (List.zipWith xor (convEncode s.par 0 v) rx).count true
    ∃ t : State, exec (.vitd len dst src) s = .next t
      ∧ t.res.toNat = differ (t.dmem.readBits dst.toNat len.toNat)
      ∧ ∀ v : Bits, v.length = len.toNat → t.res.toNat ≤ differ v

/-! ## Interleaving and scrambling -/

/-- ILV puts logical bit `i` at position `T[i]`, DILV takes it from there, SCR adds the whitening sequence from its first
bit; RES and RES2 are 0 (45_interleave_scramble.md R201, R202, R204, R205). Source and destination may overlap in any way
(20_memory.md R70); that SCR accepts a partial overlap, against the constraint column of the opcode table, is the model's
reading of log entry 12. -/
def Obligations.InterleaveAndScrambleCommands : Prop :=
  ∀ (s : State) (var sel : BitVec 4) (len dst src : BitVec 16) (d : Descriptor),
    s.par.slot sel = some d → src.toNat + len.toNat ≤ s.par.dmemBits → dst.toNat + len.toNat ≤ s.par.dmemBits →
    (∀ tab : List Nat, d.ilv[var.toNat]? = some tab → len.toNat = tab.length →
      (∃ (t : State) (out : Bits), exec (.ilv var sel len dst src) s = .next t
        ∧ CodecDone s t dst.toNat out { valid := true } 0 0 ∧ out.length = len.toNat
        ∧ ∀ i j : Nat, tab[i]? = some j → t.dmem.bit (dst.toNat + j) = s.dmem.bit (src.toNat + i))
      ∧ (∃ (t : State) (out : Bits), exec (.dilv var sel len dst src) s = .next t
        ∧ CodecDone s t dst.toNat out { valid := true } 0 0 ∧ out.length = len.toNat
        ∧ ∀ i j : Nat, tab[i]? = some j → t.dmem.bit (dst.toNat + i) = s.dmem.bit (src.toNat + j)))
    ∧ (∀ seq : List Byte, d.whiten[var.toNat]? = some seq → 1 ≤ len.toNat → len.toNat ≤ 8 * seq.length →
      ∃ (t : State) (out : Bits), exec (.scr var sel len dst src) s = .next t
        ∧ CodecDone s t dst.toNat out { valid := true } 0 0 ∧ out.length = len.toNat
        ∧ ∀ (i : Nat) (b : Byte), i < len.toNat → seq[i / 8]? = some b →
          t.dmem.bit (dst.toNat + i) = (s.dmem.bit (src.toNat + i) ^^ b.getLsbD (7 - i % 8)))

/-- DILV with a table undoes ILV with it, and the reverse (45_interleave_scramble.md R203). -/
def Obligations.DeinterleaveUndoesInterleave : Prop :=
  ∀ (s t : State) (var sel : BitVec 4) (len mid dst src : BitVec 16) (d : Descriptor) (tab : List Nat),
    s.par.slot sel = some d → d.ilv[var.toNat]? = some tab → len.toNat = tab.length →
    src.toNat + len.toNat ≤ s.par.dmemBits → mid.toNat + len.toNat ≤ s.par.dmemBits →
    dst.toNat + len.toNat ≤ s.par.dmemBits →
    (exec (.ilv var sel len mid src) s = .next t →
      ∃ u : State, exec (.dilv var sel len dst mid) t = .next u
        ∧ u.dmem.readBits dst.toNat len.toNat = s.dmem.readBits src.toNat len.toNat)
    ∧ (exec (.dilv var sel len mid src) s = .next t →
      ∃ u : State, exec (.ilv var sel len dst mid) t = .next u
        ∧ u.dmem.readBits dst.toNat len.toNat = s.dmem.readBits src.toNat len.toNat)

/-- SCR twice on a region, in place, returns every bit of DMEM as it was (45_interleave_scramble.md R206). -/
def Obligations.ScrambleTwiceIsNothing : Prop :=
  ∀ (s t : State) (var sel : BitVec 4) (len src : BitVec 16) (d : Descriptor) (seq : List Byte),
    s.par.slot sel = some d → d.whiten[var.toNat]? = some seq → 1 ≤ len.toNat → len.toNat ≤ 8 * seq.length →
    src.toNat + len.toNat ≤ s.par.dmemBits →
    exec (.scr var sel len src src) s = .next t →
    ∃ u : State, exec (.scr var sel len src src) t = .next u ∧ ∀ b : Nat, u.dmem.bit b = s.dmem.bit b

/-! ## Frames and the envelope -/

/-- The kind of a frame is the lowest whose length and syncs match; there is none when no kind matches (46_frame.md R219,
R220). -/
def Obligations.ClassificationPicksTheLowestKind : Prop :=
  ∀ (d : Descriptor) (m : Memory) (w n : Nat),
    (classify d m w n = none ↔ ∀ k ∈ d.kinds, ¬ Qualifies m w n k)
    ∧ ∀ k : Nat, classify d m w n = some k ↔
      (∃ kd : FrameKind, d.kinds[k]? = some kd ∧ Qualifies m w n kd)
      ∧ ∀ (j : Nat) (kd : FrameKind), j < k → d.kinds[j]? = some kd → ¬ Qualifies m w n kd

/-- No step of a frame program can fault, once the regions of the command running it lie inside DMEM (46_frame.md R222):
the decode and encode programs of every kind, and the check program of the embedded channel. -/
def Obligations.FrameStepsNeverFault : Prop :=
  ∀ (s : State) (sel : BitVec 4) (d : Descriptor) (w f : Nat) (x : Step),
    s.par.slot sel = some d → f + d.fieldBits ≤ s.par.dmemBits →
    ((∃ k ∈ d.kinds, (x ∈ k.decProg ∨ x ∈ k.encProg) ∧ w + k.lenBits ≤ s.par.dmemBits)
      ∨ ∃ e : Embedded, d.embedded = some e ∧ x ∈ e.checkProg) →
    (codecChecks x.op s.par sel (stepOperands w f x)).all (·.2) = true

/-- FRDEC: FRAMING with DMEM unchanged when no kind matches; otherwise the field block is cleared, every step of the
decode program runs, and VALID, VFAIL, CORR and ERR are what the steps yielded; no session register and no DMEM outside
the two regions changes (46_frame.md R225). -/
def Obligations.FrdecParsesFrames : Prop :=
  ∀ (s : State) (sel : BitVec 4) (len dst src : BitVec 16) (d : Descriptor),
    s.par.slot sel = some d → 1 ≤ len.toNat → src.toNat + len.toNat ≤ s.par.dmemBits →
    dst.toNat + d.fieldBits ≤ s.par.dmemBits → overlaps src.toNat len.toNat dst.toNat d.fieldBits = false →
    (classify d s.dmem src.toNat len.toNat = none →
      ∃ t : State, exec (.frdec sel len dst src) s = .next t
        ∧ ReadOnlyDone s t { err := .framing } 0xFFFFFFFF 0)
    ∧ (∀ k : Nat, classify d s.dmem src.toNat len.toNat = some k →
      ∃ (t : State) (kd : FrameKind) (x : ProgState), exec (.frdec sel len dst src) s = .next t
        ∧ d.kinds[k]? = some kd
        ∧ x = runProg s.par d src.toNat dst.toNat kd.decProg
          (s.dmem.writeBits dst.toNat (List.replicate d.fieldBits false))
        ∧ FrameDone s t x.mem src.toNat len.toNat dst.toNat d.fieldBits s.session
          { valid := x.ctl == .none, vfail := x.voice != .none, corr := BitVec.ofNat 8 (min x.corr 255),
            err := if x.ctl = .none then x.voice else x.ctl }
          (BitVec.ofNat 32 k) (classCode kd.cls))

/-- FRENC: an all-zero frame, the syncs, then the encode program; nothing outside the frame and the field block changes
(46_frame.md R227). -/
def Obligations.FrencBuildsFrames : Prop :=
  ∀ (s : State) (var sel : BitVec 4) (dst src : BitVec 16) (d : Descriptor) (k : FrameKind),
    s.par.slot sel = some d → d.kinds[var.toNat]? = some k → dst.toNat + k.lenBits ≤ s.par.dmemBits →
    src.toNat + d.fieldBits ≤ s.par.dmemBits → overlaps dst.toNat k.lenBits src.toNat d.fieldBits = false →
    ∃ (t : State) (m : Memory), exec (.frenc var sel dst src) s = .next t
      ∧ m = (runProg s.par d dst.toNat src.toNat k.encProg
        (k.syncs.foldl (fun m y => m.writeBits (dst.toNat + y.off) (Bits.ofNat y.n y.pattern))
          (s.dmem.writeBits dst.toNat (List.replicate k.lenBits false)))).mem
      ∧ FrameDone s t m dst.toNat k.lenBits src.toNat d.fieldBits s.session { valid := true }
        (BitVec.ofNat 32 k.lenBits) (var.setWidth 32)

/-- ENVP writes the envelope of the payload as it was; ENVU reads an envelope, or reports FRAMING with DMEM unchanged for
a wrong start byte or an impossible length (46_frame.md R230 to R232). -/
def Obligations.EnvelopeCommands : Prop :=
  (∀ (s : State) (ty : BitVec 8) (len dst src : BitVec 16), len.toNat ≤ 252 →
    src.toNat + 8 * len.toNat ≤ s.par.dmemBits → dst.toNat + 8 * (len.toNat + 3) ≤ s.par.dmemBits →
    ∃ t : State, exec (.envp ty len dst src) s = .next t
      ∧ CodecDone s t dst.toNat
        (Bits.ofNat 8 s.par.envStart.toNat ++ Bits.ofNat 8 (len.toNat + 3) ++ Bits.ofNat 8 ty.toNat
          ++ s.dmem.readBits src.toNat (8 * len.toNat))
        { valid := true } (BitVec.ofNat 32 (len.toNat + 3)) 0)
  ∧ (∀ (s : State) (len dst src : BitVec 16) (b0 l ty : Nat), 3 ≤ len.toNat →
    src.toNat + 8 * len.toNat ≤ s.par.dmemBits → dst.toNat + 8 * (len.toNat - 3) ≤ s.par.dmemBits →
    b0 = (s.dmem.readBits src.toNat 8).toNat → l = (s.dmem.readBits (src.toNat + 8) 8).toNat →
    ty = (s.dmem.readBits (src.toNat + 16) 8).toNat →
    (b0 = s.par.envStart.toNat → 3 ≤ l → l ≤ len.toNat →
      ∃ t : State, exec (.envu len dst src) s = .next t
        ∧ CodecDone s t dst.toNat (s.dmem.readBits (src.toNat + 24) (8 * (l - 3))) { valid := true }
          (BitVec.ofNat 32 ty) (BitVec.ofNat 32 (l - 3)))
    ∧ ((b0 ≠ s.par.envStart.toNat ∨ l < 3 ∨ len.toNat < l) →
      ∃ t : State, exec (.envu len dst src) s = .next t
        ∧ ReadOnlyDone s t { err := .framing } 0xFFFFFFFF 0))

/-- ENVU of what ENVP wrote returns the type, the length and the payload (46_frame.md R231, R232). -/
def Obligations.EnvelopeRoundTrip : Prop :=
  ∀ (s t : State) (ty : BitVec 8) (len avail mid dst src : BitVec 16),
    len.toNat ≤ 252 → len.toNat + 3 ≤ avail.toNat → src.toNat + 8 * len.toNat ≤ s.par.dmemBits →
    mid.toNat + 8 * avail.toNat ≤ s.par.dmemBits → dst.toNat + 8 * (avail.toNat - 3) ≤ s.par.dmemBits →
    exec (.envp ty len mid src) s = .next t →
    ∃ u : State, exec (.envu avail dst mid) t = .next u ∧ u.status = { valid := true }
      ∧ u.res = ty.setWidth 32 ∧ u.res2 = len.setWidth 32
      ∧ u.dmem.readBits dst.toNat (8 * len.toNat) = s.dmem.readBits src.toNat (8 * len.toNat)

/-! ## The session -/

/-- SCON starts a session from DISCONNECTED with the configuration record, or records the configuration error that the
host reports (47_session.md R251, R252). -/
def Obligations.SconStartsASession : Prop :=
  ∀ (s : State) (sel : BitVec 4) (src : BitVec 16) (d : Descriptor),
    s.par.slot sel = some d → src.toNat + 128 ≤ s.par.dmemBits → s.fault.fatal = false →
    s.session.link = .disconnected →
    (∃ t : State, exec (.scon 0 sel src) s = .next t
      ∧ SessionDone s t
        { s.session with
          link := .connecting, backendValid := true, backendSlot := sel
          cfgSrcId := BitVec.ofNat 32 (s.dmem.readBits src.toNat 32).toNat
          cfgDstId := BitVec.ofNat 32 (s.dmem.readBits (src.toNat + 32) 32).toNat
          cfgCallHi := BitVec.ofNat 32 (s.dmem.readBits (src.toNat + 64) 32).toNat
          cfgCallLo := BitVec.ofNat 32 (s.dmem.readBits (src.toNat + 96) 32).toNat }
        { valid := true } 0 0)
    ∧ (∃ t : State, exec (.scon 1 sel src) s = .next t
      ∧ t.status = { err := .config } ∧ t.res = 0 ∧ t.res2 = 0 ∧ t.dmem = s.dmem ∧ t.session = s.session
      ∧ t.fault = { s.fault with fatal := true } ∧ s.KeepsPort t)

/-- The four link events in the states that accept them (47_session.md R253). -/
def Obligations.SlnkEvents : Prop :=
  ∀ s : State,
    (∀ d : Descriptor, s.session.link = .connecting → s.backend = some d →
      ∃ t : State, exec (.slnk 0) s = .next t
        ∧ SessionDone s t
          { s.session with link := if d.authRequired then .auth else .connected, linkWdog := 0 } { valid := true } 0 0)
    ∧ (s.session.link = .auth →
      (∃ t : State, exec (.slnk 1) s = .next t
        ∧ SessionDone s t { s.session with link := .connected, linkWdog := 0 } { valid := true } 0 0)
      ∧ (∃ t : State, exec (.slnk 2) s = .next t
        ∧ SessionDone s t (Session.cleared s.par.reasmMax) { err := .authFail } 0 0))
    ∧ (s.session.link ≠ .disconnected →
      ∃ t : State, exec (.slnk 3) s = .next t
        ∧ SessionDone s t { s.session with linkWdog := 0 } { valid := true } 0 0)

/-- SDIS, in every state, performs the session reset: every session register and FRAG_BUF are 0, and DMEM, FAULT and the
configuration ROM do not change (47_session.md R258, R259). -/
def Obligations.SdisResetsTheSession : Prop :=
  ∀ s : State, ∃ t : State, exec .sdis s = .next t
    ∧ SessionDone s t (Session.cleared s.par.reasmMax) { valid := true } 0 0
    ∧ t.session.link = .disconnected ∧ t.session.call = .idle ∧ t.session.backendWord = 0
    ∧ t.session.activeSid = 0 ∧ t.session.srcId = 0 ∧ t.session.dstId = 0 ∧ t.session.frameCnt = 0
    ∧ t.session.wdogCnt = 0 ∧ t.session.linkWdog = 0 ∧ t.session.kaCnt = 0 ∧ t.session.txStateWord = 0
    ∧ t.session.txSid = 0 ∧ t.session.txSeq = 0 ∧ t.session.fragPresent = 0
    ∧ t.session.cfgSrcId = 0 ∧ t.session.cfgDstId = 0 ∧ t.session.cfgCallHi = 0 ∧ t.session.cfgCallLo = 0
    ∧ t.session.fragBuf = List.replicate s.par.reasmMax false

/-- SRXF changes no session register for a frame that matches no kind or that failed a CONTROL step, and for a frame whose
VOICE steps failed it only forwards the payload unless muted (47_session.md R260, R265). For a frame that failed a
CONTROL and a VOICE step everything but VFAIL is stated: R260 and R271 differ on VFAIL alone, and the model's reading is
log entry 7. -/
def Obligations.SrxfKeepsTheSessionOnBadFrames : Prop :=
  ∀ (s : State) (len dst src : BitVec 16) (d : Descriptor), SrxfReady s src.toNat len.toNat dst.toNat d →
    (parseFrame s.par d s.dmem src.toNat len.toNat dst.toNat = none →
      ∃ t : State, exec (.srxf len dst src) s = .next t ∧ ReadOnlyDone s t { err := .framing } 0xFFFFFFFF 0)
    ∧ (∀ y : Parsed, parseFrame s.par d s.dmem src.toNat len.toNat dst.toNat = some y → y.prog.ctl ≠ .none →
      y.prog.voice = .none →
      ∃ t : State, exec (.srxf len dst src) s = .next t
        ∧ FrameDone s t y.prog.mem src.toNat len.toNat dst.toNat d.fieldBits s.session
          { err := y.prog.ctl, corr := BitVec.ofNat 8 (min y.prog.corr 255) }
          (BitVec.ofNat 32 y.index) (classCode y.kind.cls))
    ∧ (∀ y : Parsed, parseFrame s.par d s.dmem src.toNat len.toNat dst.toNat = some y → y.prog.ctl ≠ .none →
      y.prog.voice ≠ .none →
      ∃ t : State, exec (.srxf len dst src) s = .next t
        ∧ FrameDone s t y.prog.mem src.toNat len.toNat dst.toNat d.fieldBits s.session
          { err := y.prog.ctl, corr := BitVec.ofNat 8 (min y.prog.corr 255), vfail := t.status.vfail }
          (BitVec.ofNat 32 y.index) (classCode y.kind.cls))
    ∧ (∀ y : Parsed, parseFrame s.par d s.dmem src.toNat len.toNat dst.toNat = some y → y.prog.ctl = .none →
      y.prog.voice ≠ .none →
      ∃ t : State, exec (.srxf len dst src) s = .next t
        ∧ FrameDone s t y.prog.mem src.toNat len.toNat dst.toNat d.fieldBits s.session
          { err := y.prog.voice, valid := true, vfail := true, corr := BitVec.ofNat 8 (min y.prog.corr 255)
            payload := y.kind.cls == .voice && y.kind.fPayload.isSome
              && continuesCall y.prog.mem dst.toNat y.kind s.session && !d.muteOnVfail }
          (BitVec.ofNat 32 y.index) (classCode y.kind.cls))

/-- SRXF with a state-valid frame: both watchdogs are cleared, the call moves as the table of 47_session.md R262 says with
the entry actions of R263 and R264, accepted frames are counted (R266), and STATUS, RES and RES2 are as R268 and R271
say; the other session registers keep their values. The predicates of R261 are `frameSame`, `frameEnds` and `frameStarts`
of Sys2Proof/Safety.lean, written out there from the rule and not taken from the machine. -/
def Obligations.SrxfMovesTheCall : Prop :=
  ∀ (s : State) (len dst src : BitVec 16) (d : Descriptor) (y : Parsed),
    SrxfReady s src.toNat len.toNat dst.toNat d → StateValid s src.toNat len.toNat dst.toNat d y →
    let m := y.prog.mem
    let f := dst.toNat
    let se := s.session
    let enters := entersNew m f y.kind se
    let continues := continuesCall m f y.kind se
    let ends := endsNow m f y.kind se
    ∃ t : State, exec (.srxf len dst src) s = .next t
      ∧ t.session.wdogCnt = 0 ∧ t.session.linkWdog = 0
      ∧ t.session.call = (if ends then .ended else if enters then .new else if continues then .streaming else se.call)
      ∧ t.session.activeSid = (if enters then frameReg m f y.kind.fSid else se.activeSid)
      ∧ t.session.srcId = (if enters then frameReg m f y.kind.fSrc else se.srcId)
      ∧ t.session.dstId = (if enters then frameReg m f y.kind.fDst else se.dstId)
      ∧ t.session.frameCnt = (if enters then 1 else if continues then se.frameCnt + 1 else se.frameCnt)
      ∧ t.session = { se with
          wdogCnt := 0, linkWdog := 0, call := t.session.call, activeSid := t.session.activeSid
          srcId := t.session.srcId, dstId := t.session.dstId, frameCnt := t.session.frameCnt
          fragPresent := t.session.fragPresent, fragBuf := t.session.fragBuf }
      ∧ t.status = { valid := true, corr := BitVec.ofNat 8 (min y.prog.corr 255), newcall := enters, endcall := ends
                     payload := (enters || continues) && y.kind.cls == .voice && y.kind.fPayload.isSome
                     msgrdy := t.status.msgrdy, err := t.status.err }
      ∧ t.res = BitVec.ofNat 32 y.index ∧ t.res2 = classCode y.kind.cls ∧ t.fault = s.fault ∧ s.KeepsPort t
      ∧ KeptOutside s.dmem t.dmem src.toNat len.toNat dst.toNat d.fieldBits

/-- Reassembly (47_session.md R270): what SRXF does with the fragment of an accepted frame that leaves the call NEW or
STREAMING, from the buffer as the call transition left it, and that every other state-valid frame leaves it as that. -/
def Obligations.SrxfReassembles : Prop :=
  ∀ (s : State) (len dst src : BitVec 16) (d : Descriptor) (y : Parsed),
    SrxfReady s src.toNat len.toNat dst.toNat d → StateValid s src.toNat len.toNat dst.toNat d y →
    let m := y.prog.mem
    let f := dst.toNat
    let enters := entersNew m f y.kind s.session
    let buf := if enters then List.replicate s.par.reasmMax false else s.session.fragBuf
    let present := if enters then 0 else s.session.fragPresent
    let carries := (enters || continuesCall m f y.kind s.session) && !endsNow m f y.kind s.session
    ∃ t : State, exec (.srxf len dst src) s = .next t
      ∧ ((y.kind.fFragidx = none ∨ carries = false) →
        t.session.fragBuf = buf ∧ t.session.fragPresent = present ∧ t.dmem = m ∧ t.status.msgrdy = false
        ∧ t.status.err = .none)
      ∧ (∀ (e : Embedded) (xi xf : Field), d.embedded = some e → y.kind.fFragidx = some xi → y.kind.fFrag = some xf →
        carries = true →
        let i := (m.readBits (f + xi.off) xi.width).toNat
        let buf' := buf.take (i * e.fragBits) ++ m.readBits (f + xf.off) e.fragBits ++ buf.drop ((i + 1) * e.fragBits)
        let present' := present ||| (1#16 <<< i)
        let full := ∀ j : Nat, j < e.nfrag → present'.getLsbD j = true
        let x := runProg s.par d src.toNat f e.checkProg
          (m.writeBits (f + e.msgOff) (buf'.take (e.nfrag * e.fragBits)))
        (e.nfrag ≤ i →
          t.session.fragBuf = buf ∧ t.session.fragPresent = present ∧ t.dmem = m ∧ t.status.msgrdy = false
          ∧ t.status.err = .none)
        ∧ (i < e.nfrag → ¬ full →
          t.session.fragBuf = buf' ∧ t.session.fragPresent = present' ∧ t.dmem = m ∧ t.status.msgrdy = false
          ∧ t.status.err = .none)
        ∧ (i < e.nfrag → full → x.ctl = .none →
          t.session.fragBuf = List.replicate s.par.reasmMax false ∧ t.session.fragPresent = 0 ∧ t.dmem = x.mem
          ∧ t.status.msgrdy = true ∧ t.status.err = .none)
        ∧ (i < e.nfrag → full → x.ctl ≠ .none →
          t.session.fragBuf = buf' ∧ t.session.fragPresent = present' ∧ t.dmem = x.mem ∧ t.status.msgrdy = false
          ∧ t.status.err = x.ctl))

/-- SRXT: the link watchdog counts in every link state but DISCONNECTED and resets the session at its limit; in CONNECTED
the reception watchdog counts, an active call is lost at its limit, and a call that is over returns to IDLE when drained
(47_session.md R272 to R274). -/
def Obligations.SrxtTicks : Prop :=
  ∀ (s : State) (var : BitVec 4) (d : Descriptor), var.toNat ≤ 1 → s.session.link ≠ .disconnected → s.backend = some d →
    let se := s.session
    let lw := BitVec.ofNat 16 (min (se.linkWdog.toNat + 1) 0xFFFF)
    let wd := BitVec.ofNat 16 (min (se.wdogCnt.toNat + 1) 0xFFFF)
    let timedOut := 0 < d.linkTimeout ∧ d.linkTimeout ≤ lw.toNat
    let active := se.call = .new ∨ se.call = .streaming
    let isOver := se.call = .ended ∨ se.call = .lost
    ∃ t : State, exec (.srxt var) s = .next t
      ∧ (timedOut → SessionDone s t (Session.cleared s.par.reasmMax) { err := .linkTimeout } 0 0)
      ∧ (¬ timedOut → se.link ≠ .connected →
        SessionDone s t { se with linkWdog := lw } { valid := true } (se.wdogCnt.setWidth 32) (lw.setWidth 32))
      ∧ (¬ timedOut → se.link = .connected → active → d.wdogLimit ≤ wd.toNat →
        SessionDone s t
          { se with linkWdog := lw, wdogCnt := wd, call := .lost, fragPresent := 0
                    fragBuf := List.replicate s.par.reasmMax false }
          { err := .sessionTimeout, lostcall := true } (wd.setWidth 32) (lw.setWidth 32))
      ∧ (¬ timedOut → se.link = .connected → isOver → var = 1 →
        SessionDone s t
          { se with linkWdog := lw, wdogCnt := wd, call := .idle, activeSid := 0, srcId := 0, dstId := 0, frameCnt := 0
                    fragPresent := 0, fragBuf := List.replicate s.par.reasmMax false }
          { valid := true } (wd.setWidth 32) (lw.setWidth 32))
      ∧ (¬ timedOut → se.link = .connected → ¬ (active ∧ d.wdogLimit ≤ wd.toNat) → ¬ (isOver ∧ var = 1) →
        SessionDone s t { se with linkWdog := lw, wdogCnt := wd } { valid := true }
          (wd.setWidth 32) (lw.setWidth 32))

/-- STXS starts an outbound call, STXE requests its end: before the header it sets STOP_REQ, in the stream it moves to
TX_ENDING (47_session.md R275, R276). -/
def Obligations.StxsStartsAndStxeStops : Prop :=
  ∀ s : State,
    (∀ (imm : BitVec 32) (d : Descriptor), s.session.link = .connected → s.session.txs = .idle → s.backend = some d →
      d.tx.isSome = true →
      ∃ t : State, exec (.stxs imm) s = .next t
        ∧ SessionDone s t { s.session with txSid := imm, txSeq := 0, txs := .header, stopReq := false }
          { valid := true } 0 0)
    ∧ (s.session.txs = .header →
      ∃ t : State, exec .stxe s = .next t
        ∧ SessionDone s t { s.session with stopReq := true } { valid := true } 0 0)
    ∧ (s.session.txs = .stream →
      ∃ t : State, exec .stxe s = .next t
        ∧ SessionDone s t { s.session with txs := .ending } { valid := true } 0 0)

/-- STXT in CONNECTED: the keepalive step, and then nothing, the header, a voice frame when a payload is queued, or the
end frame, by TXS; each frame carries the session's fields and is encoded as FRENC would, and nothing outside the frame
region and the field block changes (47_session.md R277, R278, R281). That nothing is sent without transmit kinds while TXS
is not idle, in states no run reaches, is the model's choice of log entry 9. -/
def Obligations.StxtTransmits : Prop :=
  ∀ (s : State) (var : BitVec 4) (dst src : BitVec 16) (d : Descriptor), var.toNat ≤ 1 →
    StxtReady s dst.toNat src.toNat d →
    let due := decide (0 < d.kaInterval ∧ d.kaInterval ≤ s.session.kaCnt.toNat + 1)
    let ka := if due then 0 else if d.kaInterval = 0 then s.session.kaCnt else s.session.kaCnt + 1
    let se := { s.session with kaCnt := ka }
    let sent := fun (t : State) (k : Nat) (eot : Bool) (se' : Session) => ∃ kd : FrameKind, d.kinds[k]? = some kd
      ∧ FrameDone s t (buildFrame s.par d kd (putFields d kd eot s.session s.dmem src.toNat) dst.toNat src.toNat)
        dst.toNat s.txBits src.toNat d.fieldBits se' { valid := true, txframe := true, kadue := due }
        (BitVec.ofNat 32 kd.lenBits) (BitVec.ofNat 32 k)
    ∃ t : State, exec (.stxt var dst src) s = .next t
      ∧ ((s.session.txs = .idle ∨ d.tx = none ∨ (s.session.txs = .stream ∧ var = 0)) →
        SessionDone s t se { valid := true, kadue := due } 0 0)
      ∧ (∀ x : TxKinds, d.tx = some x → s.session.txs = .header →
        sent t x.header false
          { se with txSeq := se.txSeq + 1, txs := if se.stopReq then .ending else .stream, stopReq := false })
      ∧ (∀ x : TxKinds, d.tx = some x → s.session.txs = .stream → var = 1 →
        sent t x.voice false { se with txSeq := se.txSeq + 1 })
      ∧ (∀ x : TxKinds, d.tx = some x → s.session.txs = .ending →
        sent t x.term true { se with txs := .idle, stopReq := false, txSid := 0, txSeq := 0 })

/-- The outcomes with no effect (60_exceptions.md R302): a session command in a state that does not accept it writes ERR
alone, RES = 0 and RES2 = 0, and nothing else; FATAL_LOCK comes before BAD_STATE (R310). -/
def Obligations.RefusedSessionCommandsDoNothing : Prop :=
  ∀ (s : State) (var sel : BitVec 4) (imm : BitVec 32) (len dst src : BitVec 16) (d : Descriptor),
    let refused := fun (x : ErrCode) (i : Instr) => ∃ t : State, exec i s = .next t ∧ ReadOnlyDone s t { err := x } 0 0
    (var.toNat ≤ 1 → s.par.slot sel = some d → src.toNat + 128 ≤ s.par.dmemBits →
      (s.fault.fatal = true → refused .fatalLock (.scon var sel src))
      ∧ (s.fault.fatal = false → s.session.link ≠ .disconnected → refused .badState (.scon var sel src)))
    ∧ (s.session.link ≠ .connecting → refused .badState (.slnk 0))
    ∧ (s.session.link ≠ .auth → refused .badState (.slnk 1) ∧ refused .badState (.slnk 2))
    ∧ (s.session.link = .disconnected →
      refused .badState (.slnk 3) ∧ (var.toNat ≤ 1 → refused .badState (.srxt var)))
    ∧ (s.session.link ≠ .connected → 1 ≤ len.toNat → src.toNat + len.toNat ≤ s.par.dmemBits →
      dst.toNat + s.fieldBits ≤ s.par.dmemBits → overlaps src.toNat len.toNat dst.toNat s.fieldBits = false →
      refused .badState (.srxf len dst src))
    ∧ (s.session.link ≠ .connected → var.toNat ≤ 1 → src.toNat + s.fieldBits ≤ s.par.dmemBits →
      dst.toNat + s.txBits ≤ s.par.dmemBits → overlaps dst.toNat s.txBits src.toNat s.fieldBits = false →
      refused .badState (.stxt var dst src))
    ∧ ((s.session.link ≠ .connected ∨ s.session.txs ≠ .idle ∨ s.session.backendValid = false
        ∨ (s.backend = some d ∧ d.tx = none)) → refused .badState (.stxs imm))
    ∧ ((s.session.txs = .idle ∨ s.session.txs = .ending) → refused .badState .stxe)

/-! ## Rules of the whole machine -/

/-- Every step keeps every invariant: DMEM in canonical form and inside its size, a cleared session while DISCONNECTED
(47_session.md R255), no call outside CONNECTED (10_state.md R31), cleared call-scoped registers in IDLE (R44), a
descriptor behind every link, counters below their limits, a consistent FAULT. -/
def Obligations.StepKeepsSafe : Prop :=
  ∀ s t : State, Safe s → step s = .next t → Safe t

/-- The link returns to DISCONNECTED only by AUTH_FAIL, the link watchdog, SDIS and reset, and no frame changes it
(47_session.md R254). -/
def Obligations.OnlyTheseReturnToDisconnected : Prop :=
  (∀ s t : State, step s = .next t → s.session.link ≠ .disconnected → t.session.link = .disconnected →
    (∃ r : List HostEvent, s.pending = .reset :: r)
    ∨ ∃ (r : List HostEvent) (v : Word) (i : Instr), s.pending = .write 0x0004#16 .word v :: r
      ∧ decode (v ++ s.cmdLo) = .ok i
      ∧ ((i = .slnk 2 ∧ s.session.link = .auth ∧ t.status.err = .authFail)
        ∨ i = .sdis
        ∨ (∃ var : BitVec 4, i = .srxt var ∧ t.status.err = .linkTimeout)))
  ∧ (∀ (s t : State) (len dst src : BitVec 16), exec (.srxf len dst src) s = .next t →
    t.session.link = s.session.link)

/-- A codec command changes no session register, and DMEM, STATUS, RES and RES2 after it depend on the command, the
parameters and DMEM alone, unless it faults (20_memory.md R72). -/
def Obligations.CodecCommandsArePure : Prop :=
  ∀ (i : Instr) (s t : State), isCodec i = true → exec i s = .next t →
    t = { s with dmem := t.dmem, status := t.status, res := t.res, res2 := t.res2, fault := t.fault }
    ∧ (t.status.err.isFault = false → t.fault = s.fault)
    ∧ ∀ s' t' : State, s'.cfg = s.cfg → s'.dmem = s.dmem → exec i s' = .next t' →
        t'.dmem = t.dmem ∧ t'.status = t.status
        ∧ (t.status.err.isFault = false → t'.res = t.res ∧ t'.res2 = t.res2)

/-- A started transmission ends only with the end frame or with the link (47_session.md R279): the command that takes
TXS back to TX_IDLE leaves the link DISCONNECTED, or is the STXT that sent the end frame. -/
def Obligations.TransmissionsEndWithTheEndFrame : Prop :=
  ∀ (i : Instr) (s t : State), exec i s = .next t → s.session.txs ≠ .idle → t.session.txs = .idle →
    t.session.link = .disconnected
    ∨ ∃ (var : BitVec 4) (dst src : BitVec 16) (d : Descriptor) (x : TxKinds), i = .stxt var dst src
      ∧ s.session.txs = .ending ∧ s.backend = some d ∧ d.tx = some x ∧ t.status.txframe = true
      ∧ t.res2 = BitVec.ofNat 32 x.term
end

