-- ==== Sys2Proof/Laws/Bits.lean ====
section
/-! SUPPORT. Lemmas about bit vectors: lengths, and the reading as an integer and back. -/

namespace Sys2Proof

@[simp] theorem Bits.length_ofNat (n v : Nat) : (Bits.ofNat n v).length = n := by simp [Bits.ofNat]

@[simp] theorem Bits.length_ofByte (b : Byte) : (Bits.ofByte b).length = 8 := by simp [Bits.ofByte]

@[simp] theorem Bits.length_zeros (n : Nat) : (Bits.zeros n).length = n := by simp [Bits.zeros]

@[simp] theorem Bits.length_flip (v : Bits) (k : Nat) : (v.flip k).length = v.length := by simp [Bits.flip]

@[simp] theorem Bits.length_setMany (v : Bits) (xs : List (Nat × Bool)) : (v.setMany xs).length = v.length := by
  unfold Bits.setMany
  induction xs generalizing v with
  | nil => rfl
  | cons x r ih => rw [List.foldl_cons, ih, List.length_set]

theorem Bits.length_splice (v u : Bits) (k : Nat) (h : k + u.length ≤ v.length) :
    (v.splice k u).length = v.length := by
  simp only [Bits.splice, List.length_append, List.length_take, List.length_drop]
  omega

@[simp] theorem Bits.toNat_nil : Bits.toNat [] = 0 := rfl

/-- The integer of a vector with one more bit at its end. -/
theorem Bits.toNat_append_singleton (v : Bits) (b : Bool) : Bits.toNat (v ++ [b]) = 2 * v.toNat + b.toNat := by
  simp [Bits.toNat, List.foldl_append]

theorem Bits.ofNat_succ (n v : Nat) : Bits.ofNat (n + 1) v = Bits.ofNat n (v / 2) ++ [v.testBit 0] := by
  simp only [Bits.ofNat, List.range_succ, List.map_append, List.map_cons, List.map_nil]
  congr 1
  · refine List.map_congr_left fun i hi => ?_
    have hi' : i < n := List.mem_range.mp hi
    rw [← Nat.testBit_succ]
    congr 1
    omega
  · congr 2
    omega

/-- A number written in `n` bits reads back modulo `2 ^ n`. -/
theorem Bits.toNat_ofNat (n v : Nat) : (Bits.ofNat n v).toNat = v % 2 ^ n := by
  induction n generalizing v with
  | zero => simp [Bits.ofNat, Bits.toNat, Nat.mod_one]
  | succ n ih =>
    rw [Bits.ofNat_succ, Bits.toNat_append_singleton, ih]
    have hb : (v.testBit 0).toNat = v % 2 := by
      rw [Nat.testBit_zero]
      rcases Nat.mod_two_eq_zero_or_one v with h | h <;> simp [h]
    have hm : v % 2 ^ (n + 1) = v % 2 + 2 * (v / 2 % 2 ^ n) := by
      rw [Nat.pow_succ, Nat.mul_comm, Nat.mod_mul]
    omega

/-- A vector's integer lies below `2 ^ length`. -/
theorem Bits.toNat_lt (v : Bits) : v.toNat < 2 ^ v.length := by
  induction v using List.reverseRecOn with
  | nil => simp
  | append_singleton v b ih =>
    rw [Bits.toNat_append_singleton, List.length_append, List.length_singleton, Nat.pow_succ]
    have : b.toNat ≤ 1 := Bool.toNat_le b
    omega

/-- A vector is the bits of its integer. -/
theorem Bits.ofNat_toNat (v : Bits) : Bits.ofNat v.length v.toNat = v := by
  induction v using List.reverseRecOn with
  | nil => rfl
  | append_singleton v b ih =>
    rw [List.length_append, List.length_singleton, Bits.ofNat_succ, Bits.toNat_append_singleton]
    have h1 : (2 * Bits.toNat v + b.toNat) / 2 = Bits.toNat v := by
      have : b.toNat ≤ 1 := Bool.toNat_le b
      omega
    have h2 : (2 * Bits.toNat v + b.toNat).testBit 0 = b := by
      rw [Nat.testBit_zero]
      cases b <;> simp [Nat.add_mod]
    rw [h1, h2, ih]

end Sys2Proof
end

