-- ==== Sys2Proof/Laws/Memory.lean ====
section
/-! SUPPORT. The laws of DMEM: a read after a write gives the value written, a write leaves every other place alone, and
every operation keeps the canonical form. -/

namespace Sys2Proof.Machine

/-! ## Cells -/

theorem lookupCell_insertCell_same (l : List Host.Cell) (a : Nat) (v : Byte) :
    lookupCell (insertCell l a v) a = some v := by
  induction l with
  | nil => simp [insertCell, lookupCell]
  | cons c r ih =>
    obtain ⟨k, w⟩ := c
    unfold insertCell
    split
    · simp [lookupCell]
    · split
      · simp [lookupCell]
      · simp only [lookupCell]
        rw [if_neg (by omega), ih]

theorem lookupCell_insertCell_ne (l : List Host.Cell) (a b : Nat) (v : Byte) (h : b ≠ a) :
    lookupCell (insertCell l a v) b = lookupCell l b := by
  induction l with
  | nil => simp [insertCell, lookupCell, h.symm]
  | cons c r ih =>
    obtain ⟨k, w⟩ := c
    unfold insertCell
    split
    · simp [lookupCell, h.symm]
    · split
      · simp only [lookupCell]
        rw [if_neg (by omega), if_neg (by omega)]
      · simp only [lookupCell, ih]

theorem mem_insertCell {l : List Host.Cell} {a : Nat} {v : Byte} {c : Host.Cell} (h : c ∈ insertCell l a v) :
    c = (a, v) ∨ c ∈ l := by
  induction l with
  | nil => simpa [insertCell] using h
  | cons x r ih =>
    obtain ⟨k, w⟩ := x
    unfold insertCell at h
    split at h
    · simpa using h
    · split at h
      · rcases List.mem_cons.mp h with rfl | h
        · exact .inl rfl
        · exact .inr (List.mem_cons_of_mem _ h)
      · rcases List.mem_cons.mp h with rfl | h
        · exact .inr List.mem_cons_self
        · exact (ih h).imp_right (List.mem_cons_of_mem _)

/-- Setting a byte keeps the canonical form. -/
theorem insertCell_rising {l : List Host.Cell} (h : l.Pairwise (fun x y => x.1 < y.1)) (a : Nat) (v : Byte) :
    (insertCell l a v).Pairwise (fun x y => x.1 < y.1) := by
  induction l with
  | nil => simp [insertCell]
  | cons c r ih =>
    obtain ⟨k, w⟩ := c
    obtain ⟨hk, hr⟩ := List.pairwise_cons.mp h
    unfold insertCell
    split
    next hlt =>
      refine List.pairwise_cons.mpr ⟨fun c hc => ?_, h⟩
      rcases List.mem_cons.mp hc with rfl | hc
      · exact hlt
      · exact Nat.lt_trans hlt (hk c hc)
    next hge =>
      split
      next heq => exact List.pairwise_cons.mpr ⟨fun c hc => heq ▸ hk c hc, hr⟩
      next hne =>
        refine List.pairwise_cons.mpr ⟨fun c hc => ?_, ih hr⟩
        rcases mem_insertCell hc with rfl | hc
        · show k < a
          omega
        · exact hk c hc

/-! ## Bytes -/

@[simp] theorem Memory.setByte_epoch (m : Memory) (a : Nat) (v : Byte) : (m.setByte a v).epoch = m.epoch := rfl

@[simp] theorem Memory.byte_setByte_same (m : Memory) (a : Nat) (v : Byte) : (m.setByte a v).byte a = v := by
  simp [Memory.byte, Memory.setByte, lookupCell_insertCell_same]

theorem Memory.byte_setByte_ne (m : Memory) (a b : Nat) (v : Byte) (h : b ≠ a) :
    (m.setByte a v).byte b = m.byte b := by
  simp [Memory.byte, Memory.setByte, lookupCell_insertCell_ne _ _ _ _ h]

theorem Memory.setByte_wf {m : Memory} (h : m.wf) (a : Nat) (v : Byte) : (m.setByte a v).wf :=
  insertCell_rising h a v

/-! ## Bits -/

theorem setByteBit_getLsbD (x : Byte) (i j : Nat) (v : Bool) (hi : i < 8) (hj : j < 8) :
    (setByteBit x i v).getLsbD j = if j = i then v else x.getLsbD j := by
  have h1 : (1#8 <<< i).getLsbD j = decide (j = i) := by
    rw [BitVec.getLsbD_shiftLeft]
    by_cases h : j = i
    · subst h; simp [hj]
    · rcases Nat.lt_or_gt_of_ne h with hlt | hgt
      · simp [h, hlt]
      · have : j - i ≠ 0 := by omega
        simp [h, BitVec.getLsbD_one, this]
  unfold setByteBit
  cases v
  · rw [if_neg (by decide), BitVec.getLsbD_and, BitVec.getLsbD_not, h1]
    by_cases h : j = i <;> simp [h, hj]
  · rw [if_pos rfl, BitVec.getLsbD_or, h1]
    by_cases h : j = i <;> simp [h]

theorem Memory.bit_setBit_same (m : Memory) (b : Nat) (v : Bool) : (m.setBit b v).bit b = v := by
  unfold Memory.bit Memory.setBit
  rw [Memory.byte_setByte_same, setByteBit_getLsbD _ _ _ _ (by omega) (by omega), if_pos rfl]

theorem Memory.bit_setBit_ne (m : Memory) (b c : Nat) (v : Bool) (h : c ≠ b) : (m.setBit b v).bit c = m.bit c := by
  unfold Memory.bit Memory.setBit
  by_cases hd : c / 8 = b / 8
  · rw [hd, Memory.byte_setByte_same, setByteBit_getLsbD _ _ _ _ (by omega) (by omega), if_neg (by omega)]
  · rw [Memory.byte_setByte_ne _ _ _ _ hd]

theorem Memory.setBit_wf {m : Memory} (h : m.wf) (b : Nat) (v : Bool) : (m.setBit b v).wf :=
  Memory.setByte_wf h _ _

theorem Memory.byte_setBit_ne (m : Memory) (b k : Nat) (v : Bool) (h : k ≠ b / 8) : (m.setBit b v).byte k = m.byte k :=
  Memory.byte_setByte_ne _ _ _ _ h

/-! ## Bit fields -/

@[simp] theorem Memory.length_readBits (m : Memory) (a n : Nat) : (m.readBits a n).length = n := by
  simp [Memory.readBits]

@[simp] theorem Memory.get_readBits (m : Memory) (a n i : Nat) (h : i < n) : (m.readBits a n).get i = m.bit (a + i) := by
  simp [Bits.get, Memory.readBits, h]

@[simp] theorem Memory.writeBits_nil (m : Memory) (a : Nat) : m.writeBits a [] = m := rfl

/-- A write leaves every bit outside its range alone. -/
theorem Memory.bit_writeBits_out (m : Memory) (a b : Nat) (v : Bits) (h : b < a ∨ a + v.length ≤ b) :
    (m.writeBits a v).bit b = m.bit b := by
  induction v generalizing m a with
  | nil => rfl
  | cons x r ih =>
    rw [List.length_cons] at h
    rw [Memory.writeBits, ih _ _ (by omega), Memory.bit_setBit_ne _ _ _ _ (by omega)]

/-- A bit inside the range of a write reads back. -/
theorem Memory.bit_writeBits_in (m : Memory) (a i : Nat) (v : Bits) (h : i < v.length) :
    (m.writeBits a v).bit (a + i) = v.get i := by
  induction v generalizing m a i with
  | nil => simp at h
  | cons x r ih =>
    rw [Memory.writeBits]
    cases i with
    | zero => rw [Memory.bit_writeBits_out _ _ _ _ (by omega)]; exact Memory.bit_setBit_same _ _ _
    | succ i =>
      have := ih (m.setBit a x) (a + 1) i (by simpa using h)
      rw [Nat.add_right_comm] at this
      simpa [Bits.get, Nat.add_assoc] using this

/-- A byte that holds none of the written bits is unchanged. -/
theorem Memory.byte_writeBits_out (m : Memory) (a k : Nat) (v : Bits) (h : 8 * k + 8 ≤ a ∨ a + v.length ≤ 8 * k) :
    (m.writeBits a v).byte k = m.byte k := by
  induction v generalizing m a with
  | nil => rfl
  | cons x r ih =>
    rw [List.length_cons] at h
    rw [Memory.writeBits, ih _ _ (by omega), Memory.byte_setBit_ne _ _ _ _ (by omega)]

/-- What was written reads back. -/
theorem Memory.readBits_writeBits (m : Memory) (a : Nat) (v : Bits) : (m.writeBits a v).readBits a v.length = v := by
  refine List.ext_getElem (by simp) fun i h1 h2 => ?_
  have := Memory.bit_writeBits_in m a i v h2
  simpa [Memory.readBits, Bits.get, h2] using this

/-- A field outside the range of a write reads as before. -/
theorem Memory.readBits_writeBits_out (m : Memory) (a b n : Nat) (v : Bits) (h : b + n ≤ a ∨ a + v.length ≤ b) :
    (m.writeBits a v).readBits b n = m.readBits b n := by
  refine List.map_congr_left fun i hi => ?_
  have : i < n := List.mem_range.mp hi
  exact Memory.bit_writeBits_out _ _ _ _ (by omega)

theorem Memory.writeBits_wf {m : Memory} (h : m.wf) (a : Nat) (v : Bits) : (m.writeBits a v).wf := by
  induction v generalizing m a with
  | nil => exact h
  | cons x r ih => exact ih (Memory.setBit_wf h _ _) _

@[simp] theorem Memory.writeBits_epoch (m : Memory) (a : Nat) (v : Bits) : (m.writeBits a v).epoch = m.epoch := by
  induction v generalizing m a with
  | nil => rfl
  | cons x r ih => rw [Memory.writeBits, ih]; rfl

/-- A write whose range lies inside DMEM lists no byte outside it. -/
theorem Memory.writeBits_inside {m : Memory} {n : Nat} (h : ∀ c ∈ m.cells, c.1 < n) (a : Nat) (v : Bits)
    (hv : a + v.length ≤ 8 * n) : ∀ c ∈ (m.writeBits a v).cells, c.1 < n := by
  induction v generalizing m a with
  | nil => exact h
  | cons x r ih =>
    rw [List.length_cons] at hv
    refine ih (fun c hc => ?_) (a + 1) (by omega)
    rcases mem_insertCell hc with rfl | hc
    · show a / 8 < n
      omega
    · exact h c hc

/-- Storing bits: what a command's `WriteBits` does to DMEM, whole. -/
theorem Memory.writeBits_stored (m : Memory) (a : Nat) (v : Bits) : Stored m (m.writeBits a v) a v where
  reads := m.readBits_writeBits a v
  otherBits := fun b hb => m.bit_writeBits_out a b v hb
  otherBytes := fun k hk => m.byte_writeBits_out a k v hk

end Sys2Proof.Machine
end

