-- ==== Sys2Proof/Laws/Codec.lean ====
section
/-! SUPPORT. What the codec rules and the frame programs can do to DMEM: how many bits each rule writes and where, and
that a frame program changes nothing outside its two regions. -/

namespace Sys2Proof

/-! ## Lengths of the outputs -/

@[simp] theorem length_hamChecks (eqs : List (List Nat)) (d : Bits) : (hamChecks eqs d).length = eqs.length := by
  simp [hamChecks]

/-- Equations that make a Hamming code are four. -/
theorem hamOk_length {eqs : List (List Nat)} {k : Nat} (h : hamOk eqs k = true) : eqs.length = 4 := by
  simp only [hamOk, Bool.and_eq_true, beq_iff_eq] at h
  exact h.1.1.1

/-- Both Hamming codes of a well-formed parameter set have four check bits. -/
theorem Params.wf_ham {p : Params} (h : p.wf = true) : p.ham15Eq.length = 4 ∧ p.ham13Eq.length = 4 := by
  simp only [Params.wf, Bool.and_eq_true] at h
  exact ⟨hamOk_length h.1.1.1.1.1.2, hamOk_length h.1.1.1.1.2⟩

/-- A descriptor a slot holds is well-formed. -/
theorem Params.slot_wf {p : Params} (h : p.wf = true) {sel : BitVec 4} {d : Descriptor} (hd : p.slot sel = some d) :
    d.wf p.vitMax p.reasmMax = true := by
  simp only [Params.wf, Bool.and_eq_true] at h
  have hall := h.2
  rw [List.all_eq_true] at hall
  unfold Params.slot at hd
  cases hx : p.desc[sel.toNat]? with
  | none => simp [hx] at hd
  | some o =>
    have ho : o = some d := by simpa [hx] using hd
    have := hall o (List.mem_of_getElem? hx)
    simpa [ho] using this

namespace Machine

@[simp] theorem length_interleave (t : List Nat) (v : Bits) : (interleave t v).length = t.length := by
  simp [interleave]

@[simp] theorem length_deinterleave (t : List Nat) (v : Bits) : (deinterleave t v).length = t.length := by
  simp [deinterleave]

@[simp] theorem length_whitenBits (w : List Byte) : (whitenBits w).length = 8 * w.length := by
  induction w with
  | nil => rfl
  | cons b r ih =>
    simp only [whitenBits, List.flatMap_cons, List.length_append, Bits.length_ofByte, List.length_cons] at *
    omega

/-- A sequence at least as long as the vector leaves its length alone. -/
theorem length_scramble (w : List Byte) (v : Bits) (h : v.length ≤ 8 * w.length) :
    (scramble w v).length = v.length := by
  simp [scramble, h]

@[simp] theorem length_convEncode (p : Params) (st : Nat) (v : Bits) : (convEncode p st v).length = 2 * v.length := by
  induction v generalizing st with
  | nil => rfl
  | cons b r ih =>
    simp only [convEncode, List.length_cons, ih]
    omega

/-- The forward recursion keeps one list of predecessors per received pair. -/
theorem length_vitForward (p : Params) (pm : Metrics) (preds : List (List Nat)) (v : Bits) :
    (vitForward p pm preds v).2.length = preds.length + v.length / 2 := by
  fun_induction vitForward p pm preds v with
  | case1 pm preds r0 r1 r sel ih =>
    rw [ih]
    simp only [List.length_cons]
    omega
  | case2 v pm preds h =>
    match v with
    | [] => rfl
    | [_] => simp
    | a :: b :: r => exact absurd rfl (h a b r)

@[simp] theorem length_vitChain (st : Nat) (preds : List (List Nat)) (out : Bits) :
    (vitChain st preds out).length = preds.length + out.length := by
  induction preds generalizing st out with
  | nil => simp [vitChain]
  | cons pr r ih =>
    simp only [vitChain, ih, List.length_cons]
    omega

@[simp] theorem length_bptcEncode (p : Params) (v : Bits) : (bptcEncode p v).length = 196 := by
  simp [bptcEncode, bptcPermute, bptcN]

@[simp] theorem length_bptcDataPos : bptcDataPos.length = 96 := by decide

/-- The machine's payload positions are those of the table of 43_bptc.md R174. -/
theorem bptcDataPos_eq : bptcDataPos = (List.range 96).map bptcPayloadIndex := by decide

theorem length_hamFix (eqs : List (List Nat)) (k : Nat) (r : Bits) (syn : Nat) :
    (hamFix eqs k r syn).length = r.length := by
  unfold hamFix
  split <;> simp

/-! ## Where a rule writes -/

/-- What a codec rule can do to DMEM, for operands whose VAR, table index and LEN are legal: it writes nothing, or the
whole range at DST that its range check covers, or part of the range at SRC (the appended CRCs of 41_crc.md R123,
R128). -/
theorem stepRule_range {p : Params} (hp : p.wf = true) (op : StepOp) (d : Descriptor) (m : Memory) (x : Operands)
    (hlen : op.lenOk p.vitMax d x.var x.len = true) :
    (stepRule op p d m x).bits = []
      ∨ (op.usesDst = true ∧ (stepRule op p d m x).addr = x.dst
        ∧ (stepRule op p d m x).bits.length = op.dstBits x.len)
      ∨ (op.usesSrc = true ∧ x.src ≤ (stepRule op p d m x).addr
        ∧ (stepRule op p d m x).addr + (stepRule op p d m x).bits.length ≤ x.src + op.srcBits x.len) := by
  obtain ⟨h15, h13⟩ := p.wf_ham hp
  cases op with
  | movb => exact .inr (.inl ⟨rfl, rfl, by simp [stepRule, ruleMovb, StepOp.dstBits]⟩)
  | fill => exact .inr (.inl ⟨rfl, rfl, by simp [stepRule, ruleFill, StepOp.dstBits]⟩)
  | crc16 => exact .inl rfl
  | crc16v => exact .inl rfl
  | crcs => exact .inl rfl
  | crcsv => exact .inl rfl
  | crc16a =>
    have h3 : 3 ≤ x.len := by simpa [StepOp.lenOk] using hlen
    refine .inr (.inr ⟨rfl, ?_, ?_⟩)
    · simp [stepRule, ruleCrc16a]
    · simp only [stepRule, ruleCrc16a, Bits.length_ofNat, StepOp.srcBits]
      omega
  | crcsa =>
    have h3 : crcsWidth x.var + 1 ≤ x.len := by simpa [StepOp.lenOk] using hlen
    refine .inr (.inr ⟨rfl, ?_, ?_⟩)
    · simp [stepRule, ruleCrcsa]
    · simp only [stepRule, ruleCrcsa, Bits.length_ofNat, StepOp.srcBits]
      omega
  | gol24e => exact .inr (.inl ⟨rfl, rfl, by simp [stepRule, ruleGol24e, StepOp.dstBits]⟩)
  | gol23e => exact .inr (.inl ⟨rfl, rfl, by simp [stepRule, ruleGol23e, StepOp.dstBits]⟩)
  | gol23d => exact .inr (.inl ⟨rfl, rfl, by simp [stepRule, ruleGol23d, StepOp.dstBits]⟩)
  | gol24d =>
    have hg : ∀ o : Option Nat, golayNearest (enc24 p) 24 (m.readBits x.src 24).toNat = o →
        (ruleGol24d p d m x).addr = x.dst ∧ (ruleGol24d p d m x).bits.length = 12 := by
      intro o ho
      unfold ruleGol24d
      dsimp only
      rw [ho]
      cases o <;> exact ⟨rfl, Bits.length_ofNat _ _⟩
    exact .inr (.inl ⟨rfl, hg _ rfl⟩)
  | h1511e => exact .inr (.inl ⟨rfl, rfl, by simp [stepRule, ruleH1511e, encoded, StepOp.dstBits, h15]⟩)
  | h1611e => exact .inr (.inl ⟨rfl, rfl, by simp [stepRule, ruleH1611e, encoded, extendParity, StepOp.dstBits, h15]⟩)
  | h139e => exact .inr (.inl ⟨rfl, rfl, by simp [stepRule, ruleH139e, encoded, StepOp.dstBits, h13]⟩)
  | h1511d =>
    refine .inr (.inl ⟨rfl, ?_, ?_⟩) <;>
    · simp only [stepRule, ruleH1511d, StepOp.dstBits]
      split <;> simp [decoded, length_hamFix]
  | h1611d =>
    refine .inr (.inl ⟨rfl, ?_, ?_⟩) <;>
    · simp only [stepRule, ruleH1611d, StepOp.dstBits]
      repeat' split
      all_goals simp [decoded, undecoded, length_hamFix]
  | h139d =>
    refine .inr (.inl ⟨rfl, ?_, ?_⟩) <;>
    · simp only [stepRule, ruleH139d, StepOp.dstBits]
      repeat' split
      all_goals simp [decoded, undecoded, length_hamFix]
  | bptce => exact .inr (.inl ⟨rfl, rfl, by simp [stepRule, ruleBptce, StepOp.dstBits]⟩)
  | bptcd => exact .inr (.inl ⟨rfl, rfl, by simp [stepRule, ruleBptcd, StepOp.dstBits]⟩)
  | conve =>
    have h2 : x.len % 2 = 0 ∧ 2 ≤ x.len ∧ x.len ≤ 2 * p.vitMax := by simpa [StepOp.lenOk] using hlen
    refine .inr (.inl ⟨rfl, rfl, ?_⟩)
    simp only [stepRule, ruleConve, length_convEncode, Memory.length_readBits, StepOp.dstBits]
    omega
  | vitd =>
    refine .inr (.inl ⟨rfl, rfl, ?_⟩)
    simp only [stepRule, ruleVitd, length_vitChain, length_vitForward, Memory.length_readBits, StepOp.dstBits,
      List.length_nil]
    omega
  | ilv =>
    have h2 : x.len = (d.ilv.getD x.var []).length := by simpa [StepOp.lenOk] using hlen
    exact .inr (.inl ⟨rfl, rfl, by simp [stepRule, ruleIlv, StepOp.dstBits, h2]⟩)
  | dilv =>
    have h2 : x.len = (d.ilv.getD x.var []).length := by simpa [StepOp.lenOk] using hlen
    exact .inr (.inl ⟨rfl, rfl, by simp [stepRule, ruleDilv, StepOp.dstBits, h2]⟩)
  | scr =>
    have h2 : 1 ≤ x.len ∧ x.len ≤ 8 * (d.whiten.getD x.var []).length := by simpa [StepOp.lenOk] using hlen
    refine .inr (.inl ⟨rfl, rfl, ?_⟩)
    simp only [stepRule, ruleScr, StepOp.dstBits]
    rw [length_scramble _ _ (by rw [Memory.length_readBits]; exact h2.2), Memory.length_readBits]

/-! ## Memory outside two regions -/

theorem KeptOutside.refl (m : Memory) (a n b k : Nat) : KeptOutside m m a n b k :=
  ⟨fun _ _ _ => rfl, fun _ _ _ => rfl⟩

theorem KeptOutside.trans {m m' m'' : Memory} {a n b k : Nat} (h : KeptOutside m m' a n b k)
    (h' : KeptOutside m' m'' a n b k) : KeptOutside m m'' a n b k :=
  ⟨fun x h1 h2 => (h'.bits x h1 h2).trans (h.bits x h1 h2), fun x h1 h2 => (h'.bytes x h1 h2).trans (h.bytes x h1 h2)⟩

/-- A write of no bits, or inside one of two regions, keeps what lies outside both. -/
theorem KeptOutside.writeBits (m : Memory) (c : Nat) (v : Bits) {a n b k : Nat}
    (h : v = [] ∨ (a ≤ c ∧ c + v.length ≤ a + n) ∨ (b ≤ c ∧ c + v.length ≤ b + k)) :
    KeptOutside m (m.writeBits c v) a n b k := by
  rcases h with rfl | h
  · exact .refl m a n b k
  · refine ⟨fun x h1 h2 => m.bit_writeBits_out c x v ?_, fun x h1 h2 => m.byte_writeBits_out c x v ?_⟩ <;>
    rcases h with h | h <;> omega

/-! ## Frame programs -/

/-- A property of DMEM that every step of a program keeps holds after the program. -/
theorem runProg_induct {P : Memory → Prop} {p : Params} {d : Descriptor} {w f : Nat} {prog : List Step} {m : Memory}
    (h0 : P m)
    (hs : ∀ t ∈ prog, ∀ m', P m' → P ((stepRule t.op p d m' (stepOperands w f t)).store m')) :
    P (runProg p d w f prog m).mem := by
  suffices H : ∀ (prog : List Step) (x : ProgState),
      (∀ t ∈ prog, ∀ m', P m' → P ((stepRule t.op p d m' (stepOperands w f t)).store m')) → P x.mem →
      P (prog.foldl (runStep p d w f) x).mem from H prog _ hs h0
  intro prog
  induction prog with
  | nil => exact fun _ _ hx => hx
  | cons t r ih =>
    intro x hs hx
    rw [List.foldl_cons]
    exact ih _ (fun u hu => hs u (List.mem_cons_of_mem _ hu)) (hs t List.mem_cons_self _ hx)

/-- A property of a step's outcome that holds of NONE and of every step's outcome holds of the CONTROL and VOICE failures
of a program. -/
theorem runProg_codes {Q : ErrCode → Prop} {p : Params} {d : Descriptor} {w f : Nat} {prog : List Step} {m : Memory}
    (h0 : Q .none) (hs : ∀ t ∈ prog, ∀ m', Q (stepRule t.op p d m' (stepOperands w f t)).err) :
    Q (runProg p d w f prog m).ctl ∧ Q (runProg p d w f prog m).voice := by
  suffices H : ∀ (prog : List Step) (x : ProgState),
      (∀ t ∈ prog, ∀ m', Q (stepRule t.op p d m' (stepOperands w f t)).err) → Q x.ctl ∧ Q x.voice →
      Q (prog.foldl (runStep p d w f) x).ctl ∧ Q (prog.foldl (runStep p d w f) x).voice from
    H prog _ hs ⟨h0, h0⟩
  intro prog
  induction prog with
  | nil => exact fun _ _ hx => hx
  | cons t r ih =>
    intro x hs hx
    rw [List.foldl_cons]
    refine ih _ (fun u hu => hs u (List.mem_cons_of_mem _ hu)) ⟨?_, ?_⟩
    · simp only [runStep, ErrCode.orElse]
      repeat' split
      exacts [hs t List.mem_cons_self _, hx.1, hx.1]
    · simp only [runStep, ErrCode.orElse]
      repeat' split
      exacts [hs t List.mem_cons_self _, hx.2, hx.2]

/-- The address of a step lies at its offset from its base's region. -/
theorem inRegion_bounds {d : Descriptor} {o : Option Nat} {base : Base} {off : BitVec 16} {n w f k : Nat}
    (ho : ∀ l, o = some l → l ≤ k) (h : inRegion d o base off.toNat n = true) :
    (w ≤ baseAddr w f base off ∧ baseAddr w f base off + n ≤ w + k)
      ∨ (f ≤ baseAddr w f base off ∧ baseAddr w f base off + n ≤ f + d.fieldBits) := by
  cases base with
  | wire =>
    cases o with
    | none => simp [inRegion] at h
    | some l =>
      have hl := ho l rfl
      have h' : off.toNat + n ≤ l := by simpa [inRegion] using h
      exact .inl (by simp only [baseAddr]; omega)
  | field =>
    have h' : off.toNat + n ≤ d.fieldBits := by simpa [inRegion] using h
    exact .inr (by simp only [baseAddr]; omega)

/-- A step that passes its static checks stores nothing outside the wire frame and the field block (46_frame.md R218,
condition 7; R222). -/
theorem step_range {p : Params} (hp : p.wf = true) {d : Descriptor} {o : Option Nat} {t : Step}
    (ht : t.wf p.vitMax d o = true) {w f k : Nat} (ho : ∀ l, o = some l → l ≤ k) (m : Memory) :
    let out := stepRule t.op p d m (stepOperands w f t)
    out.bits = [] ∨ (w ≤ out.addr ∧ out.addr + out.bits.length ≤ w + k)
      ∨ (f ≤ out.addr ∧ out.addr + out.bits.length ≤ f + d.fieldBits) := by
  simp only [Step.wf, Bool.and_eq_true, Bool.or_eq_true, Bool.not_eq_true'] at ht
  obtain ⟨⟨⟨⟨_, _⟩, hlen⟩, hsrc⟩, hdst⟩ := ht
  rcases stepRule_range hp t.op d m (stepOperands w f t) hlen with h | ⟨hu, ha, hl⟩ | ⟨hu, ha, hl⟩
  · exact .inl h
  · have hr := hdst.resolve_left (by simp [hu])
    have hx : (stepOperands w f t).dst = baseAddr w f t.dstBase t.dstOff := by simp [stepOperands, hu]
    have hy : (stepOperands w f t).len = t.len.toNat := rfl
    rw [hx] at ha
    rw [hy] at hl
    simp only
    rw [ha, hl]
    exact .inr (inRegion_bounds ho hr)
  · have hr := hsrc.resolve_left (by simp [hu])
    have hx : (stepOperands w f t).src = baseAddr w f t.srcBase t.srcOff := by simp [stepOperands, hu]
    have hy : (stepOperands w f t).len = t.len.toNat := rfl
    rw [hx] at ha hl
    rw [hy] at hl
    refine .inr ((inRegion_bounds (w := w) (f := f) ho hr).imp (fun h => ?_) fun h => ?_) <;> omega

/-- A well-formed frame program changes no bit and no byte of DMEM outside the wire frame and the field block. -/
theorem runProg_keptOutside {p : Params} (hp : p.wf = true) {d : Descriptor} {o : Option Nat} {prog : List Step}
    (h : progWf p.vitMax d o prog = true) {w f k : Nat} (ho : ∀ l, o = some l → l ≤ k) (m : Memory) :
    KeptOutside m (runProg p d w f prog m).mem w k f d.fieldBits := by
  simp only [progWf, Bool.and_eq_true, List.all_eq_true] at h
  exact runProg_induct (P := fun m' => KeptOutside m m' w k f d.fieldBits) (.refl ..)
    fun t ht m' hm => hm.trans (KeptOutside.writeBits _ _ _ (step_range hp (h.2 t ht) ho m'))

/-- A well-formed frame program keeps the canonical form of DMEM, and lists no byte outside it, when both its regions lie
inside it. -/
theorem runProg_inside {p : Params} (hp : p.wf = true) {d : Descriptor} {o : Option Nat} {prog : List Step}
    (h : progWf p.vitMax d o prog = true) {w f k n : Nat} (ho : ∀ l, o = some l → l ≤ k) (hw : w + k ≤ 8 * n)
    (hf : f + d.fieldBits ≤ 8 * n) {m : Memory} (hm : m.wf ∧ ∀ c ∈ m.cells, c.1 < n) :
    (runProg p d w f prog m).mem.wf ∧ ∀ c ∈ (runProg p d w f prog m).mem.cells, c.1 < n := by
  simp only [progWf, Bool.and_eq_true, List.all_eq_true] at h
  refine runProg_induct (P := fun m' => m'.wf ∧ ∀ c ∈ m'.cells, c.1 < n) hm fun t ht m' hm' => ?_
  refine ⟨Memory.writeBits_wf hm'.1 _ _, ?_⟩
  rcases step_range (w := w) (f := f) (k := k) hp (h.2 t ht) ho m' with hr | hr | hr
  · simpa [CodecOut.store, hr] using hm'.2
  · exact Memory.writeBits_inside hm'.2 _ _ (by omega)
  · exact Memory.writeBits_inside hm'.2 _ _ (by omega)

/-! ## The parser and the assembler -/

/-- What parsing a frame can do: no kind matches, or the kind `classify` finds runs its decode program on a cleared field
block. -/
theorem parseFrame_eq_some {p : Params} {d : Descriptor} {m : Memory} {w n f : Nat} {y : Parsed}
    (h : parseFrame p d m w n f = some y) :
    classify d m w n = some y.index ∧ d.kinds[y.index]? = some y.kind
      ∧ y.prog = runProg p d w f y.kind.decProg (m.writeBits f (Bits.zeros d.fieldBits)) := by
  unfold parseFrame at h
  cases hc : classify d m w n with
  | none => simp [hc] at h
  | some k =>
    rw [hc] at h
    cases hk : d.kinds[k]? with
    | none => simp [hk] at h
    | some kd =>
      simp only [hk, Option.some.injEq] at h
      subst h
      exact ⟨rfl, hk, rfl⟩

/-- A kind that `classify` finds exists, and has the frame's length. -/
theorem classify_kind {d : Descriptor} {m : Memory} {w n k : Nat} (h : classify d m w n = some k) :
    ∃ kd, d.kinds[k]? = some kd ∧ kd.lenBits = n := by
  obtain ⟨hk, hm, _⟩ := List.findIdx?_eq_some_iff_getElem.mp h
  refine ⟨d.kinds[k], List.getElem?_eq_getElem hk, ?_⟩
  simp only [kindMatches, Bool.and_eq_true, beq_iff_eq] at hm
  exact hm.1

/-- The kinds of a well-formed descriptor are well-formed. -/
theorem kind_wf {vitMax reasmMax : Nat} {d : Descriptor} (h : d.wf vitMax reasmMax = true) {k : Nat} {kd : FrameKind}
    (hk : d.kinds[k]? = some kd) : kd.wf vitMax d = true := by
  simp only [Descriptor.wf, Bool.and_eq_true, List.all_eq_true] at h
  exact h.1.1.1.1.1.1.2 kd (List.mem_of_getElem? hk)

/-- Both programs of a well-formed kind pass their static checks. -/
theorem kind_progs {vitMax : Nat} {d : Descriptor} {kd : FrameKind} (h : kd.wf vitMax d = true) :
    progWf vitMax d (some kd.lenBits) kd.decProg = true ∧ progWf vitMax d (some kd.lenBits) kd.encProg = true := by
  simp only [FrameKind.wf, Bool.and_eq_true] at h
  exact ⟨h.1.1.1.1.1.1.1.1.1.1.2, h.1.1.1.1.1.1.1.1.1.2⟩

/-- The embedded channel of a well-formed descriptor is well-formed. -/
theorem embedded_wf {vitMax reasmMax : Nat} {d : Descriptor} (h : d.wf vitMax reasmMax = true) {e : Embedded}
    (he : d.embedded = some e) : e.wf vitMax reasmMax d = true := by
  simp only [Descriptor.wf, Bool.and_eq_true] at h
  simpa [he] using h.1.1.1.1.1.2

/-- A parsed frame left DMEM outside the frame and the field block alone. -/
theorem parseFrame_keptOutside {p : Params} (hp : p.wf = true) {d : Descriptor} (hd : d.wf p.vitMax p.reasmMax = true)
    {m : Memory} {w n f : Nat} {y : Parsed} (h : parseFrame p d m w n f = some y) :
    KeptOutside m y.prog.mem w n f d.fieldBits := by
  obtain ⟨hc, hk, hy⟩ := parseFrame_eq_some h
  obtain ⟨kd, hkd, hlen⟩ := classify_kind hc
  rw [hk] at hkd
  cases Option.some.inj hkd
  rw [hy]
  refine (KeptOutside.writeBits m f _ (.inr (.inr ?_))).trans
    (runProg_keptOutside hp (kind_progs (kind_wf hd hk)).1 (fun l hl => ?_) _)
  · simp
  · cases hl
    exact Nat.le_of_eq hlen

/-- A built frame left DMEM outside the frame, of at most `n` bits, and the field block alone. -/
theorem buildFrame_keptOutside {p : Params} (hp : p.wf = true) {d : Descriptor} {kd : FrameKind}
    (hk : kd.wf p.vitMax d = true) (m : Memory) (w f : Nat) {n : Nat} (hn : kd.lenBits ≤ n) :
    KeptOutside m (buildFrame p d kd m w f) w n f d.fieldBits := by
  have hsync : ∀ y ∈ kd.syncs, y.off + y.n ≤ kd.lenBits := by
    intro y hy
    simp only [FrameKind.wf, Bool.and_eq_true, List.all_eq_true] at hk
    have := hk.1.1.1.1.1.1.1.1.1.1.1.2 y hy
    simp only [Sync.wf, decide_eq_true_eq] at this
    exact this.2.2.1
  have hs : ∀ (l : List Sync) (m' : Memory), (∀ y ∈ l, y.off + y.n ≤ kd.lenBits) →
      KeptOutside m' (l.foldl (writeSync w) m') w n f d.fieldBits := by
    intro l
    induction l with
    | nil => exact fun m' _ => .refl ..
    | cons y r ih =>
      intro m' hl
      rw [List.foldl_cons]
      refine (KeptOutside.writeBits m' _ _ (.inr (.inl ?_))).trans (ih _ fun z hz => hl z (List.mem_cons_of_mem _ hz))
      have := hl y List.mem_cons_self
      rw [Bits.length_ofNat]
      omega
  unfold buildFrame
  refine ((KeptOutside.writeBits m w _ (.inr (.inl ?_))).trans (hs _ _ hsync)).trans
    (runProg_keptOutside hp (kind_progs hk).2 (fun l hl => ?_) _)
  · rw [Bits.length_zeros]
    omega
  · cases hl
    exact hn

end Machine

end Sys2Proof
end

