-- ==== Sys2Proof/Laws/Decode.lean ====
section
/-! SUPPORT. The six fields of a command word: packing and unpacking undo each other. -/

namespace Sys2Proof

/-- The fields of the word of six fields are those fields. -/
theorem Fields.ofWord_word (f : Fields) : Fields.ofWord f.word = f := by
  obtain ⟨opc, var, sel, len, dst, src⟩ := f
  simp only [Fields.ofWord, Fields.word, Fields.mk.injEq]
  refine ⟨?_, ?_, ?_, ?_, ?_, ?_⟩ <;>
  · ext i hi
    simp only [BitVec.getElem_extractLsb', BitVec.getLsbD_append]
    repeat (split <;> try omega)
    rw [← BitVec.getLsbD_eq_getElem]
    congr 1
    omega

/-- The word of the fields of a word is that word. -/
theorem Fields.word_ofWord (w : Command) : (Fields.ofWord w).word = w := by
  refine BitVec.eq_of_getLsbD_eq fun i hi => ?_
  simp only [Fields.ofWord, Fields.word, BitVec.getLsbD_append, BitVec.getLsbD_extractLsb']
  repeat' split
  all_goals (rw [decide_eq_true (by omega), Bool.true_and]; congr 1; omega)

/-- A type byte is its two halves, VAR and SEL (30_encoding.md R82). -/
theorem typeByte_halves (ty : BitVec 8) : ty.extractLsb' 4 4 ++ ty.extractLsb' 0 4 = ty := by
  revert ty; decide

/-- A 32-bit immediate is its two halves, DST and SRC (30_encoding.md R82). -/
theorem imm32_halves (imm : BitVec 32) : imm.extractLsb' 16 16 ++ imm.extractLsb' 0 16 = imm := by
  refine BitVec.eq_of_getLsbD_eq fun i hi => ?_
  simp only [BitVec.getLsbD_append, BitVec.getLsbD_extractLsb']
  split
  all_goals (rw [decide_eq_true (by omega), Bool.true_and]; congr 1; omega)

/-- A legal check lets the command through. -/
theorem decodeIf_true {ok : Bool} (h : ok = true) (i : Instr) : decodeIf ok i = .ok i := by
  rw [decodeIf, if_pos h]

/-- What a check can do: let the command through, or reject it as RESERVED. -/
theorem decodeIf_eq_ok {ok : Bool} {i j : Instr} (h : decodeIf ok i = .ok j) : ok = true ∧ i = j := by
  unfold decodeIf at h
  split at h
  · exact ⟨‹_›, Except.ok.inj h⟩
  · cases h

/-- Decoding the word of six fields is decoding the fields. -/
theorem decode_word (f : Fields) : decode f.word = decodeFields f := by
  rw [decode, Fields.ofWord_word]

end Sys2Proof
end

