-- ==== Sys2Proof/Laws/PerInstr.lean ====
section
/-! SUPPORT. Statements about every command, one lemma per constructor of Instr. -/

namespace Sys2Proof.Laws.FieldsDecode

/-- The fields of a well-formed command decode to it: its opcode selects its row, its unused fields are zero and its VAR
is legal (30_encoding.md R84, R87). -/
def Statement (i : Instr) : Prop :=
  i.wf = true → decodeFields i.fields = .ok i

theorem nop : Statement (.nop) :=
  fun _ => rfl

theorem movb (len dst src : BitVec 16) : Statement (.movb len dst src) :=
  fun _ => rfl

theorem fill (var : BitVec 4) (len dst : BitVec 16) : Statement (.fill var len dst) :=
  by simp [Statement, Instr.wf, Instr.fields, decodeFields, decodeIf]; exact decide_eq_true

theorem crc16 (var sel : BitVec 4) (len src : BitVec 16) : Statement (.crc16 var sel len src) :=
  by simp [Statement, Instr.wf, Instr.fields, decodeFields, decodeIf]; exact decide_eq_true

theorem crc16a (var sel : BitVec 4) (len src : BitVec 16) : Statement (.crc16a var sel len src) :=
  by simp [Statement, Instr.wf, Instr.fields, decodeFields, decodeIf]; exact decide_eq_true

theorem crc16v (var sel : BitVec 4) (len src : BitVec 16) : Statement (.crc16v var sel len src) :=
  by simp [Statement, Instr.wf, Instr.fields, decodeFields, decodeIf]; exact decide_eq_true

theorem crcs (var : BitVec 4) (len src : BitVec 16) : Statement (.crcs var len src) :=
  by simp [Statement, Instr.wf, Instr.fields, decodeFields, decodeIf]; exact decide_eq_true

theorem crcsa (var : BitVec 4) (len src : BitVec 16) : Statement (.crcsa var len src) :=
  by simp [Statement, Instr.wf, Instr.fields, decodeFields, decodeIf]; exact decide_eq_true

theorem crcsv (var : BitVec 4) (len src : BitVec 16) : Statement (.crcsv var len src) :=
  by simp [Statement, Instr.wf, Instr.fields, decodeFields, decodeIf]; exact decide_eq_true

theorem gol24e (dst src : BitVec 16) : Statement (.gol24e dst src) :=
  fun _ => rfl

theorem gol24d (dst src : BitVec 16) : Statement (.gol24d dst src) :=
  fun _ => rfl

theorem gol23e (dst src : BitVec 16) : Statement (.gol23e dst src) :=
  fun _ => rfl

theorem gol23d (dst src : BitVec 16) : Statement (.gol23d dst src) :=
  fun _ => rfl

theorem h1511e (dst src : BitVec 16) : Statement (.h1511e dst src) :=
  fun _ => rfl

theorem h1511d (dst src : BitVec 16) : Statement (.h1511d dst src) :=
  fun _ => rfl

theorem h1611e (dst src : BitVec 16) : Statement (.h1611e dst src) :=
  fun _ => rfl

theorem h1611d (dst src : BitVec 16) : Statement (.h1611d dst src) :=
  fun _ => rfl

theorem h139e (dst src : BitVec 16) : Statement (.h139e dst src) :=
  fun _ => rfl

theorem h139d (dst src : BitVec 16) : Statement (.h139d dst src) :=
  fun _ => rfl

theorem bptce (dst src : BitVec 16) : Statement (.bptce dst src) :=
  fun _ => rfl

theorem bptcd (dst src : BitVec 16) : Statement (.bptcd dst src) :=
  fun _ => rfl

theorem conve (len dst src : BitVec 16) : Statement (.conve len dst src) :=
  fun _ => rfl

theorem vitd (len dst src : BitVec 16) : Statement (.vitd len dst src) :=
  fun _ => rfl

theorem ilv (var sel : BitVec 4) (len dst src : BitVec 16) : Statement (.ilv var sel len dst src) :=
  fun _ => rfl

theorem dilv (var sel : BitVec 4) (len dst src : BitVec 16) : Statement (.dilv var sel len dst src) :=
  fun _ => rfl

theorem scr (var sel : BitVec 4) (len dst src : BitVec 16) : Statement (.scr var sel len dst src) :=
  fun _ => rfl

theorem frdec (sel : BitVec 4) (len dst src : BitVec 16) : Statement (.frdec sel len dst src) :=
  fun _ => rfl

theorem frenc (var sel : BitVec 4) (dst src : BitVec 16) : Statement (.frenc var sel dst src) :=
  fun _ => rfl

theorem envp (ty : BitVec 8) (len dst src : BitVec 16) : Statement (.envp ty len dst src) :=
  fun _ => by
  simp only [Instr.fields, decodeFields]
  exact (congrArg (fun x => decodeIf true (.envp x len dst src)) (typeByte_halves ty)).trans rfl

theorem envu (len dst src : BitVec 16) : Statement (.envu len dst src) :=
  fun _ => rfl

theorem scon (var sel : BitVec 4) (src : BitVec 16) : Statement (.scon var sel src) :=
  by simp [Statement, Instr.wf, Instr.fields, decodeFields, decodeIf]; exact decide_eq_true

theorem slnk (var : BitVec 4) : Statement (.slnk var) :=
  by simp [Statement, Instr.wf, Instr.fields, decodeFields, decodeIf]; exact decide_eq_true

theorem sdis : Statement (.sdis) :=
  fun _ => rfl

theorem srxf (len dst src : BitVec 16) : Statement (.srxf len dst src) :=
  fun _ => rfl

theorem srxt (var : BitVec 4) : Statement (.srxt var) :=
  by simp [Statement, Instr.wf, Instr.fields, decodeFields, decodeIf]; exact decide_eq_true

theorem stxs (imm : BitVec 32) : Statement (.stxs imm) :=
  fun _ => by
  simp only [Instr.fields, decodeFields]
  exact (congrArg (fun x => decodeIf true (.stxs x)) (imm32_halves imm)).trans rfl

theorem stxe : Statement (.stxe) :=
  fun _ => rfl

theorem stxt (var : BitVec 4) (dst src : BitVec 16) : Statement (.stxt var dst src) :=
  by simp [Statement, Instr.wf, Instr.fields, decodeFields, decodeIf]; exact decide_eq_true

end Sys2Proof.Laws.FieldsDecode
end

