-- ==== Sys2Proof/Laws/State.lean ====
section
/-! SUPPORT. One lemma per field of State for each update of it. -/

namespace Sys2Proof.Machine

section
variable (s : State) (x : ErrCode) (m : Memory) (se : Session) (st : Status) (r r2 : Word)

@[simp] theorem State.finish_cfg : (s.finish m se st r r2).cfg = s.cfg := rfl
@[simp] theorem State.finish_dmem : (s.finish m se st r r2).dmem = m := rfl
@[simp] theorem State.finish_cmdLo : (s.finish m se st r r2).cmdLo = s.cmdLo := rfl
@[simp] theorem State.finish_cmdHi : (s.finish m se st r r2).cmdHi = s.cmdHi := rfl
@[simp] theorem State.finish_status : (s.finish m se st r r2).status = st := rfl
@[simp] theorem State.finish_res : (s.finish m se st r r2).res = r := rfl
@[simp] theorem State.finish_res2 : (s.finish m se st r r2).res2 = r2 := rfl
@[simp] theorem State.finish_fault : (s.finish m se st r r2).fault = s.fault := rfl
@[simp] theorem State.finish_session : (s.finish m se st r r2).session = se := rfl
@[simp] theorem State.finish_pending : (s.finish m se st r r2).pending = s.pending := rfl
@[simp] theorem State.finish_hostData : (s.finish m se st r r2).hostData = s.hostData := rfl

@[simp] theorem State.takeFault_cfg : (s.takeFault x).cfg = s.cfg := rfl
@[simp] theorem State.takeFault_dmem : (s.takeFault x).dmem = s.dmem := rfl
@[simp] theorem State.takeFault_cmdLo : (s.takeFault x).cmdLo = s.cmdLo := rfl
@[simp] theorem State.takeFault_cmdHi : (s.takeFault x).cmdHi = s.cmdHi := rfl
@[simp] theorem State.takeFault_status : (s.takeFault x).status = { err := x } := rfl
@[simp] theorem State.takeFault_res : (s.takeFault x).res = s.res := rfl
@[simp] theorem State.takeFault_res2 : (s.takeFault x).res2 = s.res2 := rfl
@[simp] theorem State.takeFault_session : (s.takeFault x).session = s.session := rfl
@[simp] theorem State.takeFault_pending : (s.takeFault x).pending = s.pending := rfl
@[simp] theorem State.takeFault_hostData : (s.takeFault x).hostData = s.hostData := rfl
@[simp] theorem State.takeFault_faulted : (s.takeFault x).fault.faulted = true := rfl
@[simp] theorem State.takeFault_fatal : (s.takeFault x).fault.fatal = s.fault.fatal := rfl

@[simp] theorem State.noEffect_dmem : (s.noEffect x).dmem = s.dmem := rfl
@[simp] theorem State.noEffect_session : (s.noEffect x).session = s.session := rfl
@[simp] theorem State.noEffect_fault : (s.noEffect x).fault = s.fault := rfl
@[simp] theorem State.noEffect_status : (s.noEffect x).status = { err := x } := rfl

/-- A fault changes no parameter, no command register and none of the model's own fields. -/
theorem State.takeFault_keepsPort : s.KeepsPort (s.takeFault x) := ⟨rfl, rfl, rfl, rfl, rfl⟩

/-- A completed command changes no parameter, no command register and none of the model's own fields. -/
theorem State.finish_keepsPort : s.KeepsPort (s.finish m se st r r2) := ⟨rfl, rfl, rfl, rfl, rfl⟩

end

/-- A state that keeps its port keeps it through a second change that does. -/
theorem State.KeepsPort.trans {s t u : State} (h : s.KeepsPort t) (k : t.KeepsPort u) : s.KeepsPort u :=
  ⟨k.cfg.trans h.cfg, k.cmdLo.trans h.cmdLo, k.cmdHi.trans h.cmdHi, k.pending.trans h.pending,
    k.hostData.trans h.hostData⟩

/-- What a list of checks can do: all pass and the command's effect follows, or one fails and its fault is taken. -/
theorem checked_cases (cs : List (ErrCode × Bool)) (s ok : State) :
    (cs.all (·.2) = true ∧ checked cs s ok = ok)
      ∨ ∃ x, (x, false) ∈ cs ∧ checked cs s ok = s.takeFault x := by
  induction cs with
  | nil => exact .inl ⟨rfl, rfl⟩
  | cons c r ih =>
    obtain ⟨x, good⟩ := c
    cases good with
    | false => exact .inr ⟨x, List.mem_cons_self, rfl⟩
    | true =>
      rcases ih with ⟨h, e⟩ | ⟨y, hy, e⟩
      · exact .inl ⟨by simpa using h, e⟩
      · exact .inr ⟨y, List.mem_cons_of_mem _ hy, e⟩

/-- Checks that all pass let the command's effect follow. -/
theorem checked_pass {cs : List (ErrCode × Bool)} (h : cs.all (·.2) = true) (s ok : State) : checked cs s ok = ok := by
  rcases checked_cases cs s ok with ⟨_, e⟩ | ⟨x, hx, _⟩
  · exact e
  · simp only [List.all_eq_true] at h
    exact absurd (h _ hx) (by simp)

/-- What a codec command can do: its checks pass and it stores its output bits and writes STATUS, RES and RES2, or a
check fails and its fault is taken. -/
theorem codecCommand_cases (op : StepOp) (rule : CodecRule) (sel : BitVec 4) (x : Operands) (s : State) :
    ((codecChecks op s.par sel x).all (·.2) = true ∧
      codecCommand op rule sel x s = .next
        (s.finish ((rule s.par (s.par.descFor sel) s.dmem x).store s.dmem) s.session
          (rule s.par (s.par.descFor sel) s.dmem x).status (rule s.par (s.par.descFor sel) s.dmem x).res
          (rule s.par (s.par.descFor sel) s.dmem x).res2))
      ∨ ∃ c, (c, false) ∈ codecChecks op s.par sel x ∧ codecCommand op rule sel x s = .next (s.takeFault c) := by
  unfold codecCommand
  rcases checked_cases (codecChecks op s.par sel x) s
    (s.finish ((rule s.par (s.par.descFor sel) s.dmem x).store s.dmem) s.session
      (rule s.par (s.par.descFor sel) s.dmem x).status (rule s.par (s.par.descFor sel) s.dmem x).res
      (rule s.par (s.par.descFor sel) s.dmem x).res2) with ⟨h, e⟩ | ⟨c, hc, e⟩
  · exact .inl ⟨h, congrArg Host.Outcome.next e⟩
  · exact .inr ⟨c, hc, congrArg Host.Outcome.next e⟩

end Sys2Proof.Machine
end

