-- ==== Sys2Proof/Laws/Step.lean ====
section
/-! SUPPORT. What the larger operations can do, said once: a codec command, a check of a message, reassembly, a call
transition, a transmitted frame, a host access, a step. -/

namespace Sys2Proof.Machine

/-- DMEM after reset is in the canonical form. -/
theorem State.reset_dmem_wf : State.reset.dmem.wf := List.Pairwise.nil

/-! ## Codec commands -/

/-- A codec command other than NOP is the shared operation on the rule of its opcode. -/
theorem exec_codec (i : Instr) (h : isCodec i = true) (hn : i ≠ .nop) :
    ∃ (op : StepOp) (sel : BitVec 4) (x : Operands), ∀ s, exec i s = codecCommand op (stepRule op) sel x s := by
  cases i with
  | nop => exact absurd rfl hn
  | movb len dst src => exact ⟨.movb, _, _, fun _ => rfl⟩
  | fill var len dst => exact ⟨.fill, _, _, fun _ => rfl⟩
  | crc16 var sel len src => exact ⟨.crc16, _, _, fun _ => rfl⟩
  | crc16a var sel len src => exact ⟨.crc16a, _, _, fun _ => rfl⟩
  | crc16v var sel len src => exact ⟨.crc16v, _, _, fun _ => rfl⟩
  | crcs var len src => exact ⟨.crcs, _, _, fun _ => rfl⟩
  | crcsa var len src => exact ⟨.crcsa, _, _, fun _ => rfl⟩
  | crcsv var len src => exact ⟨.crcsv, _, _, fun _ => rfl⟩
  | gol24e dst src => exact ⟨.gol24e, _, _, fun _ => rfl⟩
  | gol24d dst src => exact ⟨.gol24d, _, _, fun _ => rfl⟩
  | gol23e dst src => exact ⟨.gol23e, _, _, fun _ => rfl⟩
  | gol23d dst src => exact ⟨.gol23d, _, _, fun _ => rfl⟩
  | h1511e dst src => exact ⟨.h1511e, _, _, fun _ => rfl⟩
  | h1511d dst src => exact ⟨.h1511d, _, _, fun _ => rfl⟩
  | h1611e dst src => exact ⟨.h1611e, _, _, fun _ => rfl⟩
  | h1611d dst src => exact ⟨.h1611d, _, _, fun _ => rfl⟩
  | h139e dst src => exact ⟨.h139e, _, _, fun _ => rfl⟩
  | h139d dst src => exact ⟨.h139d, _, _, fun _ => rfl⟩
  | bptce dst src => exact ⟨.bptce, _, _, fun _ => rfl⟩
  | bptcd dst src => exact ⟨.bptcd, _, _, fun _ => rfl⟩
  | conve len dst src => exact ⟨.conve, _, _, fun _ => rfl⟩
  | vitd len dst src => exact ⟨.vitd, _, _, fun _ => rfl⟩
  | ilv var sel len dst src => exact ⟨.ilv, _, _, fun _ => rfl⟩
  | dilv var sel len dst src => exact ⟨.dilv, _, _, fun _ => rfl⟩
  | scr var sel len dst src => exact ⟨.scr, _, _, fun _ => rfl⟩
  | frdec _ _ _ _ | frenc _ _ _ _ | envp _ _ _ _ | envu _ _ _ | scon _ _ _ | slnk _ | sdis | srxf _ _ _ | srxt _
  | stxs _ | stxe | stxt _ _ _ => cases h

/-- The outcomes of a codec rule: NONE, FEC_UNCORR or CRC_MISMATCH, never a fault. -/
theorem stepRule_err (op : StepOp) (p : Params) (d : Descriptor) (m : Memory) (x : Operands) :
    (stepRule op p d m x).err = .none ∨ (stepRule op p d m x).err = .fecUncorr
      ∨ (stepRule op p d m x).err = .crcMismatch := by
  have hv : ∀ c t : Word, (crcVerdict c t).err = .none ∨ (crcVerdict c t).err = .crcMismatch := by
    intro c t
    by_cases h : c = t <;> simp [crcVerdict, h]
  have hg : ∀ o : Option Nat, golayNearest (enc24 p) 24 (m.readBits x.src 24).toNat = o →
      (ruleGol24d p d m x).err = .none ∨ (ruleGol24d p d m x).err = .fecUncorr := by
    intro o ho
    unfold ruleGol24d
    dsimp only
    rw [ho]
    cases o <;> simp
  cases op with
  | crc16v => exact (hv _ _).imp_right .inr
  | crcsv => exact (hv _ _).imp_right .inr
  | gol24d => exact (hg _ rfl).imp_right .inl
  | h1511d =>
    simp only [stepRule, ruleH1511d]
    split <;> exact .inl rfl
  | h1611d =>
    simp only [stepRule, ruleH1611d]
    repeat' split
    exacts [.inl rfl, .inl rfl, .inr (.inl rfl)]
  | h139d =>
    simp only [stepRule, ruleH139d]
    repeat' split
    exacts [.inl rfl, .inl rfl, .inr (.inl rfl)]
  | bptcd =>
    simp only [stepRule, ruleBptcd]
    split
    exacts [.inl rfl, .inr (.inl rfl)]
  | movb | fill | crc16 | crc16a | crcs | crcsa | gol24e | gol23e | gol23d | h1511e | h1611e | h139e | bptce | conve
  | vitd | ilv | dilv | scr => exact .inl rfl

/-! ## Receiving -/

/-! The machine's predicates and registers of a received frame are those the claims write out. -/

theorem fieldWord_eq (m : Memory) (f : Nat) (o : Option Field) : fieldWord m f o = frameReg m f o := by
  cases o <;> rfl

theorem sameStream_eq (m : Memory) (f : Nat) (k : FrameKind) (se : Session) :
    sameStream m f k se = frameSame m f k se := by
  unfold sameStream frameSame fieldWord
  cases k.fSid <;> rfl

theorem endsCall_eq (m : Memory) (f : Nat) (k : FrameKind) : endsCall m f k = frameEnds m f k := by
  unfold endsCall frameEnds
  cases k.fEot <;> rfl

theorem startsCall_eq (m : Memory) (f : Nat) (k : FrameKind) : startsCall m f k = frameStarts m f k := by
  unfold startsCall frameStarts
  rw [endsCall_eq]

theorem active_eq_inCall (se : Session) : se.call.active = se.inCall := by
  unfold CallState.active Session.inCall
  cases se.call <;> rfl

/-- What the check of a complete message can do: the check program runs on the field block with the message, and the
session is kept but for the buffer, which a success clears. -/
theorem completeMessage_cases (p : Params) (d : Descriptor) (e : Embedded) (m : Memory) (w f : Nat) (se : Session) :
    let x := runProg p d w f e.checkProg (m.writeBits (f + e.msgOff) (se.fragBuf.take (e.nfrag * e.fragBits)))
    (x.ctl = .none ∧ completeMessage p d e m w f se =
        ⟨{ se with fragPresent := 0, fragBuf := Bits.zeros p.reasmMax }, x.mem, true, .none⟩)
      ∨ (x.ctl ≠ .none ∧ completeMessage p d e m w f se = ⟨se, x.mem, false, x.ctl⟩) := by
  intro x
  by_cases h : x.ctl = .none
  · exact .inl ⟨h, if_pos h⟩
  · exact .inr ⟨h, if_neg h⟩

/-- What reassembly can do: nothing; or store the fragment; or store it and check the message it completes. -/
theorem reassemble_cases (p : Params) (d : Descriptor) (k : FrameKind) (m : Memory) (w f : Nat) (se : Session) :
    reassemble p d k m w f se = ⟨se, m, false, .none⟩
      ∨ ∃ (e : Embedded) (xi xf : Field), d.embedded = some e ∧ k.fFragidx = some xi ∧ k.fFrag = some xf
        ∧ se.call.active = true ∧ fieldVal m f xi < e.nfrag
        ∧ (let se' := storeFragment e (fieldVal m f xi) (m.readBits (f + xf.off) e.fragBits) se
          (allPresent e.nfrag se'.fragPresent = false ∧ reassemble p d k m w f se = ⟨se', m, false, .none⟩)
            ∨ (allPresent e.nfrag se'.fragPresent = true
              ∧ reassemble p d k m w f se = completeMessage p d e m w f se')) := by
  unfold reassemble
  split
  next e xi xf he hi hf =>
    cases ha : se.call.active with
    | false => exact .inl rfl
    | true =>
      by_cases hn : fieldVal m f xi < e.nfrag
      · refine .inr ⟨e, xi, xf, he, hi, hf, rfl, hn, ?_⟩
        cases hp : allPresent e.nfrag
          (storeFragment e (fieldVal m f xi) (m.readBits (f + xf.off) e.fragBits) se).fragPresent with
        | false => exact .inl ⟨hp, by simp only [takeFragment, if_pos hn, if_true, hp, Bool.false_eq_true, if_false]⟩
        | true => exact .inr ⟨hp, by simp only [takeFragment, if_pos hn, if_true, hp]⟩
      · exact .inl (by simp only [takeFragment, if_neg hn, if_true])
  next => exact .inl rfl

/-- Reassembly changes no session register but FRAG_PRESENT and FRAG_BUF. -/
theorem reassemble_session (p : Params) (d : Descriptor) (k : FrameKind) (m : Memory) (w f : Nat) (se : Session) :
    (reassemble p d k m w f se).session =
      { se with
        fragPresent := (reassemble p d k m w f se).session.fragPresent
        fragBuf := (reassemble p d k m w f se).session.fragBuf } := by
  rcases reassemble_cases p d k m w f se with h | ⟨e, xi, xf, _, _, _, _, _, ⟨_, h⟩ | ⟨_, h⟩⟩
  · rw [h]
  · rw [h]; rfl
  · rw [h]
    rcases completeMessage_cases p d e m w f
      (storeFragment e (fieldVal m f xi) (m.readBits (f + xf.off) e.fragBits) se) with ⟨_, h'⟩ | ⟨_, h'⟩ <;>
    rw [h'] <;> rfl

/-- Reassembly changes no bit and no byte of DMEM outside the wire frame and the field block. -/
theorem reassemble_keptOutside {p : Params} (hp : p.wf = true) {d : Descriptor}
    (hd : d.wf p.vitMax p.reasmMax = true) (k : FrameKind) (m : Memory) (w n f : Nat) (se : Session) :
    KeptOutside m (reassemble p d k m w f se).mem w n f d.fieldBits := by
  rcases reassemble_cases p d k m w f se with h | ⟨e, xi, xf, he, _, _, _, _, ⟨_, h⟩ | ⟨_, h⟩⟩
  · rw [h]; exact .refl ..
  · rw [h]; exact .refl ..
  · have hw := embedded_wf hd he
    simp only [Embedded.wf, Bool.and_eq_true, decide_eq_true_eq] at hw
    obtain ⟨⟨_, _, _, _, hoff⟩, hprog⟩ := hw
    have hk : ∀ u : Bits, u.length ≤ e.nfrag * e.fragBits →
        KeptOutside m (runProg p d w f e.checkProg (m.writeBits (f + e.msgOff) u)).mem w n f d.fieldBits :=
      fun u hu => (KeptOutside.writeBits m _ _ (.inr (.inr ⟨by omega, by omega⟩))).trans
        (runProg_keptOutside hp hprog (fun l hl => by cases hl) _)
    rw [h]
    rcases completeMessage_cases p d e m w f
      (storeFragment e (fieldVal m f xi) (m.readBits (f + xf.off) e.fragBits) se) with ⟨_, h'⟩ | ⟨_, h'⟩ <;>
    · rw [h']
      exact hk _ (List.length_take_le _ _)

/-- A call transition changes no session register but CALL_STATE and the call-scoped ones. -/
theorem callStep_session (n : Nat) (m : Memory) (f : Nat) (k : FrameKind) (se : Session) :
    let c := callStep n m f k se
    c.session = { se with
      call := c.session.call, activeSid := c.session.activeSid, srcId := c.session.srcId, dstId := c.session.dstId
      frameCnt := c.session.frameCnt, fragPresent := c.session.fragPresent, fragBuf := c.session.fragBuf } := by
  simp only [callStep]
  repeat' split
  all_goals rfl

/-! ## Transmitting -/

/-- Writing the session's fields into a field block changes nothing outside it. -/
theorem putFields_keptOutside {vitMax : Nat} {d : Descriptor} {k : FrameKind} (hk : k.wf vitMax d = true) (eot : Bool)
    (se : Session) (m : Memory) (w n f : Nat) : KeptOutside m (putFields d k eot se m f) w n f d.fieldBits := by
  have hput : ∀ (o : Option Field) (lo hi v : Nat) (m' : Memory), fieldWf d lo hi o = true →
      KeptOutside m' (putField m' f o v) w n f d.fieldBits := by
    intro o lo hi v m' ho
    cases o with
    | none => exact .refl ..
    | some x =>
      have : lo ≤ x.width ∧ x.width ≤ hi ∧ x.off + x.width ≤ d.fieldBits := by simpa [fieldWf] using ho
      refine KeptOutside.writeBits m' _ _ (.inr (.inr ⟨by omega, ?_⟩))
      rw [Bits.length_ofNat]
      omega
  simp only [FrameKind.wf, Bool.and_eq_true] at hk
  obtain ⟨⟨⟨⟨⟨⟨⟨⟨⟨_, h1⟩, h2⟩, h3⟩, h4⟩, h5⟩, _⟩, _⟩, _⟩, _⟩ := hk
  exact ((((hput _ _ _ _ _ h1).trans (hput _ _ _ _ _ h2)).trans (hput _ _ _ _ _ h3)).trans
    (hput _ _ _ _ _ h4)).trans (hput _ _ _ _ _ h5)

/-- A frame that is sent: its kind exists, and the frame is built from the session's fields. -/
theorem emit_some {p : Params} {d : Descriptor} {k : Nat} {kd : FrameKind} (h : d.kinds[k]? = some kd) (eot : Bool)
    (se : Session) (m : Memory) (w f : Nat) :
    emit p d k eot se m w f =
      ⟨buildFrame p d kd (putFields d kd eot se m f) w f, { se with txSeq := se.txSeq + 1 }, true,
        BitVec.ofNat 32 kd.lenBits, BitVec.ofNat 32 k⟩ := by
  simp only [emit, h]

/-- The three transmit kinds of a well-formed descriptor exist. -/
theorem txKinds_exist {vitMax reasmMax : Nat} {d : Descriptor} (h : d.wf vitMax reasmMax = true) {t : TxKinds}
    (ht : d.tx = some t) :
    (∃ k, d.kinds[t.header]? = some k) ∧ (∃ k, d.kinds[t.voice]? = some k) ∧ ∃ k, d.kinds[t.term]? = some k := by
  simp only [Descriptor.wf, Bool.and_eq_true] at h
  have hw : t.wf d = true := by simpa [ht] using h.1.1.1.1.2
  simp only [TxKinds.wf, Bool.and_eq_true, Option.any_eq_true] at hw
  obtain ⟨⟨⟨a, ha, _⟩, ⟨b, hb, _⟩⟩, ⟨c, hc, _⟩⟩ := hw
  exact ⟨⟨a, ha⟩, ⟨b, hb⟩, ⟨c, hc⟩⟩

/-! ## The host port and the step -/

/-- The word that a write of CMD_HI executes is the one whose halves were written. -/
theorem Word.halves (w : Command) : w.extractLsb' 32 32 ++ w.extractLsb' 0 32 = w := by
  refine BitVec.eq_of_getLsbD_eq fun i hi => ?_
  simp only [BitVec.getLsbD_append, BitVec.getLsbD_extractLsb']
  split
  all_goals (rw [decide_eq_true (by omega), Bool.true_and]; congr 1; omega)

/-- What a step that goes on can do: idle, let the host read, set CMD_LO, set a byte of DMEM, ignore an access, run the
command word, or reset. -/
theorem step_cases {s t : State} (h : step s = .next t) :
    (s.pending = [] ∧ t = s)
      ∨ ∃ r, (s.pending = .reset :: r ∧ t = State.takeReset { s with pending := r })
        ∨ (∃ off width, s.pending = .read off width :: r ∧ t.hostData = hostRead { s with pending := r } off width
          ∧ t = { s with pending := r, hostData := t.hostData })
        ∨ (∃ v, s.pending = .write 0x0000#16 .word v :: r ∧ t = { s with pending := r, cmdLo := v })
        ∨ (∃ v, s.pending = .write 0x0004#16 .word v :: r ∧ runCommand { s with pending := r, cmdHi := v } = .next t)
        ∨ (∃ off v a, s.pending = .write off .byte v :: r ∧ dmemIndex s.par off.toNat = some a
          ∧ t = { s with pending := r, dmem := s.dmem.setByte a (v.setWidth 8) })
        ∨ (∃ off width v, s.pending = .write off width v :: r ∧ t = { s with pending := r }) := by
  unfold step hostStep at h
  split at h
  next hp => exact .inl ⟨hp, (Host.Outcome.next.inj h).symm⟩
  next e r hp =>
    refine .inr ⟨r, ?_⟩
    cases e with
    | reset => exact .inl ⟨hp, (Host.Outcome.next.inj h).symm⟩
    | read off width =>
      refine .inr (.inl ⟨off, width, hp, ?_⟩)
      have ht := (Host.Outcome.next.inj h).symm
      subst ht
      exact ⟨rfl, rfl⟩
    | write off width v =>
      refine .inr (.inr ?_)
      simp only [hostEvent, hostWrite] at h
      cases width with
      | word =>
        simp only at h
        split at h
        next h0 => exact .inl ⟨v, h0 ▸ hp, (Host.Outcome.next.inj h).symm⟩
        next =>
          split at h
          next h4 => exact .inr (.inl ⟨v, h4 ▸ hp, h⟩)
          next => exact .inr (.inr (.inr ⟨off, .word, v, hp, (Host.Outcome.next.inj h).symm⟩))
      | byte =>
        simp only at h
        split at h
        next a ha => exact .inr (.inr (.inl ⟨off, v, a, hp, ha, (Host.Outcome.next.inj h).symm⟩))
        next => exact .inr (.inr (.inr ⟨off, .byte, v, hp, (Host.Outcome.next.inj h).symm⟩))
      | other => exact .inr (.inr (.inr ⟨off, .other, v, hp, (Host.Outcome.next.inj h).symm⟩))

end Sys2Proof.Machine
end

