-- ==== Sys2Proof/Tests/Slice0.lean ====
section
/-! SUPPORT. Tests: decoding words written out from 30_encoding.md R87, the worked examples of the command rules, one step
each, and for every obligation with hypotheses a witness that meets them. Expected values are those of the rules and of
95_test_vectors.md. -/

namespace Sys2Proof.Tests

open Sys2Proof Sys2Proof.Machine

set_option Elab.async false

/-! ## Helpers -/

/-- A frame step with numbers for its fields. -/
def stp (op : StepOp) (var len : Nat) (db : Base) (dof : Nat) (sb : Base) (so : Nat) (role : Role) : Step :=
  ⟨op, BitVec.ofNat 4 var, BitVec.ofNat 16 len, db, BitVec.ofNat 16 dof, sb, BitVec.ofNat 16 so, role⟩

/-- The header and terminator kinds of descriptor EX of 95_test_vectors.md. -/
def exHeader (v sync : Nat) (cls : FrameClass) : FrameKind where
  cls := cls
  lenBits := 48
  syncs := [⟨0, 8, sync⟩]
  decProg := [stp .crc16v v 5 .wire 0 .wire 8 .control, stp .movb 0 16 .field 0 .wire 8 .none,
    stp .movb 0 8 .field 16 .wire 24 .none]
  encProg := [stp .movb 0 16 .wire 8 .field 0 .none, stp .movb 0 8 .wire 24 .field 16 .none,
    stp .crc16a v 5 .wire 0 .wire 8 .none]
  fSid := some ⟨0, 16⟩
  fSrc := some ⟨16, 8⟩
  fDst := none
  fSeq := none
  fEot := none
  fFragidx := none
  fFrag := none
  fPayload := none

/-- A voice kind in the manner of EX, with Hamming(16,11) in the place of Golay to keep kernel evaluation short. -/
def exVoice : FrameKind where
  cls := .voice
  lenBits := 64
  syncs := [⟨0, 8, 0x5A⟩]
  decProg := [stp .movb 0 16 .field 0 .wire 8 .none, stp .h1611d 0 0 .field 24 .wire 24 .voice,
    stp .movb 0 1 .field 40 .wire 48 .none, stp .movb 0 8 .field 41 .wire 49 .none]
  encProg := [stp .movb 0 16 .wire 8 .field 0 .none, stp .h1611e 0 0 .wire 24 .field 24 .none,
    stp .movb 0 1 .wire 48 .field 40 .none, stp .movb 0 8 .wire 49 .field 41 .none]
  fSid := some ⟨0, 16⟩
  fSrc := none
  fDst := none
  fSeq := none
  fEot := none
  fFragidx := some ⟨40, 1⟩
  fFrag := some ⟨41, 8⟩
  fPayload := some ⟨24, 11⟩

/-- A voice kind with a CONTROL step too, a CRC-8 over its fragment, and a 2-bit fragment index, for the witnesses. -/
def exChecked : FrameKind :=
  { exVoice with
    syncs := [⟨0, 8, 0x3C⟩]
    decProg := [stp .crcsv 2 16 .wire 0 .wire 48 .control, stp .movb 0 16 .field 0 .wire 8 .none,
      stp .h1611d 0 0 .field 24 .wire 24 .voice, stp .movb 0 2 .field 40 .wire 40 .none,
      stp .movb 0 8 .field 42 .wire 48 .none]
    encProg := []
    fFragidx := some ⟨40, 2⟩
    fFrag := some ⟨42, 8⟩ }

/-- Descriptor EX of 95_test_vectors.md, but for the voice kind and with `exChecked` besides. -/
def ex : Descriptor where
  crc16Mask0 := 0
  crc16Mask1 := 0xCCCC
  ilv := [[3, 0, 6, 1, 4, 7, 2, 5]]
  whiten := [[0xF0, 0x0F, 0xAA]]
  fieldBits := 128
  kinds := [exHeader 0 0x55 .header, exVoice, exHeader 1 0x33 .terminator, exChecked]
  embedded := some ⟨2, 8, 64, [stp .crcsv 2 16 .field 0 .field 64 .control]⟩
  tx := some ⟨0, 1, 2⟩
  wdogLimit := 3
  kaInterval := 2
  linkTimeout := 9
  seqMod := 1
  muteOnVfail := false
  authRequired := false

/-- The test parameters: the defaults, CRC-8 polynomial 0x07, and EX in slot 15. -/
def exParams : Params :=
  { Params.reset with
    crcs5 := ⟨0x05, 0, 0⟩, crcs6 := ⟨0x27, 0, 0⟩, crcs8 := ⟨0x07, 0, 0⟩
    desc := List.replicate 15 none ++ [some ex] }

theorem exParams_wf : exParams.wf = true := by decide +kernel

def exSetup : Setup :=
  ⟨exParams, exParams_wf⟩

/-- A machine after reset with some bytes of DMEM known: blocks of bytes, each at a byte address, addresses rising. -/
def st (blocks : List (Nat × List Nat)) : State :=
  { State.afterReset exSetup 0 [] 0 with
    dmem := ⟨blocks.flatMap fun x => x.2.zipIdx.map fun y => (x.1 + y.2, BitVec.ofNat 8 y.1), 0⟩ }

/-- The same with the session in CONNECTED, slot 15. -/
def conn (blocks : List (Nat × List Nat)) : State :=
  { st blocks with
    session := { Session.cleared 1024 with link := .connected, backendValid := true, backendSlot := 15 } }

/-- The same with a call in progress, stream id 0xBEEF. -/
def inCall (c : CallState) (blocks : List (Nat × List Nat)) : State :=
  { conn blocks with session := { (conn blocks).session with call := c, activeSid := 0xBEEF, frameCnt := 1 } }

/-- A value read from the next state a command gives, if it gives one. -/
def after {α : Type} (r : Result) (f : State → α) : Option α :=
  match r with
  | .next t => some (f t)
  | _ => none

/-- `n` bits at an address, as a number. -/
def bitsAt (a n : Nat) (t : State) : Nat :=
  (t.dmem.readBits a n).toNat

/-- STATUS, RES and RES2. -/
def results (t : State) : Nat × Nat × Nat :=
  (t.status.toWord.toNat, t.res.toNat, t.res2.toNat)

/-- The header frame of 46_frame.md R225. -/
def headerFrame : List Nat := [0x55, 0xBE, 0xEF, 0x07, 0x95, 0x95]

/-- A voice frame of stream 0xBEEF, data 0x5A5 (codeword 0xB4BB, 42_block_codes.md R151), fragment 0 with bits 0xA5. -/
def voiceFrame : List Nat := [0x5A, 0xBE, 0xEF, 0xB4, 0xBB, 0x00, 0x52, 0x80]

/-- The same with fragment 1, bits 0x72, so that the message is `A5 72` (41_crc.md R129). -/
def voiceFrame1 : List Nat := [0x5A, 0xBE, 0xEF, 0xB4, 0xBB, 0x00, 0xB9, 0x00]

/-- The voice frame with a double error in its data (42_block_codes.md R152). -/
def voiceBad : List Nat := [0x5A, 0xBE, 0xEF, 0x74, 0xBB, 0x00, 0x52, 0x80]

/-- A frame of kind `exChecked` with fragment index 2, which is `nfrag`, and a fragment whose CRC-8 holds. -/
def checkedFrame : List Nat := [0x3C, 0xBE, 0xEF, 0xB4, 0xBB, 0x80, 0xA5, 0x72]

/-- The same kind with a double error in its data and a wrong CRC-8: it fails a VOICE and a CONTROL step. -/
def checkedBad : List Nat := [0x3C, 0xBE, 0xEF, 0x74, 0xBB, 0x00, 0xA5, 0x73]

/-- Fragment 1 with bits 0x73, so that the message `A5 73` fails its check. -/
def voiceFrame1Bad : List Nat := [0x5A, 0xBE, 0xEF, 0xB4, 0xBB, 0x00, 0xB9, 0x80]

/-- Sixteen zero bytes: a field block. -/
def zeros16 : List Nat := List.replicate 16 0

/-! ## Well-formedness: one ill-formed term for each check -/

theorem test_wf_refuses :
    [Instr.fill 2 1 0, .crc16 2 15 1 0, .crc16a 2 15 3 0, .crc16v 2 15 3 0, .crcs 3 1 0, .crcsa 3 9 0, .crcsv 3 9 0,
      .scon 2 15 0, .slnk 4, .srxt 2, .stxt 2 0 0].map Instr.wf = List.replicate 11 false := by decide

theorem test_wf_accepts :
    [Instr.fill 1 1 0, .crc16 1 15 1 0, .crc16a 1 15 3 0, .crc16v 1 15 3 0, .crcs 2 1 0, .crcsa 2 9 0, .crcsv 2 9 0,
      .scon 1 15 0, .slnk 3, .srxt 1, .stxt 1 0 0, .nop].map Instr.wf = List.replicate 12 true := by decide

/-- An ill-formed parameter set is refused: no descriptor with an interleave table that is no permutation, and no DMEM of
0 bytes (00_scope.md R8, 46_frame.md R218). -/
theorem test_params_refused :
    Descriptor.wf 1024 1024 { ex with ilv := [[0, 0]] } = false
      ∧ Params.wf { exParams with dmemBytes := 0 } = false := by decide +kernel

/-! ## Decoding -/

theorem test_decode_control :
    decode 0x0100000000000000#64 = .ok .nop
    ∧ decode 0x02000004000C0001#64 = .ok (.movb 4 12 1)
    ∧ decode 0x0310000300020000#64 = .ok (.fill 1 3 2) := ⟨rfl, rfl, rfl⟩

theorem test_decode_crc :
    decode 0x101F000300000040#64 = .ok (.crc16 1 15 3 0x40)
    ∧ decode 0x111F000500000000#64 = .ok (.crc16a 1 15 5 0)
    ∧ decode 0x120E000500000008#64 = .ok (.crc16v 0 14 5 8)
    ∧ decode 0x1320000800000010#64 = .ok (.crcs 2 8 0x10)
    ∧ decode 0x1410000900000011#64 = .ok (.crcsa 1 9 0x11)
    ∧ decode 0x1500001000000012#64 = .ok (.crcsv 0 16 0x12) := ⟨rfl, rfl, rfl, rfl, rfl, rfl⟩

theorem test_decode_block_codes :
    decode 0x2000000000400008#64 = .ok (.gol24e 0x40 8)
    ∧ decode 0x2100000000410009#64 = .ok (.gol24d 0x41 9)
    ∧ decode 0x220000000042000A#64 = .ok (.gol23e 0x42 10)
    ∧ decode 0x230000000043000B#64 = .ok (.gol23d 0x43 11)
    ∧ decode 0x240000000044000C#64 = .ok (.h1511e 0x44 12)
    ∧ decode 0x250000000045000D#64 = .ok (.h1511d 0x45 13)
    ∧ decode 0x260000000046000E#64 = .ok (.h1611e 0x46 14)
    ∧ decode 0x270000000047000F#64 = .ok (.h1611d 0x47 15)
    ∧ decode 0x2800000000480010#64 = .ok (.h139e 0x48 16)
    ∧ decode 0x2900000000490011#64 = .ok (.h139d 0x49 17) := ⟨rfl, rfl, rfl, rfl, rfl, rfl, rfl, rfl, rfl, rfl⟩

theorem test_decode_bptc_conv :
    decode 0x3000000001000020#64 = .ok (.bptce 0x100 0x20)
    ∧ decode 0x3100000000200100#64 = .ok (.bptcd 0x20 0x100)
    ∧ decode 0x4000001000100000#64 = .ok (.conve 16 16 0)
    ∧ decode 0x4100000800100000#64 = .ok (.vitd 8 16 0) := ⟨rfl, rfl, rfl, rfl⟩

theorem test_decode_interleave :
    decode 0x500F000800100000#64 = .ok (.ilv 0 15 8 16 0)
    ∧ decode 0x51F1000800100002#64 = .ok (.dilv 15 1 8 16 2)
    ∧ decode 0x522F000C00100000#64 = .ok (.scr 2 15 12 16 0) := ⟨rfl, rfl, rfl⟩

theorem test_decode_frame :
    decode 0x600F003000000100#64 = .ok (.frdec 15 48 0 0x100)
    ∧ decode 0x612F000001000000#64 = .ok (.frenc 2 15 0x100 0)
    ∧ decode 0x6210000200400008#64 = .ok (.envp 0x10 2 0x40 8)
    ∧ decode 0x6300000500400008#64 = .ok (.envu 5 0x40 8) := ⟨rfl, rfl, rfl, rfl⟩

theorem test_decode_session :
    decode 0x701F000000000100#64 = .ok (.scon 1 15 0x100)
    ∧ decode 0x7130000000000000#64 = .ok (.slnk 3)
    ∧ decode 0x7200000000000000#64 = .ok .sdis
    ∧ decode 0x7300003000000100#64 = .ok (.srxf 48 0 0x100)
    ∧ decode 0x7410000000000000#64 = .ok (.srxt 1)
    ∧ decode 0x750000001234ABCD#64 = .ok (.stxs 0x1234ABCD)
    ∧ decode 0x7600000000000000#64 = .ok .stxe
    ∧ decode 0x7710000001000200#64 = .ok (.stxt 1 0x100 0x200) := ⟨rfl, rfl, rfl, rfl, rfl, rfl, rfl, rfl⟩

theorem test_decode_rejects :
    decode 0#64 = .error .illegal ∧ decode 0x7800000000000000#64 = .error .illegal
    ∧ decode 0x0100000000000001#64 = .error .reserved ∧ decode 0x0320000300020000#64 = .error .reserved
    ∧ decode 0x7500000100000000#64 = .error .reserved := ⟨rfl, rfl, rfl, rfl, rfl⟩

theorem test_decodeTableWord : decodeTableWord 64 0x111F000500000000 = some (.crc16a 1 15 5 0) := rfl

/-! ## The host port -/

/-- A command word written in its two halves executes (10_state.md R23). -/
theorem test_withFetchWord : after (step ((st []).withFetchWord 64 0x0100000000000001)) results = some (2, 0, 0) := by
  decide +kernel

theorem test_host_byte :
    after (step { st [] with pending := [.write 0x8003 .byte 0x1A5] }) (fun t => (t.dmem.byte 3).toNat) = some 0xA5 := by
  decide +kernel

/-! ## Control and CRC -/

theorem test_nop : after (exec .nop (st [])) results = some (0, 0, 0) := by decide +kernel

theorem test_movb : after (exec (.movb 4 12 0) (st [(0, [0xA5, 0x00])])) (bitsAt 0 16) = some 0xA50A := by decide +kernel

theorem test_movb_overlap :
    after (exec (.movb 7 1 0) (st [(0, [0xB2])])) (bitsAt 0 8) = some 0xD9 := by decide +kernel

theorem test_fill : after (exec (.fill 1 3 2) (st [(0, [0x00])])) (bitsAt 0 8) = some 0x38 := by decide +kernel

theorem test_crc16 :
    after (exec (.crc16 0 15 3 0) (st [(0, [0x12, 0x34, 0x56])])) results = some (0x10, 0xDE61, 0) := by decide +kernel

theorem test_crc16_mask :
    after (exec (.crc16 1 15 3 0) (st [(0, [0x12, 0x34, 0x56])])) results = some (0x10, 0x12AD, 0) := by decide +kernel

theorem test_crc16a :
    after (exec (.crc16a 0 15 5 0) (st [(0, [0x12, 0x34, 0x56, 0, 0])])) (bitsAt 0 40) = some 0x123456DE61 := by
  decide +kernel

theorem test_crc16v :
    after (exec (.crc16v 0 15 5 0) (st [(0, [0x12, 0x34, 0x56, 0xDE, 0x61])])) results
      = some (0x10, 0xDE61, 0xDE61) := by decide +kernel

theorem test_crc16v_variant :
    after (exec (.crc16v 1 15 5 0) (st [(0, [0x12, 0x34, 0x56, 0xDE, 0x61])])) results
      = some (9, 0x12AD, 0xDE61) := by decide +kernel

theorem test_crcs : after (exec (.crcs 2 8 0) (st [(0, [0xA5])])) results = some (0x10, 0x72, 0) := by decide +kernel

theorem test_crcsa : after (exec (.crcsa 2 16 0) (st [(0, [0xA5, 0])])) (bitsAt 0 16) = some 0xA572 := by decide +kernel

theorem test_crcsv : after (exec (.crcsv 2 16 0) (st [(0, [0xA5, 0x73])])) results = some (9, 0x72, 0x73) := by
  decide +kernel

/-! ## Block codes, BPTC, convolutional code, interleaver -/

theorem test_gol24e : after (exec (.gol24e 16 0) (st [(0, [0xAB, 0xC0])])) results = some (0x10, 0xABC23C, 0) := by
  decide +kernel

theorem test_gol24d :
    after (exec (.gol24d 24 0) (st [(0, [0xBB, 0x82, 0x7C])])) results = some (0x310, 0xABC, 0xABC23C) := by
  decide +kernel

theorem test_gol23e : after (exec (.gol23e 16 0) (st [(0, [0x55, 0x50])])) results = some (0x10, 0x2AAE86, 0) := by
  decide +kernel

/-- 0x2AAE86 in its first 23 bits, which is 0x555D0C, with bit 0 flipped (42_block_codes.md R143, R144). -/
theorem test_gol23d :
    after (exec (.gol23d 24 0) (st [(0, [0xD5, 0x5D, 0x0C])])) results = some (0x110, 0x555, 0x2AAE86) := by
  decide +kernel

theorem test_h1511e : after (exec (.h1511e 16 0) (st [(0, [0xB4, 0xA0])])) results = some (0x10, 0x5A5D, 0) := by
  decide +kernel

theorem test_h1511d :
    after (exec (.h1511d 16 0) (st [(0, [0x34, 0xBA])])) results = some (0x110, 0x5A5, 9) := by decide +kernel

theorem test_h1611e : after (exec (.h1611e 16 0) (st [(0, [0xB4, 0xA0])])) results = some (0x10, 0xB4BB, 0) := by
  decide +kernel

theorem test_h1611d :
    after (exec (.h1611d 16 0) (st [(0, [0x74, 0xBB])])) (fun t => (t.status.toWord.toNat, t.res.toNat))
      = some (8, 0x3A5) := by decide +kernel

theorem test_h139e : after (exec (.h139e 16 0) (st [(0, [0x52, 0x80])])) results = some (0x10, 0x0A5B, 0) := by
  decide +kernel

theorem test_h139d :
    after (exec (.h139d 16 0) (st [(0, [0xD2, 0xD8])])) (fun t => (t.status.toWord.toNat, t.res.toNat))
      = some (0x110, 0x0A5) := by decide +kernel

/-- The payload of 43_bptc.md R176. -/
def payload12 : List Nat := [0x00, 0x11, 0x22, 0x33, 0x44, 0x55, 0x66, 0x77, 0x88, 0x99, 0xAA, 0xBB]

theorem test_bptce :
    after (exec (.bptce 96 0) (st [(0, payload12), (12, List.replicate 25 0)])) (bitsAt 96 196)
      = some 0x373026B6168D43206A63EAE2DC140283A906B4651C9110490 := by decide +kernel

/-- The block of R176 with `raw[5]` flipped (43_bptc.md R177). -/
def block25 : List Nat :=
  [0x33, 0x30, 0x26, 0xB6, 0x16, 0x8D, 0x43, 0x20, 0x6A, 0x63, 0xEA, 0xE2, 0xDC, 0x14, 0x02, 0x83, 0xA9, 0x06, 0xB4,
    0x65, 0x1C, 0x91, 0x10, 0x49, 0x00]

theorem test_bptcd :
    after (exec (.bptcd 200 0) (st [(0, block25), (25, List.replicate 12 0)])) (fun t => (results t, bitsAt 200 96 t))
      = some ((0x110, 2, 0), 0x00112233445566778899AABB) := by decide +kernel

theorem test_conve :
    after (exec (.conve 16 8 0) (st [(0, [0xB0, 0, 0])])) (fun t => (t.res.toNat, bitsAt 8 16 t)) = some (0, 0xD8F7) := by
  decide +kernel

theorem test_vitd :
    after (exec (.vitd 8 16 0) (st [(0, [0xF8, 0xF7, 0])])) (fun t => (results t, bitsAt 16 8 t))
      = some ((0x110, 1, 0), 0xB0) := by decide +kernel

theorem test_vitd_tie :
    after (exec (.vitd 1 8 0) (st [(0, [0x40, 0x00])])) (fun t => (t.res.toNat, t.res2.toNat, bitsAt 8 1 t))
      = some (1, 0, 0) := by decide +kernel

theorem test_ilv : after (exec (.ilv 0 15 8 0 0) (st [(0, [0xB4])])) (bitsAt 0 8) = some 0x53 := by decide +kernel

theorem test_dilv : after (exec (.dilv 0 15 8 0 0) (st [(0, [0x53])])) (bitsAt 0 8) = some 0xB4 := by decide +kernel

theorem test_scr : after (exec (.scr 0 15 12 16 0) (st [(0, [0xAB, 0xC0, 0, 0])])) (bitsAt 16 12) = some 0x5BC := by
  decide +kernel

/-! ## Frames and the envelope -/

theorem test_frdec :
    after (exec (.frdec 15 48 0 800) (st [(0, zeros16), (100, headerFrame)])) (fun t => (results t, bitsAt 0 24 t))
      = some ((0x10, 0, 0), 0xBEEF07) := by decide +kernel

theorem test_frdec_framing :
    after (exec (.frdec 15 48 0 800) (st [(100, 0x54 :: headerFrame.tail)])) results
      = some (7, 0xFFFFFFFF, 0) := by decide +kernel

theorem test_frenc :
    after (exec (.frenc 0 15 800 0) (st [(0, [0xBE, 0xEF, 0x07]), (100, List.replicate 6 0xFF)]))
      (fun t => (results t, bitsAt 800 48 t)) = some ((0x10, 48, 0), 0x55BEEF079595) := by decide +kernel

theorem test_envp :
    after (exec (.envp 0x10 2 16 0) (st [(0, [1, 2, 0, 0, 0, 0, 0])])) (fun t => (results t, bitsAt 16 40 t))
      = some ((0x10, 5, 0), 0xE005100102) := by decide +kernel

theorem test_envu :
    after (exec (.envu 5 40 0) (st [(0, [0xE0, 5, 0x10, 1, 2, 0, 0])])) (fun t => (results t, bitsAt 40 16 t))
      = some ((0x10, 0x10, 2), 0x0102) := by decide +kernel

theorem test_envu_framing :
    after (exec (.envu 5 40 0) (st [(0, [0xE1, 5, 0x10, 1, 2])])) results = some (7, 0xFFFFFFFF, 0) := by decide +kernel

/-! ## The session -/

/-- The configuration record of 47_session.md R251. -/
def record : List Nat := [0, 0x31, 0x2D, 0x4A, 0, 0, 0, 0x5B, 0x4E, 0x30, 0x43, 0x41, 0x4C, 0x4C, 0x20, 0x20]

theorem test_scon :
    after (exec (.scon 0 15 0) (st [(0, record)]))
      (fun t => (t.session.link, t.session.cfgSrcId.toNat, t.session.cfgDstId.toNat, t.session.cfgCallHi.toNat))
      = some (.connecting, 0x00312D4A, 0x5B, 0x4E304341) := by decide +kernel

theorem test_scon_config_error :
    after (exec (.scon 1 15 0) (st [])) (fun t => (t.status.err, t.fault.fatal, t.session.link))
      = some (.config, true, .disconnected) := by decide +kernel

/-- The machine after SCON: CONNECTING, slot 15. -/
def connecting : State :=
  { st [] with session := { Session.cleared 1024 with link := .connecting, backendValid := true, backendSlot := 15 } }

theorem test_slnk : after (exec (.slnk 0) connecting) (fun t => t.session.link) = some .connected := by decide +kernel

theorem test_slnk_bad_state : after (exec (.slnk 1) connecting) results = some (6, 0, 0) := by decide +kernel

theorem test_sdis :
    after (exec .sdis (inCall .streaming [])) (fun t => decide (t.session = Session.cleared 1024)) = some true := by
  decide +kernel

theorem test_srxf_new :
    after (exec (.srxf 48 0 800) (conn [(0, zeros16), (100, headerFrame)]))
      (fun t => (t.session.call, t.session.activeSid.toNat, t.session.frameCnt.toNat, t.status.toWord.toNat))
      = some (.new, 0xBEEF, 1, 0x10010) := by decide +kernel

theorem test_srxf_voice_failed :
    after (exec (.srxf 64 0 800) (inCall .new [(0, zeros16), (100, voiceBad)]))
      (fun t => (t.session.call, t.session.frameCnt.toNat, t.status.toWord.toNat)) = some (.new, 1, 0x78) := by
  decide +kernel

/-- With `wdog_limit = 3`, the third tick of a call loses it (47_session.md R272). -/
theorem test_srxt_lost :
    after (exec (.srxt 0) { inCall .streaming [] with
      session := { (inCall .streaming []).session with wdogCnt := 2 } })
      (fun t => (t.session.call, results t)) = some (.lost, (0x4000A, 3, 1)) := by decide +kernel

theorem test_srxt_drain :
    after (exec (.srxt 1) (inCall .ended [])) (fun t => (t.session.call, t.session.activeSid.toNat, t.res.toNat))
      = some (.idle, 0, 1) := by decide +kernel

theorem test_stxs :
    after (exec (.stxs 0x1234ABCD) (conn [])) (fun t => (t.session.txSid.toNat, t.session.txStateWord.toNat))
      = some (0x1234ABCD, 1) := by decide +kernel

/-- A transmission whose header has not gone. -/
def sending (x : TxPhase) (blocks : List (Nat × List Nat)) : State :=
  { conn blocks with session := { (conn blocks).session with txs := x, txSid := 0xBEEF } }

theorem test_stxe : after (exec .stxe (sending .header [])) (fun t => t.session.txStateWord.toNat) = some 0x101 := by
  decide +kernel

theorem test_stxt_header :
    after (exec (.stxt 0 800 0) (sending .header [(0, zeros16), (100, List.replicate 8 0)]))
      (fun t => (results t, t.session.txs, bitsAt 800 24 t)) = some ((0x100010, 48, 0), .stream, 0x55BEEF) := by
  decide +kernel

theorem test_stxt_ending :
    after (exec (.stxt 0 800 0) (sending .ending [(0, zeros16), (100, List.replicate 8 0)]))
      (fun t => (results t, t.session.txs, t.session.txSid.toNat)) = some ((0x100010, 48, 2), .idle, 0) := by
  decide +kernel

/-! ## Witnesses: for each obligation with hypotheses, states and operands that meet them -/

/-- The machine about to perform some host events. -/
def doing (es : List HostEvent) : State :=
  { st [] with pending := es }

theorem witness_DecodeOfEncode : (Instr.srxt 1).wf = true ∧ (Instr.crcs 2 0xFFFF 0).wf = true := by decide

theorem witness_EncodeOfDecode : decode 0x7130000000000000#64 = .ok (.slnk 3) := rfl

/-- Every boundary of the unassigned ranges, and the assigned opcodes beside them. -/
theorem witness_IllegalExactlyOnUnassignedOpcodes :
    (∀ o ∈ [0x00, 0x04, 0x0F, 0x16, 0x1F, 0x2A, 0x2F, 0x32, 0x3F, 0x42, 0x4F, 0x53, 0x5F, 0x64, 0x6F, 0x78, 0xFF],
      Unassigned (({ st [] with cmdHi := BitVec.ofNat 32 (o <<< 24) }).cmdHi.extractLsb' 24 8).toNat)
    ∧ ∀ o ∈ [0x01, 0x03, 0x10, 0x15, 0x20, 0x29, 0x30, 0x31, 0x40, 0x41, 0x50, 0x52, 0x60, 0x63, 0x70, 0x77],
      ¬ Unassigned (({ st [] with cmdHi := BitVec.ofNat 32 (o <<< 24) }).cmdHi.extractLsb' 24 8).toNat := by
  unfold Unassigned; decide

/-- Both alternatives: NOP, and NOP with a reserved bit set. -/
theorem witness_ReservedFieldsRaiseReserved :
    ¬ Unassigned (({ st [] with cmdHi := 0x01000000 }).cmdHi.extractLsb' 24 8).toNat
    ∧ ¬ Unassigned (({ st [] with cmdHi := 0x01000000, cmdLo := 1 }).cmdHi.extractLsb' 24 8).toNat := by
  unfold Unassigned; decide

theorem witness_StepRunsTheDecodedCommand :
    decode ((0x01000000#32 : Word) ++ (doing [.write 4 .word 0x01000000]).cmdLo) = .ok .nop
    ∧ decode ((0#32 : Word) ++ (doing [.write 4 .word 0]).cmdLo) = .error .illegal
    ∧ decode ((0x01000001#32 : Word) ++ (doing [.write 4 .word 0x01000001]).cmdLo) = .error .reserved
    ∧ (doing []).pending = [] := ⟨rfl, rfl, rfl, rfl⟩

theorem witness_ResetClearsEverythingAndAloneClearsFault :
    (∃ t, step (doing [.reset]) = .next t)
    ∧ ∃ t, step { doing [.write 4 .word 0] with fault := ⟨true, .range, true, 0xFFFF⟩ } = .next t := ⟨⟨_, rfl⟩, ⟨_, rfl⟩⟩

theorem witness_OnlyCmdHiHasASideEffect :
    (doing [.read 0x0008 .word]).pending = .read 0x0008 .word :: []
    ∧ (doing [.write 0x0000 .word 5]).pending = .write 0x0000 .word 5 :: []
    ∧ ¬ (HostWidth.word = .word ∧ (0x0000#16) = 0x0004#16)
    ∧ (doing [.read 0x8000 .byte, .read 0x8000 .byte]).pending = .read 0x8000 .byte :: .read 0x8000 .byte :: [] :=
  ⟨rfl, rfl, by decide, rfl⟩

theorem witness_HostDmemBytes :
    0 < (doing []).par.dmemBytes ∧ 8191 < (doing []).par.dmemBytes
    ∧ (doing [.read (BitVec.ofNat 16 (0x8000 + 8191)) .byte]).pending = .read (BitVec.ofNat 16 (0x8000 + 8191)) .byte :: []
    ∧ (doing [.write (BitVec.ofNat 16 0x8000) .byte 7]).pending = .write (BitVec.ofNat 16 (0x8000 + 0)) .byte 7 :: []
    ∧ HostWidth.word ≠ .byte := ⟨by decide +kernel, by decide +kernel, rfl, rfl, by decide⟩

theorem witness_RegisterMapAndUnmappedAccesses :
    ((0x0000#16), (0 : Word)) ∈ registerMap (doing []) ∧ ((0x0064#16), (0 : Word)) ∈ registerMap (doing [])
    ∧ (0x0008#16) ≠ 0x0000#16 ∧ (0x0008#16) ≠ 0x0004#16
    ∧ ¬ Mapped (doing []) .word 0x0018 ∧ ¬ Mapped (doing []) .byte 0x7FFF ∧ ¬ Mapped (doing []) .byte 0xA000
    ∧ ¬ Mapped (doing []) .other 0x0008 := by
  unfold Mapped; decide +kernel

/-- A word that is no command, and MOVB with LEN = 0, which is BAD_LEN, in two states with the same BACKEND. -/
theorem witness_FaultsArePreciseAndIgnoreData :
    (∃ t, runCommand (st []) = .next t ∧ t.status.err.isFault = true)
    ∧ after (runCommand { conn [] with cmdHi := 0x02000000 }) (fun t => t.status.err) = some .badLen
    ∧ (conn []).cfg = (inCall .new []).cfg ∧ (conn []).session.backendValid = (inCall .new []).session.backendValid
    ∧ (conn []).session.backendSlot = (inCall .new []).session.backendSlot :=
  ⟨⟨_, rfl, rfl⟩, by decide +kernel, rfl, rfl, rfl⟩

theorem witness_CommandsReportOnlyTheirCodes :
    (Instr.crc16v 1 15 5 0).wf = true ∧ ∃ t, exec (.crc16v 1 15 5 0) (st []) = .next t := ⟨rfl, ⟨_, rfl⟩⟩

theorem witness_EmptySlotOrBadIndexIsBadSel :
    (st []).par.slot 0 = none ∧ (st []).par.slot 15 = some ex ∧ ex.ilv.length ≤ (1#4).toNat
    ∧ ex.whiten.length ≤ (1#4).toNat ∧ ex.kinds.length ≤ (4#4).toNat ∧ (1#4).toNat ≤ 1 := by decide +kernel

theorem witness_LengthsOutsideTheTableAreBadLen :
    ((0#4).toNat ≤ 2 ∧ (5#16).toNat < [6, 7, 9].getD (0#4).toNat 0)
    ∧ ((1#4).toNat ≤ 2 ∧ (6#16).toNat < [6, 7, 9].getD (1#4).toNat 0)
    ∧ ((2#4).toNat ≤ 2 ∧ (8#16).toNat < [6, 7, 9].getD (2#4).toNat 0)
    ∧ (1#16).toNat % 2 = 1 ∧ 2 * (st []).par.vitMax < (2050#16).toNat ∧ (st []).par.vitMax < (1025#16).toNat
    ∧ 252 < (253#16).toNat ∧ (2#16).toNat < 3 ∧ (st []).par.slot 15 = some ex
    ∧ ex.ilv[(0#4).toNat]? = some [3, 0, 6, 1, 4, 7, 2, 5] ∧ (9#16).toNat ≠ 8
    ∧ ex.whiten[(0#4).toNat]? = some [0xF0, 0x0F, 0xAA] ∧ 8 * 3 < (25#16).toNat := by decide +kernel

theorem witness_RangesOutsideDmemRaiseRange :
    (st []).par.dmemBits < (65525#16).toNat + 12 ∧ (st []).par.dmemBits < (65535#16).toNat + 2
    ∧ (st []).par.dmemBits < (65535#16).toNat + 8 * (0#16).toNat + 2
    ∧ (st []).par.dmemBits < (65000#16).toNat + (1000#16).toNat / 2 + 500
    ∧ (st []).par.dmemBits < (65409#16).toNat + 128
    ∧ (st []).par.slot 15 = some ex ∧ ex.kinds[(0#4).toNat]? = some (exHeader 0 0x55 .header)
    ∧ overlaps (80#16).toNat (48#16).toNat (0#16).toNat ex.fieldBits = true
    ∧ overlaps (127#16).toNat (exHeader 0 0x55 .header).lenBits (0#16).toNat ex.fieldBits = true
    ∧ (st []).par.dmemBits < (65409#16).toNat + ex.fieldBits
    ∧ overlaps (127#16).toNat (conn []).txBits (0#16).toNat (conn []).fieldBits = true
    ∧ (conn []).par.dmemBits < (65488#16).toNat + (conn []).txBits := by decide +kernel

theorem witness_MovbCopiesAndFillSets :
    1 ≤ (65535#16).toNat ∧ (1#16).toNat + (65535#16).toNat ≤ (st []).par.dmemBits
    ∧ (1#4).toNat ≤ 1 ∧ (65535#16).toNat + (1#16).toNat ≤ (st []).par.dmemBits := by decide +kernel

theorem witness_Crc16ComputesAndVerifies :
    (st []).par.slot 15 = some ex ∧ (1#4).toNat ≤ 1 ∧ (0#16).toNat + 8 * (8192#16).toNat ≤ (st []).par.dmemBits
    ∧ 1 ≤ (1#16).toNat ∧ 3 ≤ (3#16).toNat := by decide +kernel

theorem witness_Crc16aAppends :
    (st []).par.slot 15 = some ex ∧ (1#4).toNat ≤ 1 ∧ 3 ≤ (3#16).toNat
    ∧ (65512#16).toNat + 8 * (3#16).toNat ≤ (st []).par.dmemBits := by decide +kernel

theorem witness_CrcAppendThenVerify :
    (st []).par.slot 15 = some ex ∧ (0#4).toNat ≤ 1 ∧ 3 ≤ (5#16).toNat ∧ (0#16).toNat + 8 * (5#16).toNat ≤ (st []).par.dmemBits
    ∧ (st []).par.crc16Poly.getLsbD 0 = true ∧ ((0#16).toNat ≤ 39 ∧ 39 < (0#16).toNat + 8 * (5#16).toNat)
    ∧ ∃ t, exec (.crc16a 0 15 5 0) (st []) = .next t :=
  ⟨by decide +kernel, by decide, by decide, by decide +kernel, by decide +kernel, by decide, ⟨_, rfl⟩⟩

theorem witness_TableDrivenCrcAgrees : exParams.crc16Reflect = false := rfl

theorem witness_SmallCrcCommands :
    (2#4).toNat ≤ 2 ∧ 8 = [5, 6, 8].getD (2#4).toNat 0 ∧ (65527#16).toNat + (9#16).toNat ≤ (st []).par.dmemBits
    ∧ 1 ≤ (9#16).toNat ∧ 8 + 1 ≤ (9#16).toNat := by decide +kernel

/-- The ranges of the block coders, at the top of DMEM. -/
theorem witness_BlockEncodersWriteTheCodeword :
    (65524#16).toNat + 12 ≤ (st []).par.dmemBits ∧ (65512#16).toNat + 24 ≤ (st []).par.dmemBits
    ∧ (65513#16).toNat + 23 ≤ (st []).par.dmemBits ∧ (65525#16).toNat + 11 ≤ (st []).par.dmemBits
    ∧ (65521#16).toNat + 15 ≤ (st []).par.dmemBits ∧ (65520#16).toNat + 16 ≤ (st []).par.dmemBits
    ∧ (65527#16).toNat + 9 ≤ (st []).par.dmemBits ∧ (65523#16).toNat + 13 ≤ (st []).par.dmemBits := by decide +kernel

/-- Both cases: the example of 42_block_codes.md R142, and a word at distance 4 or more from some codeword. -/
theorem witness_Gol24dDecodesWithinDistanceThree :
    (0#16).toNat + 24 ≤ (st [(0, [0xBB, 0x82, 0x7C])]).par.dmemBits ∧ (24#16).toNat + 12 ≤ (st []).par.dmemBits
    ∧ (((st [(0, [0xBB, 0x82, 0x7C])]).dmem.readBits (0#16).toNat 24).toNat = 0xBB827C
      ∧ 0xABC < 4096 ∧ bitDist 24 0xBB827C (enc24 exParams 0xABC) ≤ 3)
    ∧ (((st [(0, [0xD3, 0xC2, 0x3C])]).dmem.readBits (0#16).toNat 24).toNat = 0xD3C23C
      ∧ (List.range 4096).all (fun d => decide (3 < bitDist 24 0xD3C23C (enc24 exParams d))) = true) := by decide +kernel

theorem witness_Gol23dDecodesEveryWord :
    (65513#16).toNat + 23 ≤ (st []).par.dmemBits ∧ (65524#16).toNat + 12 ≤ (st []).par.dmemBits := by decide +kernel

theorem witness_HammingDecodersComplete :
    (65521#16).toNat + 15 ≤ (st []).par.dmemBits ∧ (65525#16).toNat + 11 ≤ (st []).par.dmemBits
    ∧ (65520#16).toNat + 16 ≤ (st []).par.dmemBits ∧ (65523#16).toNat + 13 ≤ (st []).par.dmemBits
    ∧ (65527#16).toNat + 9 ≤ (st []).par.dmemBits
    ∧ (hamSyndrome exParams.ham15Eq 11 (Bits.ofNat 15 0x5A5D) = 0 ∧ hamSyndrome exParams.ham15Eq 11 (Bits.ofNat 15 0x1A5D) = 9)
    ∧ (hamBit exParams.ham13Eq 9 9 = none ∧ hamBit exParams.ham13Eq 9 15 = some 0) := by decide +kernel

/-- The examples of 42_block_codes.md R148, R152 and R160: a flip of bit 0, and of bits 0 and 1. -/
theorem witness_HammingDecodersCorrectSingleErrors :
    ((Bits.ofNat 11 0x5A5).length = 11 ∧ (st [(0, [0x34, 0xBA])]).dmem.readBits (0#16).toNat 15
      = (Bits.ofNat 11 0x5A5 ++ hamChecks exParams.ham15Eq (Bits.ofNat 11 0x5A5)).flip 0)
    ∧ (st [(0, [0xB4, 0xBA])]).dmem.readBits (0#16).toNat 16
      = (extendParity (Bits.ofNat 11 0x5A5 ++ hamChecks exParams.ham15Eq (Bits.ofNat 11 0x5A5))).flip 15
    ∧ (st [(0, [0x74, 0xBB])]).dmem.readBits (0#16).toNat 16
      = ((extendParity (Bits.ofNat 11 0x5A5 ++ hamChecks exParams.ham15Eq (Bits.ofNat 11 0x5A5))).flip 0).flip 1
    ∧ ((Bits.ofNat 9 0xA5).length = 9 ∧ (st [(0, [0xD2, 0xD8])]).dmem.readBits (0#16).toNat 13
      = (Bits.ofNat 9 0xA5 ++ hamChecks exParams.ham13Eq (Bits.ofNat 9 0xA5)).flip 0) := by decide +kernel

theorem witness_BptcCommandsComplete :
    (65440#16).toNat + 96 ≤ (st []).par.dmemBits ∧ (65340#16).toNat + 196 ≤ (st []).par.dmemBits := by decide +kernel

theorem witness_BptcRoundTrip :
    (0#16).toNat + 96 ≤ (st []).par.dmemBits ∧ (96#16).toNat + 196 ≤ (st []).par.dmemBits
    ∧ (65440#16).toNat + 96 ≤ (st []).par.dmemBits ∧ 195 < 196 ∧ ∃ t, exec (.bptce 96 0) (st []) = .next t :=
  ⟨by decide +kernel, by decide +kernel, by decide +kernel, by decide, ⟨_, rfl⟩⟩

theorem witness_ConvolutionalCommandsComplete :
    ((2048#16).toNat % 2 = 0 ∧ 2 ≤ (2048#16).toNat ∧ (2048#16).toNat ≤ 2 * (st []).par.vitMax
      ∧ (0#16).toNat + (2048#16).toNat / 2 ≤ (st []).par.dmemBits ∧ (63488#16).toNat + (2048#16).toNat ≤ (st []).par.dmemBits)
    ∧ (1 ≤ (1024#16).toNat ∧ (1024#16).toNat ≤ (st []).par.vitMax
      ∧ (63488#16).toNat + 2 * (1024#16).toNat ≤ (st []).par.dmemBits
      ∧ (0#16).toNat + (1024#16).toNat ≤ (st []).par.dmemBits) := by decide +kernel

theorem witness_ViterbiRoundTrip :
    1 ≤ (8#16).toNat ∧ (8#16).toNat ≤ (st []).par.vitMax ∧ (16#16).toNat = 2 * (8#16).toNat
    ∧ (0#16).toNat + (8#16).toNat ≤ (st []).par.dmemBits ∧ (8#16).toNat + 2 * (8#16).toNat ≤ (st []).par.dmemBits
    ∧ (24#16).toNat + (8#16).toNat ≤ (st []).par.dmemBits ∧ ∃ t, exec (.conve 16 8 0) (st []) = .next t :=
  ⟨by decide, by decide +kernel, by decide, by decide +kernel, by decide +kernel, by decide +kernel, ⟨_, rfl⟩⟩

theorem witness_ViterbiIsMaximumLikelihood :
    1 ≤ (1024#16).toNat ∧ (1024#16).toNat ≤ (st []).par.vitMax ∧ (63488#16).toNat + 2 * (1024#16).toNat ≤ (st []).par.dmemBits
    ∧ (0#16).toNat + (1024#16).toNat ≤ (st []).par.dmemBits := by decide +kernel

theorem witness_InterleaveAndScrambleCommands :
    (st []).par.slot 15 = some ex ∧ (65528#16).toNat + (8#16).toNat ≤ (st []).par.dmemBits
    ∧ ex.ilv[(0#4).toNat]? = some [3, 0, 6, 1, 4, 7, 2, 5] ∧ (8#16).toNat = [3, 0, 6, 1, 4, 7, 2, 5].length
    ∧ ex.whiten[(0#4).toNat]? = some [0xF0, 0x0F, 0xAA] ∧ 1 ≤ (24#16).toNat
    ∧ (24#16).toNat ≤ 8 * ([0xF0, 0x0F, 0xAA] : List Byte).length := by decide +kernel

theorem witness_DeinterleaveUndoesInterleave :
    (st []).par.slot 15 = some ex ∧ ex.ilv[(0#4).toNat]? = some [3, 0, 6, 1, 4, 7, 2, 5]
    ∧ (8#16).toNat = [3, 0, 6, 1, 4, 7, 2, 5].length ∧ (0#16).toNat + (8#16).toNat ≤ (st []).par.dmemBits
    ∧ (∃ t, exec (.ilv 0 15 8 0 0) (st []) = .next t) ∧ ∃ t, exec (.dilv 0 15 8 0 0) (st []) = .next t :=
  ⟨by decide +kernel, by decide +kernel, by decide, by decide +kernel, ⟨_, rfl⟩, ⟨_, rfl⟩⟩

theorem witness_ScrambleTwiceIsNothing :
    (st []).par.slot 15 = some ex ∧ ex.whiten[(0#4).toNat]? = some [0xF0, 0x0F, 0xAA] ∧ 1 ≤ (24#16).toNat
    ∧ (24#16).toNat ≤ 8 * ([0xF0, 0x0F, 0xAA] : List Byte).length ∧ (65512#16).toNat + (24#16).toNat ≤ (st []).par.dmemBits
    ∧ ∃ t, exec (.scr 0 15 24 65512 65512) (st []) = .next t :=
  ⟨by decide +kernel, by decide +kernel, by decide, by decide, by decide +kernel, ⟨_, rfl⟩⟩

theorem witness_FrameStepsNeverFault :
    (st []).par.slot 15 = some ex ∧ (65408#16).toNat + ex.fieldBits ≤ (st []).par.dmemBits
    ∧ (∃ k ∈ ex.kinds, (stp .movb 0 16 .field 0 .wire 8 .none ∈ k.decProg ∨ stp .movb 0 16 .field 0 .wire 8 .none ∈ k.encProg)
      ∧ (65488#16).toNat + k.lenBits ≤ (st []).par.dmemBits)
    ∧ ∃ e, ex.embedded = some e ∧ stp .crcsv 2 16 .field 0 .field 64 .control ∈ e.checkProg :=
  ⟨by decide +kernel, by decide +kernel, ⟨exHeader 0 0x55 .header, by decide +kernel, by decide +kernel, by decide +kernel⟩,
    ⟨_, rfl, by decide +kernel⟩⟩

/-- A classified frame, and one with a wrong sync. -/
theorem witness_FrdecParsesFrames :
    (st []).par.slot 15 = some ex ∧ 1 ≤ (48#16).toNat ∧ (800#16).toNat + (48#16).toNat ≤ (st []).par.dmemBits
    ∧ (672#16).toNat + ex.fieldBits ≤ (st []).par.dmemBits
    ∧ overlaps (800#16).toNat (48#16).toNat (672#16).toNat ex.fieldBits = false
    ∧ classify ex (st [(100, headerFrame)]).dmem (800#16).toNat (48#16).toNat = some 0
    ∧ classify ex (st [(100, 0x54 :: headerFrame.tail)]).dmem (800#16).toNat (48#16).toNat = none := by decide +kernel

theorem witness_FrencBuildsFrames :
    (st []).par.slot 15 = some ex ∧ ex.kinds[(2#4).toNat]? = some (exHeader 1 0x33 .terminator)
    ∧ (128#16).toNat + (exHeader 1 0x33 .terminator).lenBits ≤ (st []).par.dmemBits
    ∧ (0#16).toNat + ex.fieldBits ≤ (st []).par.dmemBits
    ∧ overlaps (128#16).toNat (exHeader 1 0x33 .terminator).lenBits (0#16).toNat ex.fieldBits = false := by decide +kernel

/-- Both cases of ENVU: the example of 46_frame.md R232, and its wrong start byte. -/
theorem witness_EnvelopeCommands :
    ((252#16).toNat ≤ 252 ∧ (0#16).toNat + 8 * (252#16).toNat ≤ (st []).par.dmemBits
      ∧ (2016#16).toNat + 8 * ((252#16).toNat + 3) ≤ (st []).par.dmemBits)
    ∧ (3 ≤ (5#16).toNat ∧ (0#16).toNat + 8 * (5#16).toNat ≤ (st []).par.dmemBits
      ∧ (40#16).toNat + 8 * ((5#16).toNat - 3) ≤ (st []).par.dmemBits)
    ∧ (((st [(0, [0xE0, 5, 0x10, 1, 2])]).dmem.readBits (0#16).toNat 8).toNat = exParams.envStart.toNat
      ∧ ((st [(0, [0xE0, 5, 0x10, 1, 2])]).dmem.readBits ((0#16).toNat + 8) 8).toNat = 5)
    ∧ ((st [(0, [0xE1, 5, 0x10, 1, 2])]).dmem.readBits (0#16).toNat 8).toNat ≠ exParams.envStart.toNat := by decide +kernel

theorem witness_EnvelopeRoundTrip :
    (252#16).toNat ≤ 252 ∧ (252#16).toNat + 3 ≤ (255#16).toNat ∧ (0#16).toNat + 8 * (252#16).toNat ≤ (st []).par.dmemBits
    ∧ (2016#16).toNat + 8 * (255#16).toNat ≤ (st []).par.dmemBits
    ∧ (8000#16).toNat + 8 * ((255#16).toNat - 3) ≤ (st []).par.dmemBits
    ∧ ∃ t, exec (.envp 0xFF 252 2016 0) (st []) = .next t :=
  ⟨by decide, by decide, by decide +kernel, by decide +kernel, by decide +kernel, ⟨_, rfl⟩⟩

theorem witness_SconStartsASession :
    (st []).par.slot 15 = some ex ∧ (65408#16).toNat + 128 ≤ (st []).par.dmemBits ∧ (st []).fault.fatal = false
    ∧ (st []).session.link = .disconnected := by decide +kernel

/-- The machine in AUTH. -/
def inAuth : State :=
  { connecting with session := { connecting.session with link := .auth } }

theorem witness_SlnkEvents :
    (connecting.session.link = .connecting ∧ connecting.backend = some ex) ∧ inAuth.session.link = .auth
    ∧ inAuth.session.link ≠ .disconnected := by decide +kernel

/-- The four kinds of frame: one that matches no kind, a CONTROL failure, a VOICE failure in a call, and both. -/
theorem witness_SrxfKeepsTheSessionOnBadFrames :
    SrxfReady (conn [(0, zeros16), (100, headerFrame)]) (800#16).toNat (48#16).toNat (0#16).toNat ex
    ∧ SrxfReady (inCall .new [(0, zeros16), (100, voiceBad)]) (800#16).toNat (64#16).toNat (0#16).toNat ex
    ∧ (parseFrame exParams ex (conn [(0, zeros16), (100, 0x54 :: headerFrame.tail)]).dmem 800 48 0).isNone = true
    ∧ (parseFrame exParams ex (conn [(0, zeros16), (100, [0x55, 0xBE, 0xEF, 0x07, 0x95, 0x94])]).dmem 800 48 0).any
      (fun y => y.prog.ctl != .none && y.prog.voice == .none) = true
    ∧ (parseFrame exParams ex (inCall .new [(0, zeros16), (100, voiceBad)]).dmem 800 64 0).any
      (fun y => y.prog.ctl == .none && y.prog.voice != .none) = true
    ∧ SrxfReady (inCall .new [(0, zeros16), (100, checkedBad)]) (800#16).toNat (64#16).toNat (0#16).toNat ex
    ∧ (parseFrame exParams ex (inCall .new [(0, zeros16), (100, checkedBad)]).dmem 800 64 0).any
      (fun y => y.prog.ctl != .none && y.prog.voice != .none) = true :=
  ⟨⟨rfl, rfl, by decide, by decide +kernel, by decide +kernel, by decide⟩,
    ⟨rfl, rfl, by decide, by decide +kernel, by decide +kernel, by decide⟩,
    by decide +kernel, by decide +kernel, by decide +kernel,
    ⟨rfl, rfl, by decide, by decide +kernel, by decide +kernel, by decide⟩, by decide +kernel⟩

theorem stateValid_of {s : State} {w n f : Nat} {d : Descriptor}
    (h : (parseFrame s.par d s.dmem w n f).any (fun y => decide (y.prog.ctl = .none) && decide (y.prog.voice = .none)) = true) :
    ∃ y, StateValid s w n f d y := by
  cases hy : parseFrame s.par d s.dmem w n f with
  | none => simp [hy] at h
  | some y =>
    simp only [hy, Option.any_some, Bool.and_eq_true, decide_eq_true_eq] at h
    exact ⟨y, hy, h.1, h.2⟩

/-- State-valid frames: a header in IDLE, and a voice frame with a fragment in a call. -/
theorem witness_SrxfMovesTheCall :
    (SrxfReady (conn [(0, zeros16), (100, headerFrame)]) (800#16).toNat (48#16).toNat (0#16).toNat ex
      ∧ ∃ y, StateValid (conn [(0, zeros16), (100, headerFrame)]) (800#16).toNat (48#16).toNat (0#16).toNat ex y)
    ∧ (SrxfReady (inCall .new [(0, zeros16), (100, voiceFrame)]) (800#16).toNat (64#16).toNat (0#16).toNat ex
      ∧ ∃ y, StateValid (inCall .new [(0, zeros16), (100, voiceFrame)]) (800#16).toNat (64#16).toNat (0#16).toNat ex y) :=
  ⟨⟨⟨rfl, rfl, by decide, by decide +kernel, by decide +kernel, by decide⟩, stateValid_of (by decide +kernel)⟩,
    ⟨⟨rfl, rfl, by decide, by decide +kernel, by decide +kernel, by decide⟩, stateValid_of (by decide +kernel)⟩⟩

/-- A call that holds fragment 0 of the message `A5 72`. -/
def holding (blocks : List (Nat × List Nat)) : State :=
  { inCall .streaming blocks with
    session := { (inCall .streaming blocks).session with
      fragPresent := 1, fragBuf := Bits.ofNat 8 0xA5 ++ Bits.zeros 1016 } }

/-- A frame that meets the hypotheses of SRXF's statements about state-valid frames. -/
theorem srxf_hyps (s : State) (hl : s.session.link = .connected) (hb : s.backend = some ex)
    (hr : (800#16).toNat + (64#16).toNat ≤ s.par.dmemBits ∧ (0#16).toNat + ex.fieldBits ≤ s.par.dmemBits)
    (hy : (parseFrame s.par ex s.dmem 800 64 0).any
      (fun y => decide (y.prog.ctl = .none) && decide (y.prog.voice = .none)) = true) :
    SrxfReady s (800#16).toNat (64#16).toNat (0#16).toNat ex
      ∧ ∃ y, StateValid s (800#16).toNat (64#16).toNat (0#16).toNat ex y :=
  ⟨⟨hl, hb, by decide, hr.1, hr.2, by decide⟩, stateValid_of hy⟩

/-- The clauses of reassembly: the first fragment of two; the last, whose message checks; the last, whose message does
not; and a fragment whose index is `nfrag`. -/
theorem witness_SrxfReassembles :
    (∀ fr ∈ [voiceFrame1, voiceFrame1Bad, checkedFrame],
      SrxfReady (holding [(0, zeros16), (100, fr)]) (800#16).toNat (64#16).toNat (0#16).toNat ex
      ∧ ∃ y, StateValid (holding [(0, zeros16), (100, fr)]) (800#16).toNat (64#16).toNat (0#16).toNat ex y)
    ∧ ex.embedded.isSome = true ∧ exVoice.fFragidx = some ⟨40, 1⟩ ∧ exVoice.fFrag = some ⟨41, 8⟩
    ∧ exChecked.fFragidx = some ⟨40, 2⟩ ∧ (exHeader 0 0x55 .header).fFragidx = none
    ∧ after (exec (.srxf 64 0 800) (inCall .new [(0, zeros16), (100, voiceFrame)]))
      (fun t => (t.session.call, t.session.fragPresent.toNat, t.status.toWord.toNat)) = some (.streaming, 1, 0x50)
    ∧ after (exec (.srxf 64 0 800) (holding [(0, zeros16), (100, voiceFrame1)]))
      (fun t => (t.session.fragPresent.toNat, t.status.toWord.toNat, bitsAt 64 16 t)) = some (0, 0xD0, 0xA572)
    ∧ after (exec (.srxf 64 0 800) (holding [(0, zeros16), (100, voiceFrame1Bad)]))
      (fun t => (t.session.fragPresent.toNat, t.status.toWord.toNat, bitsAt 64 16 t)) = some (3, 0x59, 0xA573)
    ∧ after (exec (.srxf 64 0 800) (holding [(0, zeros16), (100, checkedFrame)]))
      (fun t => (t.session.fragPresent.toNat, t.status.toWord.toNat, bitsAt 40 2 t)) = some (1, 0x50, 2) :=
  ⟨fun fr hfr => by
      fin_cases hfr <;> exact srxf_hyps _ rfl rfl ⟨by decide +kernel, by decide +kernel⟩ (by decide +kernel),
    rfl, rfl, rfl, rfl, rfl, by decide +kernel, by decide +kernel, by decide +kernel, by decide +kernel⟩

/-- The clauses of SRXT: a link at its limit, a link in CONNECTING, a call at its limit, a call that is over, and one
that goes on. -/
theorem witness_SrxtTicks :
    (1#4).toNat ≤ 1 ∧ (conn []).session.link ≠ .disconnected ∧ (conn []).backend = some ex
    ∧ connecting.session.link ≠ .connected ∧ connecting.backend = some ex
    ∧ (0 < ex.linkTimeout ∧ ex.linkTimeout ≤ (BitVec.ofNat 16 (min (8 + 1) 0xFFFF)).toNat)
    ∧ ¬ (ex.linkTimeout ≤ (BitVec.ofNat 16 (min ((conn []).session.linkWdog.toNat + 1) 0xFFFF)).toNat)
    ∧ ex.wdogLimit ≤ (BitVec.ofNat 16 (min (2 + 1) 0xFFFF)).toNat
    ∧ (inCall .ended []).session.call = .ended ∧ (inCall .streaming []).session.call = .streaming := by decide +kernel

theorem witness_StxsStartsAndStxeStops :
    ((conn []).session.link = .connected ∧ (conn []).session.txs = .idle ∧ (conn []).backend = some ex
      ∧ ex.tx.isSome = true)
    ∧ (sending .header []).session.txs = .header ∧ (sending .stream []).session.txs = .stream := by decide +kernel

/-- STXT is ready in each transmit state, its regions beside each other. -/
theorem witness_StxtTransmits :
    (1#4).toNat ≤ 1 ∧ ex.tx = some ⟨0, 1, 2⟩
    ∧ ∀ x ∈ [TxPhase.idle, .header, .stream, .ending],
      (sending x []).session.txs = x ∧ StxtReady (sending x []) (128#16).toNat (0#16).toNat ex :=
  ⟨by decide, rfl, fun x hx => by
    fin_cases hx <;> exact ⟨rfl, ⟨rfl, rfl, by decide +kernel, by decide +kernel, by decide +kernel⟩⟩⟩

/-- Each clause: a fatal machine, a connected one, and one in DISCONNECTED. -/
theorem witness_RefusedSessionCommandsDoNothing :
    ((1#4).toNat ≤ 1 ∧ (st []).par.slot 15 = some ex ∧ (0#16).toNat + 128 ≤ (st []).par.dmemBits
      ∧ ({ st [] with fault := ⟨false, .none, true, 0⟩ } : State).fault.fatal = true)
    ∧ ((conn []).fault.fatal = false ∧ (conn []).session.link ≠ .disconnected ∧ (conn []).session.link ≠ .connecting
      ∧ (conn []).session.link ≠ .auth)
    ∧ ((st []).session.link = .disconnected ∧ (st []).session.link ≠ .connected ∧ 1 ≤ (1#16).toNat
      ∧ (65535#16).toNat + (1#16).toNat ≤ (st []).par.dmemBits ∧ (0#16).toNat + (st []).fieldBits ≤ (st []).par.dmemBits
      ∧ overlaps (65535#16).toNat (1#16).toNat (0#16).toNat (st []).fieldBits = false
      ∧ (65535#16).toNat + (st []).txBits ≤ (st []).par.dmemBits
      ∧ overlaps (0#16).toNat (st []).txBits (0#16).toNat (st []).fieldBits = false)
    ∧ (sending .ending []).session.txs = .ending ∧ (st []).session.backendValid = false := by decide +kernel

/-- Safe states exist beside the one after reset. -/
theorem witness_StepKeepsSafe : Safe (doing [.write 4 .word 0x01000000]) ∧ ∃ t, step (doing [.write 4 .word 0x01000000]) = .next t :=
  ⟨{ memory := ⟨by decide +kernel, by decide +kernel⟩
     frag := by unfold FragInv; decide +kernel
     disconnected := fun _ => rfl
     call := fun _ => rfl
     callScope := fun _ => ⟨rfl, rfl, rfl, rfl, rfl, rfl⟩
     backend := fun h => absurd rfl h
     transmit := ⟨fun h => absurd rfl h, fun h => absurd rfl h, fun h => Bool.noConfusion h⟩
     counters := ⟨fun _ h => (nomatch h), fun _ h => (nomatch h), fun d h => nomatch (show none = some d from h)⟩
     fault := ⟨fun _ => ⟨rfl, rfl⟩, fun h => Bool.noConfusion h⟩ }, ⟨_, rfl⟩⟩

/-- A session in CONNECTED can be safe too. -/
theorem witness_StepKeepsSafe_connected : Safe (conn []) :=
  { memory := ⟨by decide +kernel, by decide +kernel⟩
    frag := by unfold FragInv; decide +kernel
    disconnected := fun h => nomatch h
    call := fun _ => rfl
    callScope := fun _ => ⟨rfl, rfl, rfl, rfl, rfl, rfl⟩
    backend := fun _ => rfl
    transmit := ⟨fun h => absurd rfl h, fun h => absurd rfl h, fun h => Bool.noConfusion h⟩
    counters := ⟨fun _ _ h => Bool.noConfusion h, fun d h _ => by cases h; decide, fun d h => by cases h; decide⟩
    fault := ⟨fun _ => ⟨rfl, rfl⟩, fun h => Bool.noConfusion h⟩ }

/-- Each path to DISCONNECTED: reset, AUTH_FAIL, SDIS, and the link watchdog. -/
theorem witness_OnlyTheseReturnToDisconnected :
    (∃ t, step { conn [] with pending := [.reset] } = .next t ∧ (conn []).session.link ≠ .disconnected
      ∧ t.session.link = .disconnected)
    ∧ after (step { inAuth with pending := [.write 4 .word 0x71200000] }) (fun t => t.session.link) = some .disconnected
    ∧ after (step { conn [] with pending := [.write 4 .word 0x72000000] }) (fun t => t.session.link) = some .disconnected
    ∧ after (step { conn [] with pending := [.write 4 .word 0x74000000]
                                 session := { (conn []).session with linkWdog := 8 } })
      (fun t => t.session.link) = some .disconnected
    ∧ ∃ t, exec (.srxf 48 0 800) (conn []) = .next t :=
  ⟨⟨_, rfl, by decide, rfl⟩, by decide +kernel, by decide +kernel, by decide +kernel, ⟨_, rfl⟩⟩

theorem witness_CodecCommandsArePure :
    isCodec (.gol24e 0 0) = true ∧ (∃ t, exec (.gol24e 0 0) (st []) = .next t)
    ∧ (inCall .new []).cfg = (st []).cfg ∧ (inCall .new []).dmem = (st []).dmem := ⟨rfl, ⟨_, rfl⟩, rfl, rfl⟩

/-- The two ways a transmission ends. -/
theorem witness_TransmissionsEndWithTheEndFrame :
    (∃ t, exec .sdis (sending .stream []) = .next t ∧ (sending .stream []).session.txs ≠ .idle ∧ t.session.txs = .idle)
    ∧ (sending .ending []).session.txs ≠ .idle
    ∧ after (exec (.stxt 0 800 0) (sending .ending [(0, zeros16), (100, List.replicate 8 0)])) (fun t => t.session.txs)
      = some .idle :=
  ⟨⟨_, rfl, by decide, rfl⟩, by decide, by decide +kernel⟩

end Sys2Proof.Tests
end

section
/-! The host port and the words the host reads (10_state.md): what a step does with the oldest host event, a write of
CMD_HI in particular, and which bits of a register word hold which field. -/

namespace Sys2Proof.Machine

/-! ## A write of CMD_HI -/

/-- Idleness keeps all state (60_exceptions.md R321). -/
theorem step_idle {s : State} (h : s.pending = []) : step s = .next s := by
  simp only [step, hostStep, h]

/-- The oldest event is performed on the state with that event taken. -/
theorem step_event {s : State} {e : HostEvent} {r : List HostEvent} (h : s.pending = e :: r) :
    step s = hostEvent { s with pending := r } e := by
  simp only [step, hostStep, h]

theorem hostWrite_cmdHi (s : State) (v : Word) :
    hostWrite s 0x0004#16 .word v = runCommand { s with cmdHi := v } := by
  simp [hostWrite]

/-- A write of CMD_HI executes the command word it completes (10_state.md R23). -/
theorem step_writeCmdHi {s : State} {v : Word} {r : List HostEvent} (h : s.pending = .write 0x0004#16 .word v :: r) :
    step s = runCommand { s with cmdHi := v, pending := r } := by
  rw [step_event h]
  exact hostWrite_cmdHi { s with pending := r } v

theorem runCommand_of_decode_ok {s : State} {i : Instr} (h : decode (s.cmdHi ++ s.cmdLo) = .ok i) :
    runCommand s = exec i s := by
  simp only [runCommand, h]

/-- A word that is no command takes the fault of its decode error (60_exceptions.md R310, steps 1 and 2). -/
theorem runCommand_of_decode_error {s : State} {x : DecodeError} (h : decode (s.cmdHi ++ s.cmdLo) = .error x) :
    runCommand s = .next (s.takeFault (decodeFault x)) := by
  simp only [runCommand, h]

/-- Settles O6: the step of a CMD_HI write is the run of the command word, and that run follows what the word decodes
to. -/
theorem stepRunsTheDecodedCommand : Obligations.StepRunsTheDecodedCommand := by
  intro s
  refine ⟨fun r v i hp hd => ?command, fun r v hp hd => ?illegal, fun r v hp hd => ?reserved, step_idle⟩
  case command => exact (step_writeCmdHi hp).trans (runCommand_of_decode_ok hd)
  case illegal => exact (step_writeCmdHi hp).trans (runCommand_of_decode_error (x := .illegal) hd)
  case reserved => exact (step_writeCmdHi hp).trans (runCommand_of_decode_error (x := .reserved) hd)

/-! ## The bit layouts

A register word is its fields appended, so each bit of it, and each field, lies in one part of every append. The
library says this of a range of bits (`BitVec.extractLsb'_append_eq_of_le`, `…_of_add_le`); here it is said of a bit. -/

theorem getLsbD_append_low {v w i : Nat} (x : BitVec v) (y : BitVec w) (h : i < w) :
    (x ++ y).getLsbD i = y.getLsbD i := by
  rw [BitVec.getLsbD_append, if_pos h]

theorem getLsbD_append_high {v w i : Nat} (x : BitVec v) (y : BitVec w) (h : w ≤ i) :
    (x ++ y).getLsbD i = x.getLsbD (i - w) := by
  rw [BitVec.getLsbD_append, if_neg (Nat.not_lt.mpr h)]

theorem getLsbD_flagBit_zero (b : Bool) : (flagBit b).getLsbD 0 = b := by
  simp [flagBit]

/-- Settles O12: in STATUS, FAULT, BACKEND and TX_STATE each position walks down the appends to the whole of the field
it names; the code numbers are closed tables. -/
theorem registerLayouts : Obligations.RegisterLayouts := by
  refine ⟨fun st => ?status, fun x => ?fault, fun se => ?session, ?err, ?link, ?call, ?txs, ?frameClass⟩
  case status | fault | session =>
    simp (disch := omega) only [Status.toWord, FaultReg.toWord, Session.backendWord, Session.txStateWord,
      BitVec.extractLsb'_append_eq_of_le, BitVec.extractLsb'_append_eq_of_add_le, BitVec.extractLsb'_eq_self,
      getLsbD_append_low, getLsbD_append_high, getLsbD_flagBit_zero, BitVec.ofNat_eq_ofNat, Nat.reduceSub, true_and]
  case err | link | call | txs | frameClass => rfl

end Sys2Proof.Machine
end

section
/-! What host accesses of the register space do and leave unchanged (20_memory.md R66 to R68, R71). -/

namespace Sys2Proof

/-- DMEM has at most 8192 bytes (00_scope.md R7). -/
theorem Setup.dmemBytes_le (c : Setup) : c.params.dmemBytes ≤ 8192 := by
  have h := c.wf
  simp only [Params.wf, Bool.and_eq_true, decide_eq_true_eq] at h
  omega

namespace Machine

/-! ## The offsets of DMEM -/

theorem dmemIndex_of_inside {p : Params} {off : Nat} (h : 0x8000 ≤ off ∧ off < 0x8000 + p.dmemBytes) :
    dmemIndex p off = some (off - 0x8000) :=
  if_pos h

theorem dmemIndex_of_outside {p : Params} {off : Nat} (h : ¬ (0x8000 ≤ off ∧ off < 0x8000 + p.dmemBytes)) :
    dmemIndex p off = none :=
  if_neg h

/-- The offset of a DMEM byte fits the 16 bits of a host offset. -/
theorem toNat_dmemOffset (s : State) {k : Nat} (h : k < s.par.dmemBytes) :
    (BitVec.ofNat 16 (0x8000 + k)).toNat = 0x8000 + k := by
  have hle : s.par.dmemBytes ≤ 8192 := Setup.dmemBytes_le s.cfg
  rw [BitVec.toNat_ofNat, Nat.mod_eq_of_lt (by omega)]

theorem dmemIndex_dmemOffset (s : State) {k : Nat} (h : k < s.par.dmemBytes) :
    dmemIndex s.par (BitVec.ofNat 16 (0x8000 + k)).toNat = some k := by
  rw [toNat_dmemOffset s h, dmemIndex_of_inside (by omega), Nat.add_sub_cancel_left]

/-! ## The offsets of the registers -/

/-- The machine reads a register as the map lists it. -/
theorem readReg_of_mem {s : State} {off : BitVec 16} {x : Word} (h : (off, x) ∈ registerMap s) :
    readReg s off.toNat = some x := by
  have hall : ∀ y ∈ registerMap s, readReg s y.1.toNat = some y.2 := by
    simp [registerMap, readReg]
  exact hall _ h

/-- The machine has no register at an offset that the map does not list: each branch of `readReg` but the last is at a
listed offset. -/
theorem readReg_of_not_mem {s : State} {off : BitVec 16} (h : off ∉ (registerMap s).map Prod.fst) :
    readReg s off.toNat = none := by
  unfold readReg
  split
  case h_25 => rfl
  all_goals next hoff => exact absurd (by simp [registerMap, ← BitVec.toNat_inj, hoff]) h

/-- Every register lies below DMEM. -/
theorem registerMap_offset_lt {s : State} {off : BitVec 16} (h : off ∈ (registerMap s).map Prod.fst) :
    off.toNat < 0x8000 := by
  have hall : ∀ o ∈ (registerMap s).map Prod.fst, o.toNat < 0x8000 := by
    simp [registerMap]
  exact hall off h

/-- DMEM is mapped for byte accesses only. -/
theorem not_mapped_of_dmemOffset {s : State} {width : HostWidth} {off : BitVec 16} (hw : width ≠ .byte)
    (hoff : 0x8000 ≤ off.toNat) : ¬ Mapped s width off := by
  rintro (⟨_, hmem⟩ | ⟨hbyte, _⟩)
  · exact absurd (registerMap_offset_lt hmem) (by omega)
  · exact hw hbyte

/-! ## Reads -/

/-- A read returns its value and changes nothing else (20_memory.md R71). -/
theorem step_read {s : State} {off : BitVec 16} {width : HostWidth} {r : List HostEvent}
    (h : s.pending = .read off width :: r) :
    step s = .next { s with pending := r, hostData := hostRead s off width } :=
  step_event h

theorem hostRead_reg {s : State} {off : BitVec 16} {x : Word} (h : (off, x) ∈ registerMap s) :
    hostRead s off .word = x := by
  simp only [hostRead, readReg_of_mem h, Option.getD_some]

theorem hostRead_dmem (s : State) {k : Nat} (h : k < s.par.dmemBytes) :
    hostRead s (BitVec.ofNat 16 (0x8000 + k)) .byte = (s.dmem.byte k).setWidth 32 := by
  simp only [hostRead, dmemIndex_dmemOffset s h]

/-- An unmapped read returns 0 (20_memory.md R68). -/
theorem hostRead_unmapped {s : State} {width : HostWidth} {off : BitVec 16} (h : ¬ Mapped s width off) :
    hostRead s off width = 0 := by
  cases width with
  | word =>
    have hreg : off ∉ (registerMap s).map Prod.fst := fun hmem => h (.inl ⟨rfl, hmem⟩)
    simp only [hostRead, readReg_of_not_mem hreg, Option.getD_none]
  | byte =>
    have hout := dmemIndex_of_outside fun hin => h (.inr ⟨rfl, hin⟩)
    simp only [hostRead, hout]
  | other => rfl

/-! ## Writes -/

theorem step_write {s : State} {off : BitVec 16} {width : HostWidth} {v : Word} {r : List HostEvent}
    (h : s.pending = .write off width v :: r) : step s = hostWrite { s with pending := r } off width v :=
  step_event h

theorem hostWrite_cmdLo (s : State) (v : Word) : hostWrite s 0x0000#16 .word v = .next { s with cmdLo := v } := by
  simp only [hostWrite, if_true]

/-- A 32-bit write of no command register has no effect (20_memory.md R67, R68). -/
theorem hostWrite_word_ignored (s : State) {off : BitVec 16} (hlo : off ≠ 0x0000#16) (hhi : off ≠ 0x0004#16)
    (v : Word) : hostWrite s off .word v = .next s := by
  simp only [hostWrite, if_neg hlo, if_neg hhi]

theorem hostWrite_byte_inside {s : State} {off : BitVec 16} {a : Nat} (h : dmemIndex s.par off.toNat = some a)
    (v : Word) : hostWrite s off .byte v = .next { s with dmem := s.dmem.setByte a (v.setWidth 8) } := by
  simp only [hostWrite, h]

theorem hostWrite_byte_outside {s : State} {off : BitVec 16} (h : dmemIndex s.par off.toNat = none) (v : Word) :
    hostWrite s off .byte v = .next s := by
  simp only [hostWrite, h]

theorem hostWrite_other (s : State) (off : BitVec 16) (v : Word) : hostWrite s off .other v = .next s := rfl

/-- An unmapped write has no effect (20_memory.md R68). -/
theorem hostWrite_unmapped {s : State} {width : HostWidth} {off : BitVec 16} (h : ¬ Mapped s width off) (v : Word) :
    hostWrite s off width v = .next s := by
  cases width with
  | word =>
    have hreg : off ∉ (registerMap s).map Prod.fst := fun hmem => h (.inl ⟨rfl, hmem⟩)
    refine hostWrite_word_ignored s ?_ ?_ v <;>
    · rintro rfl
      exact hreg (by simp [registerMap])
  | byte => exact hostWrite_byte_outside (dmemIndex_of_outside fun hin => h (.inr ⟨rfl, hin⟩)) v
  | other => exact hostWrite_other s off v

/-- What a write other than one of CMD_HI can do: set CMD_LO, set a byte of DMEM, or nothing (20_memory.md R71). -/
theorem hostWrite_cases (s : State) {off : BitVec 16} {width : HostWidth} (h : ¬ (width = .word ∧ off = 0x0004#16))
    (v : Word) :
    (width = .word ∧ off = 0x0000#16 ∧ hostWrite s off width v = .next { s with cmdLo := v })
      ∨ (width = .byte ∧ 0x8000 ≤ off.toNat
        ∧ ∃ m, hostWrite s off width v = .next { s with dmem := m })
      ∨ hostWrite s off width v = .next s := by
  cases width with
  | word =>
    by_cases hlo : off = 0x0000#16
    · subst hlo
      exact .inl ⟨rfl, rfl, hostWrite_cmdLo s v⟩
    · exact .inr (.inr (hostWrite_word_ignored s hlo (fun hhi => h ⟨rfl, hhi⟩) v))
  | byte =>
    by_cases hin : 0x8000 ≤ off.toNat ∧ off.toNat < 0x8000 + s.par.dmemBytes
    · exact .inr (.inl ⟨rfl, hin.1, _, hostWrite_byte_inside (dmemIndex_of_inside hin) v⟩)
    · exact .inr (.inr (hostWrite_byte_outside (dmemIndex_of_outside hin) v))
  | other => exact .inr (.inr (hostWrite_other s off v))

/-! ## The statements -/

/-- Settles O9: a read sets only the value it returns, and that value depends on no field a read changes; what any write
but CMD_HI's can do is `hostWrite_cases`. -/
theorem onlyCmdHiHasASideEffect : Obligations.OnlyCmdHiHasASideEffect := by
  intro s r off width
  refine ⟨step_read, fun v hp hhi => ?write, fun hp => ⟨_, _, step_read hp, step_read rfl, rfl⟩⟩
  case write =>
    rw [step_write hp]
    rcases hostWrite_cases { s with pending := r } hhi v with ⟨hw, ho, e⟩ | ⟨hw, ho, m, e⟩ | e
    · exact ⟨_, e, rfl, fun _ => ⟨hw, ho⟩, fun hne => absurd rfl hne⟩
    · exact ⟨_, e, rfl, fun hne => absurd rfl hne, fun _ => ⟨hw, ho⟩⟩
    · exact ⟨_, e, rfl, fun hne => absurd rfl hne, fun hne => absurd rfl hne⟩

/-- Settles O10: offset 0x8000 + k reaches byte k, and an access of another width there is unmapped. -/
theorem hostDmemBytes : Obligations.HostDmemBytes := by
  intro s r k hk
  refine ⟨fun hp => ?read, fun v hp => ?write, fun width hw => ?otherWidth⟩
  case read => rw [step_read hp, hostRead_dmem s hk]
  case write =>
    have e := hostWrite_byte_inside (s := { s with pending := r }) (dmemIndex_dmemOffset s hk) v
    exact ⟨_, (step_write hp).trans e, Memory.byte_setByte_same .., fun j hj => Memory.byte_setByte_ne _ _ _ _ hj, rfl⟩
  case otherWidth =>
    have hun : ¬ Mapped s width (BitVec.ofNat 16 (0x8000 + k)) :=
      not_mapped_of_dmemOffset hw (by rw [toNat_dmemOffset s hk]; omega)
    refine ⟨fun hp => ?_, fun v hp => ?_⟩
    · rw [step_read hp, hostRead_unmapped hun]
    · exact (step_write hp).trans (hostWrite_unmapped (s := { s with pending := r }) hun v)

/-- Settles O11: the machine's registers are those of the map, at its offsets and no others. -/
theorem registerMapAndUnmappedAccesses : Obligations.RegisterMapAndUnmappedAccesses := by
  intro s r
  refine ⟨fun off x hx hp => ?read, fun off x v _ hlo hhi hp => ?readOnly, fun v hp => ?cmdLo,
    fun off width hun hp => ?unmappedRead, fun off width v hun hp => ?unmappedWrite⟩
  case read => rw [step_read hp, hostRead_reg hx]
  case readOnly => exact (step_write hp).trans (hostWrite_word_ignored _ hlo hhi v)
  case cmdLo => exact (step_write hp).trans (hostWrite_cmdLo _ v)
  case unmappedRead => rw [step_read hp, hostRead_unmapped hun]
  case unmappedWrite => exact (step_write hp).trans (hostWrite_unmapped (s := { s with pending := r }) hun v)

end Machine
end Sys2Proof
end

section
/-! The checks of the commands with DMEM operands (20_memory.md R65), and what a codec command depends on (R72). -/

namespace Sys2Proof

theorem Params.fits_eq_false {p : Params} {a n : Nat} : p.fits a n = false ↔ p.dmemBits < a + n := by
  simp [Params.fits]

theorem Params.descFor_of_slot {p : Params} {sel : BitVec 4} {d : Descriptor} (h : p.slot sel = some d) :
    p.descFor sel = d := by
  simp only [Params.descFor, h, Option.getD_some]

namespace Machine

/-! ## Lists of checks -/

/-- Whether checks pass, and which one fails first, depends on no state. -/
theorem checked_uniform (cs : List (ErrCode × Bool)) :
    (∀ s ok, checked cs s ok = ok) ∨ ∃ x, (x, false) ∈ cs ∧ ∀ s ok, checked cs s ok = s.takeFault x := by
  induction cs with
  | nil => exact .inl fun _ _ => rfl
  | cons c r ih =>
    obtain ⟨x, good⟩ := c
    cases good with
    | false => exact .inr ⟨x, List.mem_cons_self, fun _ _ => rfl⟩
    | true => exact ih.imp_right fun ⟨y, hy, e⟩ => ⟨y, List.mem_cons_of_mem _ hy, e⟩

/-- Checks that do not all pass take the fault `x` when no check with another code fails. -/
theorem checked_fault {cs : List (ErrCode × Bool)} {x : ErrCode} (hfail : cs.all (·.2) = false)
    (honly : ∀ c ∈ cs, c.1 ≠ x → c.2 = true) (s ok : State) : checked cs s ok = s.takeFault x := by
  rcases checked_cases cs s ok with ⟨hall, _⟩ | ⟨y, hy, e⟩
  · exact absurd hall (by simp [hfail])
  · have hyx : y = x := by
      by_contra hne
      exact absurd (honly _ hy hne) Bool.false_ne_true
    exact hyx ▸ e

/-! ## Range checks -/

/-- A command whose checks fail at a range check, and at no other, raises RANGE. -/
theorem next_checked_range {cs : List (ErrCode × Bool)} (hfail : cs.all (·.2) = false)
    (honly : ∀ c ∈ cs, c.1 ≠ .range → c.2 = true) (s ok : State) :
    (Host.Outcome.next (checked cs s ok) : Result) = .next (s.takeFault .range) :=
  congrArg Host.Outcome.next (checked_fault hfail honly s ok)

/-- The range check of two operands fails when either range leaves DMEM. -/
theorem fits_and_fits_eq_false {p : Params} {a n b k : Nat} (h : p.dmemBits < a + n ∨ p.dmemBits < b + k) :
    (p.fits a n && p.fits b k) = false := by
  simpa only [Bool.and_eq_false_iff, Params.fits_eq_false] using h

/-- The checks of two frame regions fail when either leaves DMEM or they overlap. -/
theorem regions_eq_false {p : Params} {a n b k : Nat} {o : Bool}
    (h : p.dmemBits < a + n ∨ p.dmemBits < b + k ∨ o = true) :
    ((p.fits a n && p.fits b k) && !o) = false := by
  simpa only [Bool.and_eq_false_iff, Params.fits_eq_false, Bool.not_eq_false', or_assoc] using h

/-- A codec command whose earlier checks pass raises RANGE when an operand leaves DMEM (60_exceptions.md R310). -/
theorem codecCommand_range {op : StepOp} {rule : CodecRule} {sel : BitVec 4} {x : Operands} {s : State}
    (hvar : op.varOk x.var = true)
    (hsel : (!op.usesSel || ((s.par.slot sel).isSome && op.indexOk (s.par.descFor sel) x.var)) = true)
    (hlen : op.lenOk s.par.vitMax (s.par.descFor sel) x.var x.len = true)
    (hout : s.par.dmemBits < x.src + op.srcBits x.len ∨ s.par.dmemBits < x.dst + op.dstBits x.len) :
    codecCommand op rule sel x s = .next (s.takeFault .range) := by
  refine next_checked_range ?_ ?_ s _
  · simp [codecChecks, fits_and_fits_eq_false hout]
  · simp [codecChecks, hvar, hsel, hlen]

/-- A codec command with a descriptor slot, whose earlier checks pass, raises RANGE when an operand leaves DMEM. -/
theorem codecCommand_range_of_slot {op : StepOp} {rule : CodecRule} {sel : BitVec 4} {x : Operands} {s : State}
    {d : Descriptor} (hd : s.par.slot sel = some d) (hvar : op.varOk x.var = true) (hidx : op.indexOk d x.var = true)
    (hlen : op.lenOk s.par.vitMax d x.var x.len = true)
    (hout : s.par.dmemBits < x.src + op.srcBits x.len ∨ s.par.dmemBits < x.dst + op.dstBits x.len) :
    codecCommand op rule sel x s = .next (s.takeFault .range) := by
  have hdesc := Params.descFor_of_slot hd
  exact codecCommand_range hvar (by simp [hd, hdesc, hidx]) (by rwa [hdesc]) hout

/-- The least LEN of CRCSA and CRCSV for each width (41_crc.md R128, R129). -/
theorem crcsWidth_succ {var : Nat} (h : var ≤ 2) : crcsWidth var + 1 = [6, 7, 9].getD var 0 := by
  interval_cases var <;> rfl

/-- Settles O18: the hypotheses of each clause pass the checks before RANGE and make that one fail, so the codec
commands fall to `codecCommand_range` and the others to `next_checked_range`. -/
theorem rangesOutsideDmemRaiseRange : Obligations.RangesOutsideDmemRaiseRange := by
  intro s var sel ty len dst src d out
  refine ⟨fun i n k hi hout => ?fixed, fun hlen hout => ?movb, fun hvar hlen hout => ?fill, fun hvar hlen hout => ?crcs,
    fun hvar hlen hout => ?crcsaCrcsv, fun heven hlen hmax hout => ?conve, fun hlen hmax hout => ?vitd,
    fun hlen hout => ?envp, fun hlen hout => ?envu, fun hd => ⟨fun hvar hlen hout => ?crc16,
      fun hvar hlen hout => ?crc16aCrc16v, fun tab htab hlen hout => ?ilvDilv, fun seq hseq hlen hmax hout => ?scr,
      fun hlen hout => ?frdec, fun k hk hout => ?frenc, fun hvar hout => ?scon⟩,
    fun hlen hout => ?srxf, fun hvar hout => ?stxt⟩
  case fixed =>
    simp only [List.mem_cons, Prod.mk.injEq, List.not_mem_nil, or_false] at hi
    rcases hi with ⟨rfl, rfl, rfl⟩ | ⟨rfl, rfl, rfl⟩ | ⟨rfl, rfl, rfl⟩ | ⟨rfl, rfl, rfl⟩ | ⟨rfl, rfl, rfl⟩
      | ⟨rfl, rfl, rfl⟩ | ⟨rfl, rfl, rfl⟩ | ⟨rfl, rfl, rfl⟩ | ⟨rfl, rfl, rfl⟩ | ⟨rfl, rfl, rfl⟩ | ⟨rfl, rfl, rfl⟩
      | ⟨rfl, rfl, rfl⟩ <;>
    exact codecCommand_range rfl rfl rfl hout
  case movb => exact codecCommand_range rfl rfl (decide_eq_true hlen) hout
  case fill => exact codecCommand_range (decide_eq_true hvar) rfl (decide_eq_true hlen) (.inr hout)
  case crcs => exact codecCommand_range (decide_eq_true hvar) rfl (decide_eq_true hlen) (.inl hout)
  case crcsaCrcsv =>
    have hw : crcsWidth var.toNat + 1 ≤ len.toNat := crcsWidth_succ hvar ▸ hlen
    constructor <;> exact codecCommand_range (decide_eq_true hvar) rfl (decide_eq_true hw) (.inl hout)
  case conve => exact codecCommand_range rfl rfl (decide_eq_true ⟨heven, hlen, hmax⟩) hout
  case vitd => exact codecCommand_range rfl rfl (decide_eq_true ⟨hlen, hmax⟩) hout
  case envp => exact next_checked_range (by simp [fits_and_fits_eq_false hout]) (by simp [hlen]) s _
  case envu => exact next_checked_range (by simp [fits_and_fits_eq_false hout]) (by simp [hlen]) s _
  case crc16 =>
    exact codecCommand_range_of_slot hd (decide_eq_true hvar) rfl (decide_eq_true hlen) (.inl hout)
  case crc16aCrc16v =>
    constructor <;> exact codecCommand_range_of_slot hd (decide_eq_true hvar) rfl (decide_eq_true hlen) (.inl hout)
  case ilvDilv =>
    have hidx : var.toNat < d.ilv.length := (List.getElem?_eq_some_iff.mp htab).1
    have hlen' : len.toNat = (d.ilv.getD var.toNat []).length := by simp [htab, hlen]
    constructor <;> exact codecCommand_range_of_slot hd rfl (decide_eq_true hidx) (decide_eq_true hlen') hout
  case scr =>
    have hidx : var.toNat < d.whiten.length := (List.getElem?_eq_some_iff.mp hseq).1
    have hlen' : 1 ≤ len.toNat ∧ len.toNat ≤ 8 * (d.whiten.getD var.toNat []).length := by
      simp [hseq, hlen, hmax]
    exact codecCommand_range_of_slot hd rfl (decide_eq_true hidx) (decide_eq_true hlen') hout
  case frdec =>
    have hdesc := Params.descFor_of_slot hd
    exact next_checked_range (by simp [hdesc, regions_eq_false hout]) (by simp [hd, hlen]) s _
  case frenc =>
    have hdesc := Params.descFor_of_slot hd
    have hidx : var.toNat < d.kinds.length := (List.getElem?_eq_some_iff.mp hk).1
    have hn : Descriptor.lenOf d var.toNat = k.lenBits := by simp [Descriptor.lenOf, hk]
    exact next_checked_range (by simp [hdesc, hn, regions_eq_false hout]) (by simp [hd, hdesc, hidx]) s _
  case scon => exact next_checked_range (by simp [Params.fits_eq_false.mpr hout]) (by simp [hd, hvar]) s _
  case srxf => exact next_checked_range (by simp [regions_eq_false hout]) (by simp [hlen]) s _
  case stxt => exact next_checked_range (by simp [regions_eq_false hout]) (by simp [hvar]) s _

/-! ## What a codec command depends on -/

/-- The checks of a codec command raise faults. -/
theorem codecChecks_isFault {op : StepOp} {p : Params} {sel : BitVec 4} {x : Operands} {c : ErrCode × Bool}
    (h : c ∈ codecChecks op p sel x) : c.1.isFault = true := by
  have hall : ∀ c ∈ codecChecks op p sel x, c.1.isFault = true := by
    simp [codecChecks, ErrCode.isFault]
  exact hall c h

/-- The outcome of a codec command is fixed by the parameters and DMEM: it completes with the same results from every
state that has them, or takes the same fault. -/
theorem exec_codec_uniform {i : Instr} (h : isCodec i = true) (c : Setup) (m : Memory) :
    (∃ m' st r r2, ∀ s : State, s.cfg = c → s.dmem = m → exec i s = .next (s.finish m' s.session st r r2))
      ∨ ∃ x : ErrCode, x.isFault = true
        ∧ ∀ s : State, s.cfg = c → s.dmem = m → exec i s = .next (s.takeFault x) := by
  by_cases hn : i = .nop
  · subst hn
    exact .inl ⟨m, {}, 0, 0, fun s _ hm => hm ▸ rfl⟩
  obtain ⟨op, sel, x, he⟩ := exec_codec i h hn
  rcases checked_uniform (codecChecks op c.params sel x) with hpass | ⟨y, hy, hfail⟩
  · let o := stepRule op c.params (c.params.descFor sel) m x
    refine .inl ⟨o.store m, o.status, o.res, o.res2, fun s hc hm => ?_⟩
    subst hc hm
    exact (he s).trans (congrArg Host.Outcome.next (hpass s _))
  · refine .inr ⟨y, codecChecks_isFault hy, fun s hc _ => ?_⟩
    subst hc
    exact (he s).trans (congrArg Host.Outcome.next (hfail s _))

/-- Settles O58: from `exec_codec_uniform`, in each of its two cases. -/
theorem codecCommandsArePure : Obligations.CodecCommandsArePure := by
  intro i s t hi ht
  rcases exec_codec_uniform hi s.cfg s.dmem with ⟨m', st, r, r2, hdone⟩ | ⟨x, hx, hfault⟩
  case inl =>
    obtain rfl := Host.Outcome.next.inj (ht.symm.trans (hdone s rfl rfl))
    refine ⟨rfl, fun _ => rfl, fun s' t' hc hm ht' => ?_⟩
    obtain rfl := Host.Outcome.next.inj (ht'.symm.trans (hdone s' hc hm))
    exact ⟨rfl, rfl, fun _ => ⟨rfl, rfl⟩⟩
  case inr =>
    obtain rfl := Host.Outcome.next.inj (ht.symm.trans (hfault s rfl rfl))
    have habsurd : (s.takeFault x).status.err.isFault ≠ false := by simp [hx]
    refine ⟨rfl, fun h => absurd h habsurd, fun s' t' hc hm ht' => ?_⟩
    obtain rfl := Host.Outcome.next.inj (ht'.symm.trans (hfault s' hc hm))
    exact ⟨hm, rfl, fun h => absurd h habsurd⟩

end Machine
end Sys2Proof
end

section
/-! The decoder and the encoder (30_encoding.md R80 to R90) undo each other, and a word that decodes to no command is
rejected as ILLEGAL or RESERVED by its opcode. -/

namespace Sys2Proof

/-! ## From a command to its word -/

open Laws.FieldsDecode in
/-- A well-formed command is what its fields decode to, whatever its row of the table (30_encoding.md R87). -/
theorem decodeFields_fields : ∀ i : Instr, i.wf = true → decodeFields i.fields = .ok i
  | .nop => nop
  | .movb len dst src => movb len dst src
  | .fill var len dst => fill var len dst
  | .crc16 var sel len src => crc16 var sel len src
  | .crc16a var sel len src => crc16a var sel len src
  | .crc16v var sel len src => crc16v var sel len src
  | .crcs var len src => crcs var len src
  | .crcsa var len src => crcsa var len src
  | .crcsv var len src => crcsv var len src
  | .gol24e dst src => gol24e dst src
  | .gol24d dst src => gol24d dst src
  | .gol23e dst src => gol23e dst src
  | .gol23d dst src => gol23d dst src
  | .h1511e dst src => h1511e dst src
  | .h1511d dst src => h1511d dst src
  | .h1611e dst src => h1611e dst src
  | .h1611d dst src => h1611d dst src
  | .h139e dst src => h139e dst src
  | .h139d dst src => h139d dst src
  | .bptce dst src => bptce dst src
  | .bptcd dst src => bptcd dst src
  | .conve len dst src => conve len dst src
  | .vitd len dst src => vitd len dst src
  | .ilv var sel len dst src => ilv var sel len dst src
  | .dilv var sel len dst src => dilv var sel len dst src
  | .scr var sel len dst src => scr var sel len dst src
  | .frdec sel len dst src => frdec sel len dst src
  | .frenc var sel dst src => frenc var sel dst src
  | .envp ty len dst src => envp ty len dst src
  | .envu len dst src => envu len dst src
  | .scon var sel src => scon var sel src
  | .slnk var => slnk var
  | .sdis => sdis
  | .srxf len dst src => srxf len dst src
  | .srxt var => srxt var
  | .stxs imm => stxs imm
  | .stxe => stxe
  | .stxt var dst src => stxt var dst src

theorem decode_encode {i : Instr} (h : i.wf = true) : decode (encode i) = .ok i :=
  (decode_word i.fields).trans (decodeFields_fields i h)

/-- Settles O1: unpacking undoes packing, and the fields of each well-formed command decode to it. -/
theorem decodeOfEncode : Obligations.DecodeOfEncode :=
  fun _ => decode_encode

/-! ## From a word to its command -/

/-- VAR and SEL are the halves of the type byte they make (30_encoding.md R82). -/
theorem halves_typeByte (var sel : BitVec 4) :
    (var ++ sel : BitVec 8).extractLsb' 4 4 = var ∧ (var ++ sel : BitVec 8).extractLsb' 0 4 = sel :=
  ⟨BitVec.extractLsb'_append_eq_left, BitVec.extractLsb'_append_eq_right⟩

/-- DST and SRC are the halves of the immediate they make (30_encoding.md R82). -/
theorem halves_imm32 (dst src : BitVec 16) :
    (dst ++ src : BitVec 32).extractLsb' 16 16 = dst ∧ (dst ++ src : BitVec 32).extractLsb' 0 16 = src :=
  ⟨BitVec.extractLsb'_append_eq_left, BitVec.extractLsb'_append_eq_right⟩

/-- A row of the table loses nothing when its check fixes every field but the opcode that its command does not hold. -/
theorem fields_of_decodeIf {ok : Bool} {f : Fields} {i j : Instr} (h : decodeIf ok i = .ok j)
    (hopc : f.opc.toNat = i.fields.opc.toNat)
    (hrow : ok = true → i.wf = true ∧ i.fields = { f with opc := i.fields.opc }) : j.wf = true ∧ j.fields = f := by
  obtain ⟨hok, rfl⟩ := decodeIf_eq_ok h
  obtain ⟨hwf, hfields⟩ := hrow hok
  exact ⟨hwf, hfields.trans (BitVec.eq_of_toNat_eq hopc ▸ rfl)⟩

/-- Fields that decode are those of the well-formed command they decode to (30_encoding.md R84). -/
theorem fields_of_decodeFields {f : Fields} {i : Instr} (h : decodeFields f = .ok i) :
    i.wf = true ∧ i.fields = f := by
  unfold decodeFields at h
  split at h
  case h_39 => cases h
  all_goals
    next hopc =>
    refine fields_of_decodeIf h hopc fun hok => ?_
    simp only [Bool.and_eq_true, beq_iff_eq] at hok
    simp [Instr.wf, Instr.fields, hok, halves_typeByte, halves_imm32]

theorem encode_of_decode {w : Command} {i : Instr} (h : decode w = .ok i) : i.wf = true ∧ encode i = w := by
  obtain ⟨hwf, hfields⟩ := fields_of_decodeFields h
  exact ⟨hwf, (congrArg Fields.word hfields).trans (Fields.word_ofWord w)⟩

/-- Settles O2: the fields of the word are the command's, and packing undoes unpacking. -/
theorem encodeOfDecode : Obligations.EncodeOfDecode :=
  fun _ _ => encode_of_decode

/-- Settles O5: each word is unpacked and its row checked. -/
theorem sampleWordsDecode : Obligations.SampleWordsDecode :=
  ⟨rfl, rfl, rfl, rfl, rfl, rfl, rfl, rfl, rfl⟩

/-! ## Words that are no command -/

namespace Machine

theorem decodeIf_ne_illegal (ok : Bool) (i : Instr) : decodeIf ok i ≠ .error .illegal := by
  cases ok <;> simp [decodeIf]

/-- The opcodes that no row of the table has are the unassigned ones (30_encoding.md R90). -/
theorem decodeFields_eq_illegal_iff (f : Fields) : decodeFields f = .error .illegal ↔ Unassigned f.opc.toNat := by
  unfold decodeFields
  split
  case h_39 =>
    have hlt : f.opc.toNat < 256 := f.opc.isLt
    refine iff_of_true rfl ?_
    -- each row that does not match is a hypothesis `_ → False`, which `omega` reads only as `¬ _`
    simp only [imp_false] at *
    unfold Unassigned
    omega
  all_goals
    next hopc =>
    refine iff_of_false (decodeIf_ne_illegal _ _) ?_
    simp [hopc, Unassigned]

/-- OPC lies in bits 31 to 24 of CMD_HI (30_encoding.md R80, R81). -/
theorem opc_ofWord_append (hi lo : Word) : (Fields.ofWord (hi ++ lo)).opc = hi.extractLsb' 24 8 :=
  BitVec.extractLsb'_append_eq_of_le (by decide)

theorem decode_eq_illegal_iff (hi lo : Word) :
    decode (hi ++ lo) = .error .illegal ↔ Unassigned (hi.extractLsb' 24 8).toNat := by
  rw [decode, decodeFields_eq_illegal_iff, opc_ofWord_append]

/-- Settles O3: a word decodes to ILLEGAL exactly when its opcode is unassigned. -/
theorem illegalExactlyOnUnassignedOpcodes : Obligations.IllegalExactlyOnUnassignedOpcodes := by
  intro s
  have hiff := decode_eq_illegal_iff s.cmdHi s.cmdLo
  exact ⟨fun hopc => runCommand_of_decode_error (x := .illegal) (hiff.mpr hopc), fun hopc hd => hopc (hiff.mp hd)⟩

/-- Settles O4: by what the word decodes to. With RESERVED it is the encoding of no well-formed command, since such an
encoding decodes. -/
theorem reservedFieldsRaiseReserved : Obligations.ReservedFieldsRaiseReserved := by
  intro s hopc
  cases hd : decode (s.cmdHi ++ s.cmdLo) with
  | ok i =>
    obtain ⟨hwf, henc⟩ := encode_of_decode hd
    exact .inl ⟨i, hwf, henc, runCommand_of_decode_ok hd⟩
  | error x =>
    cases x with
    | illegal => exact absurd ((decode_eq_illegal_iff _ _).mp hd) hopc
    | reserved =>
      refine .inr ⟨fun i hwf henc => ?_, runCommand_of_decode_error (x := .reserved) hd⟩
      have hdec := decode_encode hwf
      rw [henc, hd] at hdec
      cases hdec

end Machine
end Sys2Proof
end

section
/-! The checks before RANGE: a slot or an index that names nothing (30_encoding.md R85), and a LEN outside its legal
range (R86). -/

namespace Sys2Proof.Machine

/-! ## The check that fails first -/

/-- The first check that fails gives the fault, whatever the checks after it (60_exceptions.md R310). -/
theorem next_checked_fault {pre post : List (ErrCode × Bool)} {x : ErrCode} {good : Bool}
    (hpre : pre.all (·.2) = true) (hfail : good = false) (s ok : State) :
    (Host.Outcome.next (checked (pre ++ (x, good) :: post) s ok) : Result) = .next (s.takeFault x) := by
  subst hfail
  induction pre with
  | nil => rfl
  | cons c r ih =>
    obtain ⟨y, good⟩ := c
    obtain ⟨rfl, hr⟩ : good = true ∧ r.all (·.2) = true := by simpa using hpre
    exact ih hr

/-- A codec command with a legal VAR raises BAD_SEL when its check of the slot and the index fails. -/
theorem codecCommand_badSel {op : StepOp} {rule : CodecRule} {sel : BitVec 4} {x : Operands} {s : State}
    (hvar : op.varOk x.var = true)
    (hsel : (!op.usesSel || ((s.par.slot sel).isSome && op.indexOk (s.par.descFor sel) x.var)) = false) :
    codecCommand op rule sel x s = .next (s.takeFault .badSel) :=
  next_checked_fault (pre := [(.reserved, op.varOk x.var)]) (by simp [hvar]) hsel s _

theorem codecCommand_badSel_of_empty {op : StepOp} {rule : CodecRule} {sel : BitVec 4} {x : Operands} {s : State}
    (huses : op.usesSel = true) (hvar : op.varOk x.var = true) (hslot : s.par.slot sel = none) :
    codecCommand op rule sel x s = .next (s.takeFault .badSel) :=
  codecCommand_badSel hvar (by simp [huses, hslot])

theorem codecCommand_badSel_of_index {op : StepOp} {rule : CodecRule} {sel : BitVec 4} {x : Operands} {s : State}
    {d : Descriptor} (huses : op.usesSel = true) (hvar : op.varOk x.var = true) (hd : s.par.slot sel = some d)
    (hidx : op.indexOk d x.var = false) : codecCommand op rule sel x s = .next (s.takeFault .badSel) :=
  codecCommand_badSel hvar (by simp [huses, Params.descFor_of_slot hd, hidx])

/-- A codec command whose VAR, slot and index pass raises BAD_LEN when LEN is outside its legal range. -/
theorem codecCommand_badLen {op : StepOp} {rule : CodecRule} {sel : BitVec 4} {x : Operands} {s : State}
    (hvar : op.varOk x.var = true)
    (hsel : (!op.usesSel || ((s.par.slot sel).isSome && op.indexOk (s.par.descFor sel) x.var)) = true)
    (hlen : op.lenOk s.par.vitMax (s.par.descFor sel) x.var x.len = false) :
    codecCommand op rule sel x s = .next (s.takeFault .badLen) :=
  next_checked_fault (pre := [(.reserved, op.varOk x.var), (.badSel, _)]) (by simp [hvar, hsel]) hlen s _

theorem codecCommand_badLen_of_slot {op : StepOp} {rule : CodecRule} {sel : BitVec 4} {x : Operands} {s : State}
    {d : Descriptor} (hd : s.par.slot sel = some d) (hvar : op.varOk x.var = true) (hidx : op.indexOk d x.var = true)
    (hlen : op.lenOk s.par.vitMax d x.var x.len = false) :
    codecCommand op rule sel x s = .next (s.takeFault .badLen) := by
  have hdesc := Params.descFor_of_slot hd
  exact codecCommand_badLen hvar (by simp [hd, hdesc, hidx]) (by rwa [hdesc])

/-! ## The statements -/

/-- Settles O16: the slot check of SCON, FRDEC and FRENC comes first or after a VAR that passes; the codec commands fall
to `codecCommand_badSel_of_empty` and `codecCommand_badSel_of_index`. -/
theorem emptySlotOrBadIndexIsBadSel : Obligations.EmptySlotOrBadIndexIsBadSel := by
  intro s var sel len dst src
  refine ⟨fun hslot => ⟨fun hvar => ?varCommands, ?ilv, ?dilv, ?scr, ?frdec, ?frenc⟩,
    fun d hd => ⟨fun hidx => ?ilvDilvIndex, fun hidx => ?scrIndex, fun hidx => ?frencIndex⟩⟩
  case varCommands =>
    have hok := decide_eq_true hvar
    refine ⟨codecCommand_badSel_of_empty rfl hok hslot, codecCommand_badSel_of_empty rfl hok hslot,
      codecCommand_badSel_of_empty rfl hok hslot, ?scon⟩
    case scon => exact next_checked_fault (pre := [(.reserved, _)]) (by simp [hvar]) (by simp [hslot]) s _
  case ilv | dilv | scr => exact codecCommand_badSel_of_empty rfl rfl hslot
  case frdec | frenc => exact next_checked_fault (pre := []) rfl (by simp [hslot]) s _
  case ilvDilvIndex =>
    have hbad := decide_eq_false (Nat.not_lt.mpr hidx)
    exact ⟨codecCommand_badSel_of_index rfl rfl hd hbad, codecCommand_badSel_of_index rfl rfl hd hbad⟩
  case scrIndex => exact codecCommand_badSel_of_index rfl rfl hd (decide_eq_false (Nat.not_lt.mpr hidx))
  case frencIndex =>
    exact next_checked_fault (pre := []) rfl (by simp [Params.descFor_of_slot hd, hidx]) s _

/-- Settles O17: the hypotheses of each clause pass the checks before BAD_LEN and put LEN outside its range. -/
theorem lengthsOutsideTheTableAreBadLen : Obligations.LengthsOutsideTheTableAreBadLen := by
  intro s var sel ty len dst src d
  refine ⟨fun hlen => ?zero, fun hvar hlen => ?crcsaCrcsv, fun hlen => ?conve, fun hlen => ?vitd, fun hlen => ?envp,
    fun hlen => ?envu, fun hd => ⟨fun hvar hlen => ?crc16, fun hvar hlen => ?crc16aCrc16v, fun tab htab hlen => ?ilvDilv,
      fun seq hseq hlen => ?scr, fun hlen => ?frdec⟩⟩
  case zero =>
    have hbad : decide (1 ≤ len.toNat) = false := by simp [hlen]
    exact ⟨codecCommand_badLen rfl rfl hbad, fun hvar => codecCommand_badLen (decide_eq_true hvar) rfl hbad,
      fun hvar => codecCommand_badLen (decide_eq_true hvar) rfl hbad, next_checked_fault (pre := []) rfl hbad s _⟩
  case crcsaCrcsv =>
    have hbad : decide (crcsWidth var.toNat + 1 ≤ len.toNat) = false :=
      decide_eq_false (Nat.not_le.mpr (crcsWidth_succ hvar ▸ hlen))
    constructor <;> exact codecCommand_badLen (decide_eq_true hvar) rfl hbad
  case conve =>
    have hbad : ¬ (len.toNat % 2 = 0 ∧ 2 ≤ len.toNat ∧ len.toNat ≤ 2 * s.par.vitMax) := by omega
    exact codecCommand_badLen rfl rfl (decide_eq_false hbad)
  case vitd =>
    have hbad : ¬ (1 ≤ len.toNat ∧ len.toNat ≤ s.par.vitMax) := by omega
    exact codecCommand_badLen rfl rfl (decide_eq_false hbad)
  case envp => exact next_checked_fault (pre := []) rfl (decide_eq_false (Nat.not_le.mpr hlen)) s _
  case envu => exact next_checked_fault (pre := []) rfl (decide_eq_false (Nat.not_le.mpr hlen)) s _
  case crc16 =>
    have hbad : ¬ 1 ≤ len.toNat := by omega
    exact codecCommand_badLen_of_slot hd (decide_eq_true hvar) rfl (decide_eq_false hbad)
  case crc16aCrc16v =>
    constructor <;>
    exact codecCommand_badLen_of_slot hd (decide_eq_true hvar) rfl (decide_eq_false (Nat.not_le.mpr hlen))
  case ilvDilv =>
    obtain ⟨hidx, _⟩ := List.getElem?_eq_some_iff.mp htab
    have hbad : len.toNat ≠ (d.ilv.getD var.toNat []).length := by simpa [htab] using hlen
    constructor <;> exact codecCommand_badLen_of_slot hd rfl (decide_eq_true hidx) (decide_eq_false hbad)
  case scr =>
    obtain ⟨hidx, _⟩ := List.getElem?_eq_some_iff.mp hseq
    have hbad : ¬ (1 ≤ len.toNat ∧ len.toNat ≤ 8 * (d.whiten.getD var.toNat []).length) := by
      simp only [List.getD_eq_getElem?_getD, hseq, Option.getD_some]
      omega
    exact codecCommand_badLen_of_slot hd rfl (decide_eq_true hidx) (decide_eq_false hbad)
  case frdec =>
    exact next_checked_fault (pre := [(.badSel, _)]) (by simp [hd]) (decide_eq_false (by omega)) s _

end Sys2Proof.Machine
end

section
/-! The commands that complete: a codec command whose checks all pass (60_exceptions.md R310) runs its rule, and NOP, MOVB
and FILL do what 40_control.md R110 to R112 say. -/

namespace Sys2Proof

theorem Params.fits_eq_true {p : Params} {a n : Nat} : p.fits a n = true ↔ a + n ≤ p.dmemBits := by
  simp [Params.fits]

namespace Machine

/-! ## Completion -/

/-- Bit `k` of a stored vector is at the `k`-th address of its range (00_scope.md R10). -/
theorem Stored.bit_inside {m m' : Memory} {a k : Nat} {bits : Bits} (h : Stored m m' a bits) (hk : k < bits.length) :
    m'.bit (a + k) = bits.get k := by
  rw [← Memory.get_readBits m' a bits.length k hk, h.reads]

/-- A command that completes with its output bits stored and the session kept. -/
theorem State.finish_codecDone (s : State) (a : Nat) (bits : Bits) (st : Status) (r r2 : Word) :
    CodecDone s (s.finish (s.dmem.writeBits a bits) s.session st r r2) a bits st r r2 :=
  ⟨rfl, rfl, rfl, s.dmem.writeBits_stored a bits, rfl, rfl, s.finish_keepsPort ..⟩

/-- A command that completes with DMEM and the session kept. -/
theorem State.finish_readOnlyDone (s : State) (st : Status) (r r2 : Word) :
    ReadOnlyDone s (s.finish s.dmem s.session st r r2) st r r2 :=
  ⟨rfl, rfl, rfl, rfl, rfl, rfl, s.finish_keepsPort ..⟩

/-- A codec command with a legal VAR, slot, index and LEN and its ranges inside DMEM completes with what its rule
computes. -/
theorem codecCommand_finish {op : StepOp} {rule : CodecRule} {sel : BitVec 4} {x : Operands} {s : State} {o : CodecOut}
    (hvar : op.varOk x.var = true)
    (hsel : (!op.usesSel || ((s.par.slot sel).isSome && op.indexOk (s.par.descFor sel) x.var)) = true)
    (hlen : op.lenOk s.par.vitMax (s.par.descFor sel) x.var x.len = true)
    (hsrc : x.src + op.srcBits x.len ≤ s.par.dmemBits) (hdst : x.dst + op.dstBits x.len ≤ s.par.dmemBits)
    (ho : rule s.par (s.par.descFor sel) s.dmem x = o) :
    codecCommand op rule sel x s = .next (s.finish (o.store s.dmem) s.session o.status o.res o.res2) := by
  subst ho
  have hpass : (codecChecks op s.par sel x).all (·.2) = true := by
    simp [codecChecks, hvar, hsel, hlen, Params.fits_eq_true.mpr hsrc, Params.fits_eq_true.mpr hdst]
  exact congrArg Host.Outcome.next (checked_pass hpass s _)

/-- The same with the frame of a command that stores its output bits. -/
theorem codecCommand_done {op : StepOp} {rule : CodecRule} {sel : BitVec 4} {x : Operands} {s : State} {o : CodecOut}
    (hvar : op.varOk x.var = true)
    (hsel : (!op.usesSel || ((s.par.slot sel).isSome && op.indexOk (s.par.descFor sel) x.var)) = true)
    (hlen : op.lenOk s.par.vitMax (s.par.descFor sel) x.var x.len = true)
    (hsrc : x.src + op.srcBits x.len ≤ s.par.dmemBits) (hdst : x.dst + op.dstBits x.len ≤ s.par.dmemBits)
    (ho : rule s.par (s.par.descFor sel) s.dmem x = o) :
    ∃ t : State, codecCommand op rule sel x s = .next t ∧ CodecDone s t o.addr o.bits o.status o.res o.res2 :=
  ⟨_, codecCommand_finish hvar hsel hlen hsrc hdst ho, s.finish_codecDone ..⟩

/-! ## MOVB and FILL -/

/-- MOVB stores at DST the bits at SRC as they were before (40_control.md R111, 20_memory.md R70). -/
theorem exec_movb_done {s : State} {len dst src : BitVec 16} (hlen : 1 ≤ len.toNat)
    (hsrc : src.toNat + len.toNat ≤ s.par.dmemBits) (hdst : dst.toNat + len.toNat ≤ s.par.dmemBits) :
    ∃ t : State, exec (.movb len dst src) s = .next t
      ∧ CodecDone s t dst.toNat (s.dmem.readBits src.toNat len.toNat) {} 0 0 :=
  codecCommand_done (op := .movb) (rule := ruleMovb) rfl rfl (decide_eq_true hlen) hsrc hdst rfl

/-- The fill value of 40_control.md R112, read from VAR as a number or as a word. -/
theorem toNat_beq_one (var : BitVec 4) : (var.toNat == 1) = (var == 1) := by
  rw [Bool.eq_iff_iff, beq_iff_eq, beq_iff_eq, BitVec.toNat_eq]
  rfl

/-- FILL stores LEN copies of its value at DST; it has no source range to check (40_control.md R112). -/
theorem exec_fill_done {s : State} {var : BitVec 4} {len dst : BitVec 16} (hvar : var.toNat ≤ 1)
    (hlen : 1 ≤ len.toNat) (hdst : dst.toNat + len.toNat ≤ s.par.dmemBits) :
    ∃ t : State, exec (.fill var len dst) s = .next t
      ∧ CodecDone s t dst.toNat (List.replicate len.toNat (var == 1)) {} 0 0 := by
  rw [← toNat_beq_one]
  exact codecCommand_done (op := .fill) (rule := ruleFill) (decide_eq_true hvar) rfl (decide_eq_true hlen)
    (Nat.zero_le _) hdst rfl

/-! ## The statements -/

/-- A STATUS with no code, no flag and no count reads as 0 (10_state.md R24). -/
theorem Status.toWord_cleared : ({} : Status).toWord = 0 := by decide

/-- Settles O19: NOP has no check, so it completes from every state. -/
theorem nopClearsTheResults : Obligations.NopClearsTheResults :=
  fun s => ⟨_, rfl, s.finish_readOnlyDone {} 0 0, Status.toWord_cleared⟩

/-- Settles O20: from `exec_movb_done` and `exec_fill_done`; the bits MOVB stores were read from the memory before it,
so an overlap of the two ranges does not matter. -/
theorem movbCopiesAndFillSets : Obligations.MovbCopiesAndFillSets := by
  refine ⟨fun s len dst src hlen hsrc hdst => ?movb, fun s var len dst => exec_fill_done⟩
  case movb =>
    obtain ⟨t, ht, hdone⟩ := exec_movb_done hlen hsrc hdst
    refine ⟨t, ht, hdone, fun k hk => ?_⟩
    rw [hdone.stored.bit_inside (by simpa using hk), Memory.get_readBits _ _ _ _ hk]

end Machine
end Sys2Proof
end

section
/-! The CRC Engine (41_crc.md): the register of CRC16 as a linear map over XOR, what a single bit error does to a CRC, and
the six CRC commands. -/

namespace Sys2Proof

/-! ## Bit vectors as words -/

/-- Vectors of the same length are determined by their integers. -/
theorem Bits.toNat_inj {u v : Bits} (h : u.length = v.length) : u.toNat = v.toNat ↔ u = v :=
  ⟨fun e => by rw [← Bits.ofNat_toNat u, ← Bits.ofNat_toNat v, h, e], congrArg _⟩

/-- A vector as long as a word reads the same as a natural number and as that word. -/
theorem Bits.toNat_ofNat_toNat {w : Nat} {v : Bits} (h : v.length = w) : (BitVec.ofNat w v.toNat).toNat = v.toNat := by
  rw [BitVec.toNat_ofNat, Nat.mod_eq_of_lt (h ▸ v.toNat_lt)]

namespace Machine

/-! ## Reading DMEM -/

/-- A field reads the same from two memories that agree on its bits. -/
theorem Memory.readBits_congr {m m' : Memory} {a n : Nat} (h : ∀ b, a ≤ b → b < a + n → m'.bit b = m.bit b) :
    m'.readBits a n = m.readBits a n := by
  refine List.map_congr_left fun i hi => h (a + i) (Nat.le_add_right a i) ?_
  have : i < n := List.mem_range.mp hi
  omega

/-- The `n` bits at bit address `a` as a word: what CRC16V reads as the stored CRC, and each byte `readBytes` lists. -/
def Memory.readWord (m : Memory) (a n : Nat) : BitVec n :=
  BitVec.ofNat n (m.readBits a n).toNat

theorem Memory.readWord_congr {m m' : Memory} {a n : Nat} (h : ∀ b, a ≤ b → b < a + n → m'.bit b = m.bit b) :
    m'.readWord a n = m.readWord a n := by
  simp only [Memory.readWord, Memory.readBits_congr h]

/-- Words read from memories that differ in one of their bits differ. -/
theorem Memory.readWord_ne {m m' : Memory} {a n b : Nat} (ha : a ≤ b) (hb : b < a + n) (h : m'.bit b ≠ m.bit b) :
    m'.readWord a n ≠ m.readWord a n := by
  intro heq
  have hnat := congrArg BitVec.toNat heq
  simp only [Memory.readWord, Bits.toNat_ofNat_toNat (Memory.length_readBits ..)] at hnat
  have hbits := (Bits.toNat_inj (by simp)).mp hnat
  have hget := congrArg (Bits.get · (b - a)) hbits
  simp only [Memory.get_readBits _ a n (b - a) (by omega), Nat.add_sub_cancel' ha] at hget
  exact h hget

/-- The bits of a word read are those of the field. -/
theorem Memory.ofNat_readWord (m : Memory) (a n : Nat) : Bits.ofNat n (m.readWord a n).toNat = m.readBits a n := by
  have h := Bits.ofNat_toNat (m.readBits a n)
  rwa [Memory.length_readBits, ← Bits.toNat_ofNat_toNat (Memory.length_readBits m a n)] at h

theorem Memory.readBytes_congr {m m' : Memory} {a n : Nat} (h : ∀ b, a ≤ b → b < a + 8 * n → m'.bit b = m.bit b) :
    m'.readBytes a n = m.readBytes a n := by
  refine List.map_congr_left fun i hi => Memory.readWord_congr fun b ha hb => h b (by omega) ?_
  have : i < n := List.mem_range.mp hi
  omega

/-- The bytes before, at and after byte `i` of a buffer. -/
theorem Memory.readBytes_split (m : Memory) (a i k : Nat) :
    m.readBytes a (i + (1 + k))
      = m.readBytes a i ++ m.readWord (a + 8 * i) 8 :: m.readBytes (a + 8 * (i + 1)) k := by
  have hrest : ∀ j, a + 8 * (i + (1 + j)) = a + 8 * (i + 1) + 8 * j := by omega
  simp [Memory.readBytes, Memory.readWord, List.range_add, hrest, Function.comp_def]

/-! ## One bit error -/

/-- DMEM with bit address `b` inverted: the memory of `State.flipBit`. -/
def Memory.flipBit (m : Memory) (b : Nat) : Memory :=
  m.setBit b (!m.bit b)

@[simp] theorem State.flipBit_par (s : State) (b : Nat) : (s.flipBit b).par = s.par := rfl
@[simp] theorem State.flipBit_dmem (s : State) (b : Nat) : (s.flipBit b).dmem = s.dmem.flipBit b := rfl

theorem Memory.bit_flipBit_same (m : Memory) (b : Nat) : (m.flipBit b).bit b ≠ m.bit b := by
  simp [Memory.flipBit, Memory.bit_setBit_same]

theorem Memory.bit_flipBit_ne (m : Memory) {b c : Nat} (h : c ≠ b) : (m.flipBit b).bit c = m.bit c :=
  m.bit_setBit_ne b c _ h

/-! ## The CRC16 register -/

/-- The bit step is linear over XOR. -/
theorem crc16Bit_xor (poly : BitVec 16) : Function.Semiconj₂ (crc16Bit poly) (· ^^^ ·) (· ^^^ ·) := by
  intro x y
  simp only [crc16Bit, BitVec.msb_xor, BitVec.shiftLeft_xor_distrib]
  cases x.msb <;> cases y.msb <;> grind

/-- The polynomial's bit 0 records whether the bit shifted out was 1. -/
theorem getLsbD_zero_crc16Bit {poly : BitVec 16} (hpoly : poly.getLsbD 0 = true) (c : BitVec 16) :
    (crc16Bit poly c).getLsbD 0 = c.msb := by
  cases h : c.msb <;> simp [crc16Bit, h, hpoly]

/-- No bit is lost in a step when bit 0 of the polynomial is 1. -/
theorem crc16Bit_injective {poly : BitVec 16} (hpoly : poly.getLsbD 0 = true) : Function.Injective (crc16Bit poly) := by
  intro x y h
  have hmsb : x.msb = y.msb := by rw [← getLsbD_zero_crc16Bit hpoly x, h, getLsbD_zero_crc16Bit hpoly]
  have hshift : x <<< 1 = y <<< 1 := by
    cases hy : y.msb <;> simpa [crc16Bit, hmsb, hy] using h
  refine BitVec.eq_of_getMsbD_eq fun i hi => ?_
  cases i with
  | zero => exact hmsb
  | succ i => simpa [Nat.add_comm, show i < 15 by omega] using congrArg (BitVec.getMsbD · i) hshift

/-- While the bits shifted out are 0, steps only shift. -/
theorem iterate_crc16Bit_of_getMsbD (poly x : BitVec 16) (n : Nat) (h : ∀ i < n, x.getMsbD i = false) :
    (crc16Bit poly)^[n] x = x <<< n := by
  induction n with
  | zero => simp
  | succ n ih =>
    have hmsb : (x <<< n).msb = false := BitVec.msb_shiftLeft.trans (h n n.lt_succ_self)
    rw [Function.iterate_succ_apply', ih fun i hi => h i (Nat.lt_succ_of_lt hi), BitVec.shiftLeft_add, crc16Bit, hmsb]
    rfl

/-- The byte as it enters the register (41_crc.md R120). -/
def crc16Entry (p : Params) (b : Byte) : BitVec 16 :=
  (if p.crc16Reflect then b.reverse else b).setWidth 16 <<< 8

theorem crc16Byte_eq (p : Params) (c : BitVec 16) (b : Byte) :
    crc16Byte p c b = (crc16Bit p.crc16Poly)^[8] (c ^^^ crc16Entry p b) := rfl

theorem crc16Entry_injective (p : Params) : Function.Injective (crc16Entry p) := by
  intro x y h
  have hbyte : (if p.crc16Reflect then x.reverse else x) = (if p.crc16Reflect then y.reverse else y) := by
    unfold crc16Entry at h
    bv_omega
  cases hr : p.crc16Reflect with
  | false => simpa [hr] using hbyte
  | true => simpa [hr] using congrArg BitVec.reverse hbyte

section
variable {p : Params} (hpoly : p.crc16Poly.getLsbD 0 = true)
include hpoly

/-- The byte step loses nothing of the register. -/
theorem crc16Byte_register_injective (b : Byte) : Function.Injective (crc16Byte p · b) :=
  ((crc16Bit_injective hpoly).iterate 8).comp fun _ _ h => (BitVec.xor_left_inj _).mp h

/-- The byte step loses nothing of the byte. -/
theorem crc16Byte_byte_injective (c : BitVec 16) : Function.Injective (crc16Byte p c) :=
  ((crc16Bit_injective hpoly).iterate 8).comp fun _ _ h => crc16Entry_injective p ((BitVec.xor_right_inj _).mp h)

theorem foldl_crc16Byte_injective (bytes : List Byte) : Function.Injective (bytes.foldl (crc16Byte p)) := by
  induction bytes with
  | nil => exact Function.injective_id
  | cons b r ih => exact ih.comp (crc16Byte_register_injective hpoly b)

/-- Two buffers that differ in one byte have different CRCs. -/
theorem crc16Raw_ne {x y : Byte} (h : x ≠ y) (pre post : List Byte) :
    crc16Raw p (pre ++ x :: post) ≠ crc16Raw p (pre ++ y :: post) := by
  have hfold : (pre ++ x :: post).foldl (crc16Byte p) p.crc16Init
      ≠ (pre ++ y :: post).foldl (crc16Byte p) p.crc16Init := by
    simp only [List.foldl_append, List.foldl_cons]
    exact fun e => h (crc16Byte_byte_injective hpoly _ (foldl_crc16Byte_injective hpoly post e))
  cases hr : p.crc16Reflect with
  | false => simpa [crc16Raw, hr] using hfold
  | true => simpa [crc16Raw, hr] using fun e => hfold (by simpa using congrArg BitVec.reverse e)

/-- A bit error in the bytes changes their CRC (41_crc.md R125 (b)). -/
theorem crc16_flipBit_ne (d : Descriptor) (m : Memory) {a n b : Nat} (v : Nat) (ha : a ≤ b) (hb : b < a + 8 * n) :
    crc16 p d (m.flipBit b) a n v ≠ crc16 p d m a n v := by
  obtain ⟨i, k, hn, hlo, hhi⟩ : ∃ i k, n = i + (1 + k) ∧ a + 8 * i ≤ b ∧ b < a + 8 * i + 8 :=
    ⟨(b - a) / 8, n - 1 - (b - a) / 8, by omega, by omega, by omega⟩
  have hbefore : (m.flipBit b).readBytes a i = m.readBytes a i :=
    Memory.readBytes_congr fun c _ _ => m.bit_flipBit_ne (by omega)
  have hafter : (m.flipBit b).readBytes (a + 8 * (i + 1)) k = m.readBytes (a + 8 * (i + 1)) k :=
    Memory.readBytes_congr fun c _ _ => m.bit_flipBit_ne (by omega)
  have hbyte : (m.flipBit b).readWord (a + 8 * i) 8 ≠ m.readWord (a + 8 * i) 8 :=
    Memory.readWord_ne hlo hhi (m.bit_flipBit_same b)
  subst hn
  simp only [crc16, Memory.readBytes_split, hbefore, hafter, ne_eq, BitVec.xor_left_inj]
  exact crc16Raw_ne hpoly hbyte _ _

end

/-- A 16-bit register is its low byte under its high byte. -/
theorem setWidth_bytes_xor (c : BitVec 16) :
    (c.extractLsb' 0 8).setWidth 16 ^^^ ((c.extractLsb' 8 8).setWidth 16 <<< 8) = c := by
  refine BitVec.eq_of_getLsbD_eq fun i hi => ?_
  by_cases h : i < 8
  · simp [h, hi]
  · simp [h, hi, show i - 8 < 8 by omega, Nat.add_sub_cancel' (Nat.le_of_not_lt h)]

/-- Shifting by eight drops the high byte. -/
theorem setWidth_lowByte_shiftLeft (c : BitVec 16) : (c.extractLsb' 0 8).setWidth 16 <<< 8 = c <<< 8 := by
  refine BitVec.eq_of_getLsbD_eq fun i hi => ?_
  by_cases h : i < 8
  · simp [h]
  · simp [h, hi, show i - 8 < 8 by omega, BitVec.getLsbD_eq_getElem (show i - 8 < 16 by omega)]

/-- Without reflection a byte that enters is added to the register's high byte. -/
theorem xor_crc16Entry {p : Params} (hr : p.crc16Reflect = false) (c : BitVec 16) (b : Byte) :
    c ^^^ crc16Entry p b = (c.extractLsb' 0 8).setWidth 16 ^^^ crc16Entry p (c.extractLsb' 8 8 ^^^ b) := by
  have hentry : ∀ x, crc16Entry p x = x.setWidth 16 <<< 8 := by simp [crc16Entry, hr]
  rw [hentry, hentry, BitVec.setWidth_xor, BitVec.shiftLeft_xor_distrib, ← BitVec.xor_assoc, setWidth_bytes_xor]

/-- Eight steps only shift the low byte up. -/
theorem iterate_crc16Bit_lowByte (poly c : BitVec 16) :
    (crc16Bit poly)^[8] ((c.extractLsb' 0 8).setWidth 16) = c <<< 8 := by
  rw [iterate_crc16Bit_of_getMsbD, setWidth_lowByte_shiftLeft]
  intro i hi
  simp [BitVec.getMsbD_setWidth, hi]

/-- An entry of the table of 41_crc.md R122. -/
theorem crc16Raw_singleton {p : Params} (hr : p.crc16Reflect = false) (b : Byte) :
    crc16Raw { p with crc16Init := 0 } [b] = (crc16Bit p.crc16Poly)^[8] (crc16Entry p b) := by
  simp [crc16Raw, hr, crc16Byte_eq, crc16Entry]

/-- Settles O24: the steps are linear, so they act on the register's low byte, which they only shift, apart from the high
byte with the new byte added, of which they make the table entry. -/
theorem tableDrivenCrcAgrees : Obligations.TableDrivenCrcAgrees := by
  intro p c b hr
  rw [crc16Byte_eq, xor_crc16Entry hr, (crc16Bit_xor _).iterate 8, iterate_crc16Bit_lowByte, crc16Raw_singleton hr]

end Machine
end Sys2Proof
end

section
/-! The six CRC commands: what each computes, stores and compares (41_crc.md R120 to R129). -/

namespace Sys2Proof

namespace Machine

/-! ## Commands that only read -/

/-- A codec command whose checks pass and whose rule stores nothing leaves DMEM alone. -/
theorem codecCommand_readOnly {op : StepOp} {rule : CodecRule} {sel : BitVec 4} {x : Operands} {s : State} {o : CodecOut}
    (hvar : op.varOk x.var = true)
    (hsel : (!op.usesSel || ((s.par.slot sel).isSome && op.indexOk (s.par.descFor sel) x.var)) = true)
    (hlen : op.lenOk s.par.vitMax (s.par.descFor sel) x.var x.len = true)
    (hsrc : x.src + op.srcBits x.len ≤ s.par.dmemBits) (hdst : x.dst + op.dstBits x.len ≤ s.par.dmemBits)
    (ho : rule s.par (s.par.descFor sel) s.dmem x = o) (hbits : o.bits = []) :
    ∃ t : State, codecCommand op rule sel x s = .next t ∧ ReadOnlyDone s t o.status o.res o.res2 := by
  refine ⟨_, codecCommand_finish hvar hsel hlen hsrc hdst ho, ?_⟩
  rw [CodecOut.store, hbits]
  exact s.finish_readOnlyDone ..

/-- The same for a command with a descriptor slot. -/
theorem codecCommand_readOnly_of_slot {op : StepOp} {rule : CodecRule} {sel : BitVec 4} {x : Operands} {s : State}
    {d : Descriptor} {o : CodecOut} (hd : s.par.slot sel = some d) (hvar : op.varOk x.var = true)
    (hidx : op.indexOk d x.var = true) (hlen : op.lenOk s.par.vitMax d x.var x.len = true)
    (hsrc : x.src + op.srcBits x.len ≤ s.par.dmemBits) (hdst : x.dst + op.dstBits x.len ≤ s.par.dmemBits)
    (ho : rule s.par d s.dmem x = o) (hbits : o.bits = []) :
    ∃ t : State, codecCommand op rule sel x s = .next t ∧ ReadOnlyDone s t o.status o.res o.res2 := by
  obtain rfl := Params.descFor_of_slot hd
  exact codecCommand_readOnly hvar (by simp [hd, hidx]) hlen hsrc hdst ho hbits

/-- A command with a descriptor slot that stores its output bits (`codecCommand_done`). -/
theorem codecCommand_done_of_slot {op : StepOp} {rule : CodecRule} {sel : BitVec 4} {x : Operands} {s : State}
    {d : Descriptor} {o : CodecOut} (hd : s.par.slot sel = some d) (hvar : op.varOk x.var = true)
    (hidx : op.indexOk d x.var = true) (hlen : op.lenOk s.par.vitMax d x.var x.len = true)
    (hsrc : x.src + op.srcBits x.len ≤ s.par.dmemBits) (hdst : x.dst + op.dstBits x.len ≤ s.par.dmemBits)
    (ho : rule s.par d s.dmem x = o) :
    ∃ t : State, codecCommand op rule sel x s = .next t ∧ CodecDone s t o.addr o.bits o.status o.res o.res2 := by
  obtain rfl := Params.descFor_of_slot hd
  exact codecCommand_done hvar (by simp [hd, hidx]) hlen hsrc hdst ho

/-- The STATUS of a CRC check tells whether the two values agree, also when they are compared in registers that keep them
apart. -/
theorem crcVerdict_status {α : Type} [BEq α] [LawfulBEq α] [DecidableEq α] {f : α → Word} {c x : α}
    (h : f c = f x ↔ c = x) :
    (crcVerdict (f c) (f x)).status = { valid := c == x, err := if c = x then .none else .crcMismatch } := by
  by_cases e : c = x <;> simp [crcVerdict, CodecOut.status, h, e]

/-! ## The mask and the stored CRC16 -/

theorem crc16Mask_toNat (d : Descriptor) (var : BitVec 4) :
    crc16Mask d var.toNat = if var = 0 then d.crc16Mask0 else d.crc16Mask1 := by
  simp only [crc16Mask, BitVec.toNat_eq]
  rfl

/-- The masks of a variant and of the other one agree when the slot's two masks do. -/
theorem crc16Mask_other_iff (d : Descriptor) {var : BitVec 4} (hvar : var.toNat ≤ 1) :
    crc16Mask d (1 - var).toNat = crc16Mask d var.toNat ↔ d.crc16Mask0 = d.crc16Mask1 := by
  obtain rfl | rfl : var = 0 ∨ var = 1 := by bv_omega
  · exact eq_comm
  · exact Iff.rfl

theorem crc16_eq_iff (p : Params) (d : Descriptor) (m : Memory) (a n v v' : Nat) :
    crc16 p d m a n v = crc16 p d m a n v' ↔ crc16Mask d v = crc16Mask d v' :=
  BitVec.xor_right_inj _

theorem crc16_congr {m m' : Memory} {a n : Nat} (p : Params) (d : Descriptor) (v : Nat)
    (h : ∀ b, a ≤ b → b < a + 8 * n → m'.bit b = m.bit b) : crc16 p d m' a n v = crc16 p d m a n v := by
  simp only [crc16, Memory.readBytes_congr h]

theorem byteswap16_byteswap16 (c : BitVec 16) : byteswap16 (byteswap16 c) = c := by
  have hlo : (byteswap16 c).extractLsb' 0 8 = c.extractLsb' 8 8 := BitVec.extractLsb'_append_eq_right ..
  have hhi : (byteswap16 c).extractLsb' 8 8 = c.extractLsb' 0 8 := BitVec.extractLsb'_append_eq_left ..
  rw [byteswap16, hlo, hhi]
  exact (BitVec.extractLsb'_append_extractLsb'_eq_extractLsb' (by decide)).trans (BitVec.extractLsb'_eq_self ..)

/-- Reading a CRC in the append order undoes writing it. -/
theorem crc16Order_crc16Order (p : Params) (c : BitVec 16) : crc16Order p (crc16Order p c) = c := by
  cases h : p.crc16HighFirst <;> simp [crc16Order, h, byteswap16_byteswap16]

/-- The CRC that stands in the 16 bits at `a`, read in the append order (41_crc.md R124). -/
def crc16Stored (p : Params) (m : Memory) (a : Nat) : BitVec 16 :=
  crc16Order p (m.readWord a 16)

theorem crc16Stored_congr {m m' : Memory} {a : Nat} (p : Params) (h : ∀ b, a ≤ b → b < a + 16 → m'.bit b = m.bit b) :
    crc16Stored p m' a = crc16Stored p m a := by
  simp only [crc16Stored, Memory.readWord_congr h]

/-- A bit error in the stored CRC changes it (41_crc.md R125 (b)). -/
theorem crc16Stored_flipBit_ne (p : Params) (m : Memory) {a b : Nat} (ha : a ≤ b) (hb : b < a + 16) :
    crc16Stored p (m.flipBit b) a ≠ crc16Stored p m a := by
  intro h
  have hword := congrArg (crc16Order p) h
  simp only [crc16Stored, crc16Order_crc16Order] at hword
  exact Memory.readWord_ne ha hb (m.bit_flipBit_same b) hword

/-- The bits that hold the stored CRC. -/
theorem readBits_eq_crc16Stored (p : Params) (m : Memory) (a : Nat) :
    m.readBits a 16 = Bits.ofNat 16 (crc16Order p (crc16Stored p m a)).toNat := by
  rw [crc16Stored, crc16Order_crc16Order, Memory.ofNat_readWord]

/-- A CRC written in the append order is the stored one. -/
theorem crc16Stored_of_stored {m m' : Memory} {a : Nat} {p : Params} {c : BitVec 16}
    (h : Stored m m' a (Bits.ofNat 16 (crc16Order p c).toNat)) : crc16Stored p m' a = c := by
  have hread : m'.readBits a 16 = Bits.ofNat 16 (crc16Order p c).toNat := by simpa using h.reads
  rw [crc16Stored, Memory.readWord, hread, Bits.toNat_ofNat, Nat.mod_eq_of_lt (crc16Order p c).isLt,
    BitVec.ofNat_toNat, BitVec.setWidth_eq, crc16Order_crc16Order]

/-! ## CRC16, CRC16A and CRC16V -/

section
variable {s : State} {var sel : BitVec 4} {len src : BitVec 16} {d : Descriptor} (hd : s.par.slot sel = some d)
  (hvar : var.toNat ≤ 1)
include hd hvar

/-- CRC16 puts the CRC of the bytes into RES (41_crc.md R121). -/
theorem exec_crc16_done (hlen : 1 ≤ len.toNat) (hsrc : src.toNat + 8 * len.toNat ≤ s.par.dmemBits) :
    ∃ t : State, exec (.crc16 var sel len src) s = .next t
      ∧ ReadOnlyDone s t { valid := true } ((crc16 s.par d s.dmem src.toNat len.toNat var.toNat).setWidth 32) 0 :=
  codecCommand_readOnly_of_slot (op := .crc16) (rule := ruleCrc16) hd (decide_eq_true hvar) rfl (decide_eq_true hlen)
    hsrc (Nat.zero_le _) rfl rfl

variable (hlen : 3 ≤ len.toNat) (hsrc : src.toNat + 8 * len.toNat ≤ s.par.dmemBits)
include hlen hsrc

/-- CRC16A stores the CRC of the bytes before the last two in the last two (41_crc.md R123). -/
theorem exec_crc16a_done :
    ∃ t : State, exec (.crc16a var sel len src) s = .next t
      ∧ CodecDone s t (src.toNat + 8 * (len.toNat - 2))
          (Bits.ofNat 16 (crc16Order s.par (crc16 s.par d s.dmem src.toNat (len.toNat - 2) var.toNat)).toNat)
          { valid := true } ((crc16 s.par d s.dmem src.toNat (len.toNat - 2) var.toNat).setWidth 32) 0 :=
  codecCommand_done_of_slot (op := .crc16a) (rule := ruleCrc16a) hd (decide_eq_true hvar) rfl (decide_eq_true hlen)
    hsrc (Nat.zero_le _) rfl

/-- CRC16V compares the CRC of the bytes before the last two with the one stored there (41_crc.md R124). -/
theorem exec_crc16v_done {c x : BitVec 16} (hc : crc16 s.par d s.dmem src.toNat (len.toNat - 2) var.toNat = c)
    (hx : crc16Stored s.par s.dmem (src.toNat + 8 * (len.toNat - 2)) = x) :
    ∃ t : State, exec (.crc16v var sel len src) s = .next t
      ∧ ReadOnlyDone s t { valid := c == x, err := if c = x then .none else .crcMismatch }
          (c.setWidth 32) (x.setWidth 32) := by
  have hinj : c.setWidth 32 = x.setWidth 32 ↔ c = x := by bv_omega
  rw [← crcVerdict_status hinj]
  subst hc hx
  exact codecCommand_readOnly_of_slot (op := .crc16v) (rule := ruleCrc16v) hd (decide_eq_true hvar) rfl
    (decide_eq_true hlen) hsrc (Nat.zero_le _) rfl rfl

/-- CRC16V reports VALID exactly when the two CRCs agree, and CRC_MISMATCH when they differ. -/
theorem exec_crc16v_verdict :
    ∃ u : State, exec (.crc16v var sel len src) s = .next u
      ∧ (u.status.valid = true ↔ crc16 s.par d s.dmem src.toNat (len.toNat - 2) var.toNat
          = crc16Stored s.par s.dmem (src.toNat + 8 * (len.toNat - 2)))
      ∧ u.status.err = if u.status.valid then .none else .crcMismatch := by
  obtain ⟨u, hu, hdone⟩ := exec_crc16v_done hd hvar hlen hsrc rfl rfl
  exact ⟨u, hu, by simp [hdone.status], by simp [hdone.status]⟩

/-- After CRC16A the stored CRC is that of the bytes before it, under the same parameters. -/
theorem exec_crc16a_consistent {t : State} (ht : exec (.crc16a var sel len src) s = .next t) :
    t.par = s.par ∧ crc16Stored s.par t.dmem (src.toNat + 8 * (len.toNat - 2))
      = crc16 s.par d t.dmem src.toNat (len.toNat - 2) var.toNat := by
  obtain ⟨t', ht', hdone⟩ := exec_crc16a_done hd hvar hlen hsrc
  obtain rfl : t' = t := Host.Outcome.next.inj (ht'.symm.trans ht)
  refine ⟨congrArg Setup.params hdone.port.cfg, ?_⟩
  rw [crc16Stored_of_stored hdone.stored,
    crc16_congr _ _ _ fun b _ hb => hdone.stored.otherBits b (.inl hb)]

end

/-- Settles O21: from `exec_crc16_done` and `exec_crc16v_done`. -/
theorem crc16ComputesAndVerifies : Obligations.Crc16ComputesAndVerifies := by
  intro s var sel len src d hd hvar hsrc
  rw [← crc16Mask_toNat]
  refine ⟨fun hlen => exec_crc16_done hd hvar hlen hsrc, fun hlen => ?verify⟩
  case verify =>
    obtain ⟨t, ht, hdone⟩ := exec_crc16v_done hd hvar hlen hsrc rfl rfl
    exact ⟨t, ht, _, _, rfl, readBits_eq_crc16Stored .., hdone⟩

/-- Settles O22: from `exec_crc16a_done`. -/
theorem crc16aAppends : Obligations.Crc16aAppends := by
  intro s var sel len src d hd hvar hlen hsrc
  rw [← crc16Mask_toNat]
  obtain ⟨t, ht, hdone⟩ := exec_crc16a_done hd hvar hlen hsrc
  exact ⟨t, _, ht, rfl, hdone⟩

/-- Settles O23: after CRC16A the stored CRC is the computed one (`exec_crc16a_consistent`); a bit error changes exactly
one of the two, and the other variant changes the computed one by the difference of the masks. -/
theorem crcAppendThenVerify : Obligations.CrcAppendThenVerify := by
  intro s t var sel len src d hd hvar hlen hsrc ht
  obtain ⟨hpar, hsame⟩ := exec_crc16a_consistent hd hvar hlen hsrc ht
  rw [← hpar] at hd hsrc hsame ⊢
  refine ⟨?valid, fun hpoly b hlo hhi => ?flipped, ?other⟩
  case valid =>
    obtain ⟨u, hu, hvalid, herr⟩ := exec_crc16v_verdict hd hvar hlen hsrc
    have hv : u.status.valid = true := hvalid.mpr hsame.symm
    exact ⟨u, hu, hv, by rw [herr, if_pos hv]⟩
  case flipped =>
    obtain ⟨u, hu, hvalid, herr⟩ := exec_crc16v_verdict (s := t.flipBit b) hd hvar hlen hsrc
    have hdiffer : crc16 t.par d (t.dmem.flipBit b) src.toNat (len.toNat - 2) var.toNat
        ≠ crc16Stored t.par (t.dmem.flipBit b) (src.toNat + 8 * (len.toNat - 2)) := by
      by_cases hb : b < src.toNat + 8 * (len.toNat - 2)
      · rw [crc16Stored_congr _ fun c hc _ => t.dmem.bit_flipBit_ne (by omega), hsame]
        exact crc16_flipBit_ne hpoly d t.dmem var.toNat hlo hb
      · rw [crc16_congr _ _ _ fun c _ hc => t.dmem.bit_flipBit_ne (by omega), ← hsame]
        exact (crc16Stored_flipBit_ne t.par t.dmem (by omega) (by omega)).symm
    have hv : u.status.valid = false := Bool.eq_false_iff.mpr (mt hvalid.mp hdiffer)
    exact ⟨u, hu, hv, by rw [herr, hv]; rfl⟩
  case other =>
    have hother : (1 - var).toNat ≤ 1 := by bv_omega
    obtain ⟨u, hu, hvalid, _⟩ := exec_crc16v_verdict hd hother hlen hsrc
    exact ⟨u, hu, by rw [hvalid, hsame, crc16_eq_iff, crc16Mask_other_iff d hvar]⟩

/-! ## CRCS, CRCSA and CRCSV -/

/-- The width of each small CRC (41_crc.md R126). -/
theorem crcsWidth_eq {var : Nat} (h : var ≤ 2) : crcsWidth var = [5, 6, 8].getD var 0 := by
  interval_cases var <;> rfl

theorem crcsWidth_le (var : Nat) : crcsWidth var ≤ 8 := by
  unfold crcsWidth
  split <;> decide

/-- A small CRC fits its width. -/
theorem crcsOf_lt (p : Params) (var : Nat) (v : Bits) : crcsOf p var v < 2 ^ crcsWidth var :=
  match var with
  | 0 => (smallCrc p.crcs5 v).isLt
  | 1 => (smallCrc p.crcs6 v).isLt
  | _ + 2 => (smallCrc p.crcs8 v).isLt

/-- Numbers of at most 8 bits stay apart in a register. -/
theorem ofNat32_inj_of_lt {w c x : Nat} (hw : w ≤ 8) (hc : c < 2 ^ w) (hx : x < 2 ^ w) :
    BitVec.ofNat 32 c = BitVec.ofNat 32 x ↔ c = x := by
  have hpow : 2 ^ w ≤ 2 ^ 8 := Nat.pow_le_pow_right (by decide) hw
  rw [BitVec.toNat_eq, BitVec.toNat_ofNat, BitVec.toNat_ofNat, Nat.mod_eq_of_lt (by omega), Nat.mod_eq_of_lt (by omega)]

section
variable {s : State} {var : BitVec 4} {len src : BitVec 16} (hvar : var.toNat ≤ 2)
  (hsrc : src.toNat + len.toNat ≤ s.par.dmemBits)
include hvar hsrc

/-- CRCS puts the small CRC of the bits into RES (41_crc.md R127). -/
theorem exec_crcs_done (hlen : 1 ≤ len.toNat) :
    ∃ t : State, exec (.crcs var len src) s = .next t
      ∧ ReadOnlyDone s t { valid := true }
          (BitVec.ofNat 32 (crcsOf s.par var.toNat (s.dmem.readBits src.toNat len.toNat))) 0 :=
  codecCommand_readOnly (op := .crcs) (rule := ruleCrcs) (decide_eq_true hvar) rfl (decide_eq_true hlen) hsrc
    (Nat.zero_le _) rfl rfl

variable (hlen : crcsWidth var.toNat + 1 ≤ len.toNat)
include hlen

/-- CRCSA stores the small CRC of the bits before the last `w` in the last `w` (41_crc.md R128). -/
theorem exec_crcsa_done {c : Nat}
    (hc : crcsOf s.par var.toNat (s.dmem.readBits src.toNat (len.toNat - crcsWidth var.toNat)) = c) :
    ∃ t : State, exec (.crcsa var len src) s = .next t
      ∧ CodecDone s t (src.toNat + (len.toNat - crcsWidth var.toNat)) (Bits.ofNat (crcsWidth var.toNat) c)
          { valid := true } (BitVec.ofNat 32 c) 0 := by
  subst hc
  exact codecCommand_done (op := .crcsa) (rule := ruleCrcsa) (decide_eq_true hvar) rfl (decide_eq_true hlen) hsrc
    (Nat.zero_le _) rfl

/-- CRCSV compares the small CRC of the bits before the last `w` with the one stored there (41_crc.md R129). -/
theorem exec_crcsv_done {c x : Nat}
    (hc : crcsOf s.par var.toNat (s.dmem.readBits src.toNat (len.toNat - crcsWidth var.toNat)) = c)
    (hx : (s.dmem.readBits (src.toNat + (len.toNat - crcsWidth var.toNat)) (crcsWidth var.toNat)).toNat = x) :
    ∃ t : State, exec (.crcsv var len src) s = .next t
      ∧ ReadOnlyDone s t { valid := c == x, err := if c = x then .none else .crcMismatch }
          (BitVec.ofNat 32 c) (BitVec.ofNat 32 x) := by
  have hclt : c < 2 ^ crcsWidth var.toNat := hc ▸ crcsOf_lt ..
  have hxlt : x < 2 ^ crcsWidth var.toNat := by
    simpa only [hx, Memory.length_readBits] using
      Bits.toNat_lt (s.dmem.readBits (src.toNat + (len.toNat - crcsWidth var.toNat)) (crcsWidth var.toNat))
  rw [← crcVerdict_status (ofNat32_inj_of_lt (crcsWidth_le _) hclt hxlt)]
  subst hc hx
  exact codecCommand_readOnly (op := .crcsv) (rule := ruleCrcsv) (decide_eq_true hvar) rfl (decide_eq_true hlen) hsrc
    (Nat.zero_le _) rfl rfl

end

/-- Settles O25: from `exec_crcs_done`, `exec_crcsa_done` and `exec_crcsv_done`; CRCSA stores `w` bits after those it read,
and a CRC of `w` bits reads back whole. -/
theorem smallCrcCommands : Obligations.SmallCrcCommands := by
  intro s var len src w hvar hw hsrc
  rw [← crcsWidth_eq hvar] at hw
  subst hw
  refine ⟨exec_crcs_done hvar hsrc, fun hlen => ?append, fun hlen => ?verify⟩
  all_goals rw [Nat.add_sub_assoc (Nat.le_of_succ_le hlen)]
  case append =>
    obtain ⟨t, ht, hdone⟩ := exec_crcsa_done hvar hsrc hlen rfl
    refine ⟨t, _, ht, rfl, hdone, ?_⟩
    have hpar : t.par = s.par := congrArg Setup.params hdone.port.cfg
    have hkept : t.dmem.readBits src.toNat (len.toNat - crcsWidth var.toNat)
        = s.dmem.readBits src.toNat (len.toNat - crcsWidth var.toNat) :=
      Memory.readBits_congr fun b _ hb => hdone.stored.otherBits b (.inl hb)
    have hread := hdone.stored.reads
    rw [Bits.length_ofNat] at hread
    obtain ⟨u, hu, hverdict⟩ := exec_crcsv_done hvar (hpar ▸ hsrc) hlen rfl rfl
    refine ⟨u, hu, ?_⟩
    rw [hverdict.status, hread, Bits.toNat_ofNat, Nat.mod_eq_of_lt (crcsOf_lt ..), hpar, hkept]
    exact beq_self_eq_true _
  case verify =>
    obtain ⟨t, ht, hdone⟩ := exec_crcsv_done hvar hsrc hlen rfl rfl
    exact ⟨t, _, _, ht, rfl, rfl, hdone⟩

end Machine
end Sys2Proof
end

section
/-! The Golay codes (42_block_codes.md R140 to R144): their encoders are linear over XOR, two codewords differ in seven
bits or more, and so the words within distance 3 of some codeword are all words of 23 bits. -/

namespace Sys2Proof

theorem Params.wf_golay {p : Params} (h : p.wf = true) : p.golayPoly.toNat = 0xC75 ∨ p.golayPoly.toNat = 0xAE3 := by
  simp only [Params.wf, Bool.and_eq_true, Bool.or_eq_true, beq_iff_eq] at h
  obtain ⟨⟨⟨⟨⟨⟨⟨_, hpoly⟩, _⟩, _⟩, _⟩, _⟩, _⟩, _⟩ := h
  exact hpoly.imp (congrArg BitVec.toNat) (congrArg BitVec.toNat)

/-! ## Weights -/

@[simp] theorem popcount_zero (n : Nat) : popcount n 0 = 0 := by
  induction n with
  | zero => rfl
  | succ n ih => simp [popcount, ih]

/-- The weight of a word is that of its low bits and that of the rest. -/
theorem popcount_add (m n v : Nat) : popcount (m + n) v = popcount m v + popcount n (v / 2 ^ m) := by
  induction m generalizing v with
  | zero => simp [popcount]
  | succ m ih => rw [Nat.succ_add, popcount, popcount, ih, Nat.div_div_eq_div_mul, ← Nat.pow_succ', Nat.add_assoc]

/-- The weight of the low `n` bits counts no other bit. -/
theorem popcount_mod (n v : Nat) : popcount n (v % 2 ^ n) = popcount n v := by
  induction n generalizing v with
  | zero => rfl
  | succ n ih =>
    rw [popcount, popcount, Nat.pow_succ', Nat.mod_mul_right_mod, Nat.mod_mul_right_div_self, ih]

theorem popcount_xor_le (n u v : Nat) : popcount n (u ^^^ v) ≤ popcount n u + popcount n v := by
  induction n generalizing u v with
  | zero => simp [popcount]
  | succ n ih =>
    have hbit : (u ^^^ v) % 2 ≤ u % 2 + v % 2 := by
      rw [Nat.xor_mod_two_eq]
      omega
    have hrest := ih (u / 2) (v / 2)
    simp only [popcount, Nat.xor_div_two]
    omega

/-- The number of 1 bits of a number written in `n` bits. -/
theorem Bits.count_true_ofNat (n v : Nat) : (Bits.ofNat n v).count true = popcount n v := by
  induction n generalizing v with
  | zero => rfl
  | succ n ih =>
    rw [Bits.ofNat_succ, List.count_append, ih, popcount, Nat.testBit_zero, Nat.add_comm]
    rcases Nat.mod_two_eq_zero_or_one v with h | h <;> simp [h]

/-- The words of `n` bits and weight at most `k`. -/
def lightWords : Nat → Nat → List Nat
  | 0, _ => [0]
  | n + 1, 0 => (lightWords n 0).map (2 * ·)
  | n + 1, k + 1 => (lightWords n (k + 1)).map (2 * ·) ++ (lightWords n k).map (2 * · + 1)

theorem popcount_even (n x : Nat) : popcount (n + 1) (2 * x) = popcount n x := by
  simp [popcount]

theorem popcount_odd (n x : Nat) : popcount (n + 1) (2 * x + 1) = popcount n x + 1 := by
  have hhalf : (2 * x + 1) / 2 = x := by omega
  simp [popcount, hhalf, Nat.add_comm 1]

theorem mem_lightWords {n k x : Nat} : x ∈ lightWords n k ↔ x < 2 ^ n ∧ popcount n x ≤ k := by
  have hparity : ∀ y z : Nat, 2 * y ≠ 2 * z + 1 := by omega
  have hodd : ∀ y m : Nat, 2 * y + 1 < 2 * m ↔ y < m := by omega
  fun_induction lightWords n k generalizing x with
  | case1 k => simp [popcount]
  | case2 n ih =>
    obtain ⟨y, rfl | rfl⟩ := x.even_or_odd'
    · simp [ih, popcount_even, Nat.pow_succ']
    · simp [popcount_odd, hparity]
  | case3 n k ih1 ih0 =>
    obtain ⟨y, rfl | rfl⟩ := x.even_or_odd'
    · simp [ih1, popcount_even, Nat.pow_succ', (hparity _ _).symm]
    · simp [ih0, popcount_odd, Nat.pow_succ', hparity, hodd]

theorem nodup_lightWords (n k : Nat) : (lightWords n k).Nodup := by
  fun_induction lightWords n k with
  | case1 k => exact List.nodup_singleton 0
  | case2 n ih => exact ih.map fun x y h => by omega
  | case3 n k ih1 ih0 =>
    refine (ih1.map fun x y h => by omega).append (ih0.map fun x y h => by omega) fun x h1 h0 => ?_
    obtain ⟨y, _, rfl⟩ := List.mem_map.mp h1
    obtain ⟨z, _, hz⟩ := List.mem_map.mp h0
    omega

/-! ## Linear maps -/

/-- A map that XOR of its arguments passes through. -/
def XorLinear (f : Nat → Nat) : Prop :=
  ∀ a b, f (a ^^^ b) = f a ^^^ f b

theorem XorLinear.comp {f g : Nat → Nat} (hf : XorLinear f) (hg : XorLinear g) : XorLinear (f ∘ g) :=
  fun a b => (congrArg f (hg a b)).trans (hf _ _)

theorem XorLinear.map_zero {f : Nat → Nat} (hf : XorLinear f) : f 0 = 0 := by
  simpa using hf 0 0

/-- Clearing the top bit of a number of `n + 1` bits. -/
theorem xor_two_pow_lt {d n : Nat} (hlo : 2 ^ n ≤ d) (hhi : d < 2 ^ (n + 1)) : d ^^^ 2 ^ n < 2 ^ n := by
  refine Nat.lt_pow_two_of_testBit _ fun i hi => ?_
  rw [Nat.testBit_xor, Nat.testBit_two_pow]
  obtain rfl | hi := hi.eq_or_lt
  · simp [Nat.testBit_of_two_pow_le_and_two_pow_add_one_gt hlo hhi]
  · simp [Nat.testBit_lt_two_pow (hhi.trans_le (Nat.pow_le_pow_right Nat.two_pos hi)), hi.ne]

/-- Linear maps that agree on the powers of two below `2 ^ n` agree below `2 ^ n`. -/
theorem XorLinear.eq_of_basis {f g : Nat → Nat} (hf : XorLinear f) (hg : XorLinear g) {n : Nat}
    (h : ∀ i < n, f (2 ^ i) = g (2 ^ i)) : ∀ d < 2 ^ n, f d = g d := by
  induction n with
  | zero =>
    intro d hd
    obtain rfl : d = 0 := by simpa using hd
    rw [hf.map_zero, hg.map_zero]
  | succ n ih =>
    intro d hd
    have hlow : ∀ e < 2 ^ n, f e = g e := ih fun i hi => h i (Nat.lt_succ_of_lt hi)
    by_cases hlt : d < 2 ^ n
    · exact hlow d hlt
    · have htop : d ^^^ 2 ^ n < 2 ^ n := xor_two_pow_lt (Nat.le_of_not_lt hlt) hd
      have hsplit : (d ^^^ 2 ^ n) ^^^ 2 ^ n = d := Nat.xor_xor_cancel_right ..
      rw [← hsplit, hf, hg, hlow _ htop, h n n.lt_succ_self]

/-- Adding `g` where a bit is 1 is linear in the bit and the word. -/
theorem ite_xor_xor (p q : Bool) (x y g : Nat) :
    (if p ^^ q then (x ^^^ y) ^^^ g else x ^^^ y) = (if p then x ^^^ g else x) ^^^ (if q then y ^^^ g else y) := by
  cases p <;> cases q <;> grind

namespace Machine

/-- One step of `polyMultiple`: the generator, shifted to place `i`, is added where bit `i` of the quotient is 1. -/
def polyStep (g q x i : Nat) : Nat :=
  if q.testBit i then x ^^^ (g <<< i) else x

theorem polyMultiple_eq (g q : Nat) : polyMultiple g q = (List.range 12).foldl (polyStep g q) 0 := rfl

theorem foldl_polyStep_xor (g a b : Nat) (l : List Nat) (x y : Nat) :
    l.foldl (polyStep g (a ^^^ b)) (x ^^^ y) = l.foldl (polyStep g a) x ^^^ l.foldl (polyStep g b) y := by
  induction l generalizing x y with
  | nil => rfl
  | cons i r ih =>
    have hstep : polyStep g (a ^^^ b) (x ^^^ y) i = polyStep g a x i ^^^ polyStep g b y i := by
      simp only [polyStep, Nat.testBit_xor, ite_xor_xor]
    rw [List.foldl_cons, hstep, ih, List.foldl_cons, List.foldl_cons]

theorem xorLinear_polyMultiple (g : Nat) : XorLinear (polyMultiple g) :=
  fun a b => foldl_polyStep_xor g a b _ 0 0

/-- A quotient counts by its low 12 bits. -/
theorem polyMultiple_mod (g q : Nat) : polyMultiple g (q % 2 ^ 12) = polyMultiple g q := by
  simp only [polyMultiple_eq]
  refine List.foldl_ext _ _ _ fun x i hi => ?_
  have hi' : i < 12 := List.mem_range.mp hi
  simp only [polyStep, Nat.testBit_mod_two_pow, hi', decide_true, Bool.true_and]

theorem par11Loop_succ (g k r : Nat) :
    par11Loop g (k + 1) r = par11Loop g k (if r.testBit (k + 11) then r ^^^ (g <<< k) else r) := by
  rw [par11Loop, Nat.shiftRight_eq_div_pow]
  simp only [Nat.testBit_eq_decide_div_mod_eq, decide_eq_true_eq]

theorem xorLinear_par11Loop (g k : Nat) : XorLinear (par11Loop g k) := by
  induction k with
  | zero => exact fun _ _ => rfl
  | succ k ih =>
    intro a b
    rw [par11Loop_succ, Nat.testBit_xor, ite_xor_xor, ih, ← par11Loop_succ, ← par11Loop_succ]

/-! ## The codewords -/

theorem enc23_eq_xor (p : Params) (d : Nat) : enc23 p d = (d <<< 11) ^^^ par11 p d := by
  refine Nat.eq_of_testBit_eq fun i => ?_
  have hpar : 11 ≤ i → (par11 p d).testBit i = false := fun hi =>
    Nat.testBit_lt_two_pow (Nat.lt_of_lt_of_le (Nat.and_lt_two_pow _ (by decide)) (Nat.pow_le_pow_right Nat.two_pos hi))
  by_cases hi : 11 ≤ i <;> simp [enc23, hi, hpar]

theorem xorLinear_enc23 (p : Params) : XorLinear (enc23 p) := by
  intro a b
  simp only [enc23_eq_xor, par11, Nat.shiftLeft_xor_distrib, xorLinear_par11Loop p.golayPoly.toNat 12 _ _,
    Nat.and_xor_distrib_right]
  ac_rfl

theorem enc23_div (p : Params) (d : Nat) : enc23 p d / 2 ^ 11 = d := by
  have hpar : par11 p d / 2 ^ 11 = 0 := Nat.div_eq_of_lt (Nat.and_lt_two_pow _ (by decide))
  rw [enc23, Nat.or_div_two_pow, hpar, Nat.shiftLeft_eq, Nat.mul_div_cancel _ (Nat.two_pow_pos 11), Nat.or_zero]

theorem enc23_lt (p : Params) {d : Nat} (hd : d < 2 ^ 12) : enc23 p d < 2 ^ 23 := by
  have hdiv := enc23_div p d
  omega

/-- The other Golay generator: the two are the factors of `(x ^ 23 + 1) / (x + 1)`. -/
def golayOther (p : Params) : Nat :=
  0xC75 ^^^ 0xAE3 ^^^ p.golayPoly.toNat

/-- The check polynomial `h = (x ^ 23 + 1) / g` of the code with generator `g`. -/
def golayCheck (p : Params) : Nat :=
  golayOther p ^^^ (golayOther p <<< 1)

section
variable {p : Params} (hp : p.wf = true)
include hp

/-- As `g * h` is 1 up to degree 22, the quotient of a codeword by `g` is its product with `h`, in the low 12 bits. -/
theorem enc23_eq_polyMultiple {d : Nat} (hd : d < 2 ^ 12) :
    enc23 p d = polyMultiple p.golayPoly.toNat (polyMultiple (golayCheck p) (enc23 p d)) := by
  refine (xorLinear_enc23 p).eq_of_basis ((xorLinear_polyMultiple _).comp
    ((xorLinear_polyMultiple _).comp (xorLinear_enc23 p))) ?_ d hd
  unfold golayCheck golayOther Function.comp enc23 par11
  rcases p.wf_golay hp with hg | hg <;> rw [hg] <;> decide +kernel

/-- Light data words have heavy codewords. -/
theorem seven_le_popcount_of_light_data : ∀ d ∈ lightWords 12 3, d ≠ 0 → 7 ≤ popcount 23 (enc23 p d) := by
  unfold enc23 par11
  rcases p.wf_golay hp with hg | hg <;> rw [hg] <;> decide +kernel

/-- Codewords whose last 12 bits are light are heavy. -/
theorem seven_le_popcount_of_light_end :
    ∀ y ∈ lightWords 12 3, y ≠ 0 →
      7 ≤ popcount 23 (polyMultiple p.golayPoly.toNat (polyMultiple (golayCheck p) y)) := by
  unfold golayCheck golayOther
  rcases p.wf_golay hp with hg | hg <;> rw [hg] <;> decide +kernel

/-- The minimum weight of the code: a codeword of weight 6 would have weight at most 3 in its first or its last 12 bits,
and each of the two parts determines it. -/
theorem seven_le_popcount_enc23 {d : Nat} (hd : d < 2 ^ 12) (h0 : d ≠ 0) : 7 ≤ popcount 23 (enc23 p d) := by
  by_contra hlt
  have hfirst : popcount 23 (enc23 p d) = popcount 11 (enc23 p d) + popcount 12 d := by
    rw [popcount_add 11 12, enc23_div]
  have hlast : popcount 12 (enc23 p d) ≤ popcount 11 (enc23 p d) + 1 := by
    rw [popcount_add 11 1]
    simp only [popcount]
    omega
  have hlight : popcount 12 d ≤ 3 ∨ popcount 12 (enc23 p d) ≤ 3 := by omega
  rcases hlight with hlight | hlight
  · exact hlt (seven_le_popcount_of_light_data hp d (mem_lightWords.mpr ⟨hd, hlight⟩) h0)
  · have hmem : enc23 p d % 2 ^ 12 ∈ lightWords 12 3 :=
      mem_lightWords.mpr ⟨Nat.mod_lt _ (Nat.two_pow_pos 12), (popcount_mod 12 _).trans_le hlight⟩
    have hcode := enc23_eq_polyMultiple hp hd
    rw [← polyMultiple_mod (golayCheck p)] at hcode
    refine hlt (hcode ▸ seven_le_popcount_of_light_end hp _ hmem fun hend => h0 ?_)
    rw [hend, (xorLinear_polyMultiple _).map_zero, (xorLinear_polyMultiple _).map_zero] at hcode
    rw [← enc23_div p d, hcode, Nat.zero_div]

/-- Two codewords that share a word within distance 3 are the same. -/
theorem eq_of_bitDist_enc23_le {a b r : Nat} (ha : a < 2 ^ 12) (hb : b < 2 ^ 12) (hra : bitDist 23 r (enc23 p a) ≤ 3)
    (hrb : bitDist 23 r (enc23 p b) ≤ 3) : a = b := by
  by_contra hne
  have hheavy := seven_le_popcount_enc23 hp (Nat.xor_lt_two_pow ha hb) (mt Nat.xor_eq_zero_iff.mp hne)
  have htri := popcount_xor_le 23 (r ^^^ enc23 p a) (r ^^^ enc23 p b)
  have hcancel : (r ^^^ enc23 p a) ^^^ (r ^^^ enc23 p b) = enc23 p (a ^^^ b) := by
    rw [xorLinear_enc23]
    grind
  rw [hcancel] at htri
  unfold bitDist at hra hrb
  omega

end

/-! ## The perfect code -/

/-- A data word of `k` bits with an error of `n` bits and weight at most `t`. -/
def codeErrors (k n t : Nat) : Finset (Nat × Nat) :=
  Finset.range (2 ^ k) ×ˢ (lightWords n t).toFinset

theorem mem_codeErrors {k n t : Nat} {x : Nat × Nat} :
    x ∈ codeErrors k n t ↔ x.1 < 2 ^ k ∧ x.2 < 2 ^ n ∧ popcount n x.2 ≤ t := by
  simp only [codeErrors, Finset.mem_product, Finset.mem_range, List.mem_toFinset, mem_lightWords]

theorem card_codeErrors (k n t : Nat) : (codeErrors k n t).card = 2 ^ k * (lightWords n t).length := by
  rw [codeErrors, Finset.card_product, Finset.card_range, List.toFinset_card_of_nodup (nodup_lightWords n t)]

/-- The codeword of the data word with the error. -/
def receivedWord (enc : Nat → Nat) (x : Nat × Nat) : Nat :=
  enc x.1 ^^^ x.2

theorem bitDist_receivedWord (n : Nat) (enc : Nat → Nat) (x : Nat × Nat) :
    bitDist n (receivedWord enc x) (enc x.1) = popcount n x.2 := by
  rw [bitDist, receivedWord, Nat.xor_right_comm, Nat.xor_self, Nat.zero_xor]

/-- Balls of radius `t` around the codewords that are apart and hold as many words as there are fill all words. -/
theorem exists_near_of_card {enc : Nat → Nat} {k n t : Nat} (henc : ∀ d < 2 ^ k, enc d < 2 ^ n)
    (happart : ∀ {a b r : Nat}, a < 2 ^ k → b < 2 ^ k → bitDist n r (enc a) ≤ t → bitDist n r (enc b) ≤ t → a = b)
    (hcard : 2 ^ k * (lightWords n t).length = 2 ^ n) {r : Nat} (hr : r < 2 ^ n) :
    ∃ d < 2 ^ k, bitDist n r (enc d) ≤ t := by
  have hmaps : Set.MapsTo (receivedWord enc) (codeErrors k n t) (Finset.range (2 ^ n)) := by
    intro x h
    obtain ⟨hd, he, -⟩ := mem_codeErrors.mp h
    exact Finset.mem_coe.mpr (Finset.mem_range.mpr (Nat.xor_lt_two_pow (henc _ hd) he))
  have hinj : Set.InjOn (receivedWord enc) (codeErrors k n t) := by
    intro x hx y hy h
    obtain ⟨hdx, -, hex⟩ := mem_codeErrors.mp hx
    obtain ⟨hdy, -, hey⟩ := mem_codeErrors.mp hy
    rw [← bitDist_receivedWord n enc] at hex hey
    have hd : x.1 = y.1 := happart hdx hdy hex (h ▸ hey)
    unfold receivedWord at h
    rw [hd] at h
    exact Prod.ext hd (Nat.xor_right_inj.mp h)
  obtain ⟨x, hx, rfl⟩ := Finset.surjOn_of_injOn_of_card_le _ hmaps hinj
    (by rw [card_codeErrors, hcard, Finset.card_range]) (Finset.mem_coe.mpr (Finset.mem_range.mpr hr))
  obtain ⟨hd, -, he⟩ := mem_codeErrors.mp hx
  exact ⟨x.1, hd, (bitDist_receivedWord n enc x).trans_le he⟩

/-- The code is perfect: each ball of radius 3 holds `2 ^ 11` words. -/
theorem exists_bitDist_enc23_le {p : Params} (hp : p.wf = true) {r : Nat} (hr : r < 2 ^ 23) :
    ∃ d < 2 ^ 12, bitDist 23 r (enc23 p d) ≤ 3 :=
  exists_near_of_card (fun d hd => enc23_lt p hd) (eq_of_bitDist_enc23_le hp) (by decide +kernel) hr

/-! ## The extended code -/

theorem enc24_div (p : Params) (d : Nat) : enc24 p d / 2 = enc23 p d := by
  have hbit : popcount 23 (enc23 p d) % 2 / 2 = 0 := Nat.div_eq_of_lt (Nat.mod_lt _ Nat.two_pos)
  rw [enc24, Nat.or_div_two, hbit, Nat.or_zero, Nat.shiftLeft_eq, Nat.pow_one, Nat.mul_div_cancel _ Nat.two_pos]

theorem enc24_mod (p : Params) (d : Nat) : enc24 p d % 2 = popcount 23 (enc23 p d) % 2 := by
  rcases Nat.mod_two_eq_zero_or_one (popcount 23 (enc23 p d)) with h | h <;>
    simp [enc24, h, Nat.or_mod_two_eq_one, Nat.shiftLeft_eq]

/-- The parity bit makes the weight even (42_block_codes.md R140). -/
theorem popcount_enc24 (p : Params) (d : Nat) : popcount 24 (enc24 p d) % 2 = 0 := by
  rw [popcount, enc24_mod, enc24_div]
  omega

/-- Without the parity bits two words are no farther apart. -/
theorem bitDist_div_le (n u v : Nat) : bitDist n (u / 2) (v / 2) ≤ bitDist (n + 1) u v := by
  rw [bitDist, bitDist, popcount, Nat.xor_div_two]
  exact Nat.le_add_left ..

theorem eq_of_bitDist_enc24_le {p : Params} (hp : p.wf = true) {a b r : Nat} (ha : a < 2 ^ 12) (hb : b < 2 ^ 12)
    (hra : bitDist 24 r (enc24 p a) ≤ 3) (hrb : bitDist 24 r (enc24 p b) ≤ 3) : a = b := by
  refine eq_of_bitDist_enc23_le hp (r := r / 2) ha hb ?_ ?_ <;> rw [← enc24_div]
  · exact (bitDist_div_le ..).trans hra
  · exact (bitDist_div_le ..).trans hrb

/-! ## The commands -/

/-- The search finds the data word near `r` when there is one only. -/
theorem golayNearest_eq_some {enc : Nat → Nat} {n r d : Nat} (hd : d < 4096) (hnear : bitDist n r (enc d) ≤ 3)
    (honly : ∀ d' < 4096, bitDist n r (enc d') ≤ 3 → d' = d) : golayNearest enc n r = some d := by
  unfold golayNearest
  cases h : (List.range 4096).find? fun d => decide (bitDist n r (enc d) ≤ 3) with
  | none => exact absurd (decide_eq_true hnear) (List.find?_eq_none.mp h d (List.mem_range.mpr hd))
  | some d' =>
    have hd' := List.mem_range.mp (List.mem_of_find?_eq_some h)
    have hnear' := List.find?_some h
    rw [honly d' hd' (of_decide_eq_true hnear')]

theorem golayNearest_eq_none {enc : Nat → Nat} {n r : Nat} (hfar : ∀ d < 4096, 3 < bitDist n r (enc d)) :
    golayNearest enc n r = none :=
  List.find?_eq_none.mpr fun d hd => by simpa using hfar d (List.mem_range.mp hd)

/-- A count of at most 255 is not saturated. -/
theorem sat8_of_le {n : Nat} (h : n ≤ 255) : sat8 n = BitVec.ofNat 8 n := by
  rw [sat8, Nat.min_eq_left h]

theorem Memory.toNat_readBits_lt (m : Memory) (a n : Nat) : (m.readBits a n).toNat < 2 ^ n := by
  simpa only [Memory.length_readBits] using Bits.toNat_lt (m.readBits a n)

/-- A Golay codeword is a multiple of the generator (42_block_codes.md R140). -/
theorem exists_enc23_eq_polyMultiple {p : Params} (hp : p.wf = true) {d : Nat} (hd : d < 2 ^ 12) :
    ∃ q < 2 ^ 12, enc23 p d = polyMultiple p.golayPoly.toNat q :=
  ⟨_, Nat.mod_lt _ (Nat.two_pow_pos 12), (enc23_eq_polyMultiple hp hd).trans (polyMultiple_mod ..).symm⟩

/-- GOL24D's rule when the search finds a data word (42_block_codes.md R142). -/
theorem ruleGol24d_of_some {p : Params} {desc : Descriptor} {m : Memory} {dst src r d : Nat}
    (hr : r = (m.readBits src 24).toNat) (h : golayNearest (enc24 p) 24 r = some d) :
    ruleGol24d p desc m ⟨0, 0, dst, src⟩ =
      { addr := dst, bits := Bits.ofNat 12 d, res := BitVec.ofNat 32 d, res2 := BitVec.ofNat 32 (enc24 p d)
        corr := sat8 (bitDist 24 r (enc24 p d)) } := by
  subst hr
  unfold ruleGol24d
  dsimp only
  rw [h]

/-- GOL24D's rule when the search finds none. -/
theorem ruleGol24d_of_none {p : Params} {desc : Descriptor} {m : Memory} {dst src r : Nat}
    (hr : r = (m.readBits src 24).toNat) (h : golayNearest (enc24 p) 24 r = none) :
    ruleGol24d p desc m ⟨0, 0, dst, src⟩ =
      { addr := dst, bits := Bits.ofNat 12 (r >>> 12), res := BitVec.ofNat 32 (r >>> 12), res2 := BitVec.ofNat 32 r
        valid := false, err := .fecUncorr } := by
  subst hr
  unfold ruleGol24d
  dsimp only
  rw [h]

/-- GOL23D's rule when the search finds a data word (42_block_codes.md R144). -/
theorem ruleGol23d_of_some {p : Params} {desc : Descriptor} {m : Memory} {dst src r d : Nat}
    (hr : r = (m.readBits src 23).toNat) (h : golayNearest (enc23 p) 23 r = some d) :
    ruleGol23d p desc m ⟨0, 0, dst, src⟩ =
      { addr := dst, bits := Bits.ofNat 12 d, res := BitVec.ofNat 32 d, res2 := BitVec.ofNat 32 (enc23 p d)
        corr := sat8 (bitDist 23 r (enc23 p d)) } := by
  subst hr
  unfold ruleGol23d
  dsimp only
  rw [h, Option.getD_some]

/-- A block code's command, which has no VAR, slot or LEN, completes when its ranges lie inside DMEM, with what its rule
is found to compute. -/
theorem blockCommand_done {op : StepOp} {rule : CodecRule} {s : State} {dst src : BitVec 16}
    (hvar : op.varOk 0 = true) (hsel : op.usesSel = false)
    (hlen : op.lenOk s.par.vitMax (s.par.descFor 0) 0 0 = true) (hsrc : src.toNat + op.srcBits 0 ≤ s.par.dmemBits)
    (hdst : dst.toNat + op.dstBits 0 ≤ s.par.dmemBits) :
    ∃ t : State, codecCommand op rule 0 ⟨0, 0, dst.toNat, src.toNat⟩ s = .next t
      ∧ ∀ {o : CodecOut}, rule s.par (s.par.descFor 0) s.dmem ⟨0, 0, dst.toNat, src.toNat⟩ = o →
        CodecDone s t o.addr o.bits o.status o.res o.res2 := by
  obtain ⟨t, ht, hdone⟩ :=
    codecCommand_done (x := ⟨0, 0, dst.toNat, src.toNat⟩) hvar (by simp [hsel]) hlen hsrc hdst rfl
  exact ⟨t, ht, fun ho => ho ▸ hdone⟩

/-- Settles O27: two data words within distance 3 of the word received are the same, so the search finds the one
named. -/
theorem gol24dDecodesWithinDistanceThree : Obligations.Gol24dDecodesWithinDistanceThree := by
  intro s dst src r hsrc hdst hr
  obtain ⟨t, ht, hdone⟩ := blockCommand_done (op := .gol24d) (rule := ruleGol24d) rfl rfl rfl hsrc hdst
  refine ⟨fun d hd hnear => ?found, fun hfar => ?none⟩
  case found =>
    have hfind := golayNearest_eq_some hd hnear fun d' hd' hnear' =>
      eq_of_bitDist_enc24_le s.cfg.wf hd' hd hnear' hnear
    rw [← sat8_of_le (hnear.trans (by decide))]
    exact ⟨t, ht, hdone (ruleGol24d_of_some hr hfind)⟩
  case none =>
    rw [← Nat.shiftRight_eq_div_pow r 12]
    exact ⟨t, ht, hdone (ruleGol24d_of_none hr (golayNearest_eq_none hfar))⟩

/-- Settles O28: the code is perfect, so a data word is near, and it is the only one. -/
theorem gol23dDecodesEveryWord : Obligations.Gol23dDecodesEveryWord := by
  intro s dst src r hsrc hdst hr
  have hlt : r < 2 ^ 23 := hr ▸ Memory.toNat_readBits_lt ..
  obtain ⟨d, hd, hnear⟩ := exists_bitDist_enc23_le s.cfg.wf hlt
  have honly : ∀ d' < 4096, bitDist 23 r (enc23 s.par d') ≤ 3 → d' = d :=
    fun d' hd' hnear' => eq_of_bitDist_enc23_le s.cfg.wf hd' hd hnear' hnear
  obtain ⟨t, ht, hdone⟩ := blockCommand_done (op := .gol23d) (rule := ruleGol23d) rfl rfl rfl hsrc hdst
  refine ⟨t, d, ht, hd, hnear, honly, ?_⟩
  rw [← sat8_of_le (hnear.trans (by decide))]
  exact hdone (ruleGol23d_of_some hr (golayNearest_eq_some hd hnear honly))

end Machine
end Sys2Proof
end

section
/-! The Hamming codes (42_block_codes.md R145 to R160): the syndrome is linear over XOR and 0 on a codeword, so that of
a received word is that of its errors, and a nonzero one names the bit of a single error. -/

namespace Sys2Proof

/-! ## Vectors -/

theorem Bits.get_zipWith_xor {u v : Bits} (h : u.length = v.length) (i : Nat) :
    Bits.get (List.zipWith xor u v) i = (u.get i ^^ v.get i) := by
  by_cases hi : i < v.length
  · simp [Bits.get, h, hi]
  · simp [Bits.get, h, hi]

@[simp] theorem Bits.parity_nil : Bits.parity [] = false := rfl

theorem Bits.parity_append_singleton (v : Bits) (b : Bool) : Bits.parity (v ++ [b]) = (v.parity ^^ b) := by
  simp [Bits.parity]

theorem Bits.parity_cons (b : Bool) (v : Bits) : Bits.parity (b :: v) = (b ^^ v.parity) := by
  induction v using List.reverseRecOn with
  | nil => simp [Bits.parity]
  | append_singleton v c ih =>
    rw [← List.cons_append, Bits.parity_append_singleton, Bits.parity_append_singleton, ih, Bool.xor_assoc]

theorem Bits.parity_map_xor {α : Type} (f g : α → Bool) (l : List α) :
    Bits.parity (l.map fun i => f i ^^ g i) = (Bits.parity (l.map f) ^^ Bits.parity (l.map g)) := by
  induction l with
  | nil => rfl
  | cons x r ih =>
    simp only [List.map_cons, Bits.parity_cons, ih, Bool.xor_assoc, Bool.xor_left_comm]

/-- Inverting a bit is adding the word that is 1 there. -/
theorem Bits.flip_eq_zipWith (v : Bits) (k : Nat) : v.flip k = List.zipWith xor v (unitBits v.length k) := by
  refine List.ext_getElem (by simp [unitBits]) fun i hi hi' => ?_
  have hv : i < v.length := by simpa using hi
  by_cases hk : k = i
  · subst hk
    simp [Bits.flip, Bits.get, unitBits, Bits.zeros, hv]
  · simp [Bits.flip, unitBits, Bits.zeros, hk]

theorem Bits.parity_flip {v : Bits} {k : Nat} (hk : k < v.length) : (v.flip k).parity = !v.parity := by
  induction v generalizing k with
  | nil => simp at hk
  | cons b v ih =>
    cases k with
    | zero => simp [Bits.flip, Bits.get, Bits.parity_cons]
    | succ k =>
      have hflip : Bits.flip (b :: v) (k + 1) = b :: Bits.flip v k := rfl
      rw [hflip, Bits.parity_cons, ih (by simpa using hk), Bits.parity_cons, Bool.xor_not]

theorem Bits.flip_of_length_le {v : Bits} {k : Nat} (hk : v.length ≤ k) : v.flip k = v :=
  List.set_eq_of_length_le hk

theorem Bits.flip_flip (v : Bits) (k : Nat) : (v.flip k).flip k = v := by
  by_cases hk : k < v.length
  · simp [Bits.flip, Bits.get, hk]
  · rw [Bits.flip_of_length_le (v := v) (by omega), Bits.flip_of_length_le (by omega)]

theorem Bits.take_flip (v : Bits) (k n : Nat) : (v.flip k).take n = Bits.flip (v.take n) k := by
  rw [Bits.flip, List.take_set]
  by_cases hk : k < n
  · simp [Bits.flip, Bits.get, hk]
  · have hshort : (v.take n).length ≤ k := by
      rw [List.length_take]
      omega
    rw [Bits.flip_of_length_le hshort, List.set_eq_of_length_le hshort]

/-! ## Syndromes -/

/-- A vector read with its first bit least significant, as a syndrome is (42_block_codes.md R146). -/
def syndromeValue (v : Bits) : Nat :=
  v.foldr (fun b a => b.toNat + 2 * a) 0

theorem hamSyndrome_eq (eqs : List (List Nat)) (k : Nat) (r : Bits) :
    hamSyndrome eqs k r = syndromeValue (List.zipWith xor (hamChecks eqs (r.take k)) (r.drop k)) := rfl

theorem syndromeValue_cons (b : Bool) (v : Bits) : syndromeValue (b :: v) = b.toNat + 2 * syndromeValue v := rfl

theorem syndromeValue_lt (v : Bits) : syndromeValue v < 2 ^ v.length := by
  induction v with
  | nil => exact Nat.one_pos
  | cons b v ih =>
    have hb := Bool.toNat_le b
    rw [syndromeValue_cons, List.length_cons, Nat.pow_succ]
    omega

theorem toNat_add_two_mul_xor (b c : Bool) (x y : Nat) :
    (b.toNat + 2 * x) ^^^ (c.toNat + 2 * y) = (b ^^ c).toNat + 2 * (x ^^^ y) := by
  have hdiv : ∀ (b : Bool) (x : Nat), (b.toNat + 2 * x) / 2 = x := by
    intro b x
    have := b.toNat_le
    omega
  have hmod : (b.toNat + 2 * x + (c.toNat + 2 * y)) % 2 = (b ^^ c).toNat := by
    rw [Nat.add_add_add_comm, ← Nat.mul_add, Nat.add_mul_mod_self_left]
    cases b <;> cases c <;> rfl
  rw [← Nat.mod_add_div ((b.toNat + 2 * x) ^^^ (c.toNat + 2 * y)) 2, Nat.xor_mod_two_eq, hmod, Nat.xor_div_two, hdiv,
    hdiv]

theorem syndromeValue_zipWith {u v : Bits} (h : u.length = v.length) :
    syndromeValue (List.zipWith xor u v) = syndromeValue u ^^^ syndromeValue v := by
  induction u generalizing v with
  | nil =>
    obtain rfl : v = [] := List.eq_nil_of_length_eq_zero h.symm
    rfl
  | cons b u ih =>
    cases v with
    | nil => simp at h
    | cons c v =>
      rw [List.zipWith_cons_cons, syndromeValue_cons, syndromeValue_cons, syndromeValue_cons, ih (by simpa using h),
        toNat_add_two_mul_xor]

theorem hamChecks_zipWith (eqs : List (List Nat)) {u v : Bits} (h : u.length = v.length) :
    hamChecks eqs (List.zipWith xor u v) = List.zipWith xor (hamChecks eqs u) (hamChecks eqs v) := by
  have hcheck : ∀ e : List Nat, Bits.parity (e.map (Bits.get (List.zipWith xor u v)))
      = (Bits.parity (e.map u.get) ^^ Bits.parity (e.map v.get)) := by
    intro e
    rw [← Bits.parity_map_xor]
    exact congrArg _ (List.map_congr_left fun i _ => Bits.get_zipWith_xor h i)
  simp [hamChecks, hcheck, List.zipWith_map, List.zipWith_self]

/-- The syndrome is linear. -/
theorem hamSyndrome_zipWith (eqs : List (List Nat)) (k : Nat) {u v : Bits} (h : u.length = v.length) :
    hamSyndrome eqs k (List.zipWith xor u v) = hamSyndrome eqs k u ^^^ hamSyndrome eqs k v := by
  rw [hamSyndrome_eq, hamSyndrome_eq, hamSyndrome_eq, List.take_zipWith, List.drop_zipWith,
    hamChecks_zipWith eqs (by simp [h]), ← syndromeValue_zipWith (by simp [h])]
  refine congrArg _ (List.ext_getElem (by simp [h]) fun i _ _ => ?_)
  simp only [List.getElem_zipWith, Bool.xor_assoc, Bool.xor_left_comm]

theorem hamSyndrome_flip (eqs : List (List Nat)) {k : Nat} {r : Bits} (hr : r.length = k + 4) (i : Nat) :
    hamSyndrome eqs k (r.flip i) = hamSyndrome eqs k r ^^^ hamSyndrome eqs k (unitBits (k + 4) i) := by
  rw [Bits.flip_eq_zipWith, hr, hamSyndrome_zipWith eqs k (by simp [hr, unitBits])]

/-- A codeword has syndrome 0. -/
theorem hamSyndrome_codeword (eqs : List (List Nat)) (d : Bits) :
    hamSyndrome eqs d.length (d ++ hamChecks eqs d) = 0 := by
  rw [hamSyndrome_eq, List.take_left, List.drop_left, syndromeValue_zipWith rfl, Nat.xor_self]

theorem hamSyndrome_lt {eqs : List (List Nat)} (h : eqs.length = 4) (k : Nat) (r : Bits) :
    hamSyndrome eqs k r < 16 := by
  refine (syndromeValue_lt _).trans_le (Nat.pow_le_pow_right Nat.two_pos (?_ : _ ≤ 4))
  simp [h]

/-! ## Single errors -/

section
variable {eqs : List (List Nat)} {k : Nat} (h : hamOk eqs k = true)
include h

theorem hamSyndrome_single_ne_zero {i : Nat} (hi : i < k + 4) : hamSyndrome eqs k (unitBits (k + 4) i) ≠ 0 := by
  simp only [hamOk, Bool.and_eq_true, List.all_eq_true, List.mem_map, List.mem_range, bne_iff_ne] at h
  obtain ⟨_, hne⟩ := h
  exact hne _ ⟨i, hi, rfl⟩

/-- Single errors are told apart by their syndromes. -/
theorem hamSyndrome_single_inj {i j : Nat} (hi : i < k + 4) (hj : j < k + 4)
    (heq : hamSyndrome eqs k (unitBits (k + 4) i) = hamSyndrome eqs k (unitBits (k + 4) j)) : i = j := by
  simp only [hamOk, Bool.and_eq_true, decide_eq_true_eq] at h
  obtain ⟨⟨_, hnodup⟩, _⟩ := h
  exact List.inj_on_of_nodup_map hnodup (List.mem_range.mpr hi) (List.mem_range.mpr hj) heq

/-- The syndrome of a single error names its bit. -/
theorem hamBit_single {i : Nat} (hi : i < k + 4) : hamBit eqs k (hamSyndrome eqs k (unitBits (k + 4) i)) = some i := by
  cases hb : hamBit eqs k (hamSyndrome eqs k (unitBits (k + 4) i)) with
  | none => exact absurd (beq_self_eq_true _) (List.find?_eq_none.mp hb i (List.mem_range.mpr hi))
  | some j =>
    have hj := List.mem_range.mp (List.mem_of_find?_eq_some hb)
    have hsyn := List.find?_some hb
    rw [hamSyndrome_single_inj h hj hi (eq_of_beq hsyn)]

theorem length_codeword {d : Bits} (hd : d.length = k) : (d ++ hamChecks eqs d).length = k + 4 := by
  rw [List.length_append, length_hamChecks, hamOk_length h, hd]

/-- The syndrome of a codeword with an error is that of the error. -/
theorem hamSyndrome_codeword_flip {d : Bits} (hd : d.length = k) (i : Nat) :
    hamSyndrome eqs k (Bits.flip (d ++ hamChecks eqs d) i) = hamSyndrome eqs k (unitBits (k + 4) i) := by
  rw [hamSyndrome_flip eqs (length_codeword h hd), ← hd, hamSyndrome_codeword, Nat.zero_xor]

end

/-- A Hamming code of 11 data bits is perfect: every nonzero syndrome names a bit (42_block_codes.md R146). -/
theorem exists_hamBit {eqs : List (List Nat)} (h : hamOk eqs 11 = true) {syn : Nat} (h0 : syn ≠ 0) (hlt : syn < 16) :
    ∃ i, hamBit eqs 11 syn = some i := by
  have hmaps : Set.MapsTo (fun i => hamSyndrome eqs 11 (unitBits 15 i)) (Finset.range 15) (Finset.Ico 1 16) := by
    intro i hi
    have hne : hamSyndrome eqs 11 (unitBits 15 i) ≠ 0 := hamSyndrome_single_ne_zero h (by simpa using hi)
    have hlt' := hamSyndrome_lt (hamOk_length h) 11 (unitBits 15 i)
    simp only [Finset.coe_Ico, Set.mem_Ico]
    omega
  have hinj : Set.InjOn (fun i => hamSyndrome eqs 11 (unitBits 15 i)) (Finset.range 15) :=
    fun i hi j hj => hamSyndrome_single_inj h (by simpa using hi) (by simpa using hj)
  have hmem : syn ∈ Finset.Ico 1 16 := Finset.mem_Ico.mpr ⟨Nat.one_le_iff_ne_zero.mpr h0, hlt⟩
  obtain ⟨i, hi, rfl⟩ := Finset.surjOn_of_injOn_of_card_le _ hmaps hinj (by simp) (Finset.mem_coe.mpr hmem)
  exact ⟨i, hamBit_single h (by simpa using hi)⟩

theorem Params.wf_hamOk {p : Params} (h : p.wf = true) : hamOk p.ham15Eq 11 = true ∧ hamOk p.ham13Eq 9 = true := by
  simp only [Params.wf, Bool.and_eq_true] at h
  obtain ⟨⟨⟨⟨⟨⟨_, h15⟩, h13⟩, _⟩, _⟩, _⟩, _⟩ := h
  exact ⟨h15, h13⟩

namespace Machine

/-- The word a syndrome corrects. -/
theorem hamFix_of_some {eqs : List (List Nat)} {k syn i : Nat} (h : hamBit eqs k syn = some i) (r : Bits) :
    hamFix eqs k r syn = r.flip i := by
  simp only [hamFix, h]

/-! ## The decoders' rules -/

section
variable {p : Params} {desc : Descriptor} {m : Memory} {dst src : Nat} {r : Bits} {syn k : Nat}

section
variable (hr : m.readBits src 15 = r) (hsyn : hamSyndrome p.ham15Eq 11 r = syn)
include hr hsyn

theorem ruleH1511d_of_zero (h0 : syn = 0) : ruleH1511d p desc m ⟨0, 0, dst, src⟩ = decoded dst (r.take 11) 0 0 := by
  simp only [ruleH1511d, hr, hsyn, h0, if_pos]

theorem ruleH1511d_of_bit (h0 : syn ≠ 0) (hk : hamBit p.ham15Eq 11 syn = some k) :
    ruleH1511d p desc m ⟨0, 0, dst, src⟩ = decoded dst ((r.flip k).take 11) syn 1 := by
  simp only [ruleH1511d, hr, hsyn, h0, if_false, hamFix_of_some hk]

end

section
variable (hr : m.readBits src 16 = r) (hsyn : hamSyndrome p.ham15Eq 11 (r.take 15) = syn)
include hr hsyn

theorem ruleH1611d_of_clean (h0 : syn = 0) (heven : r.parity = false) :
    ruleH1611d p desc m ⟨0, 0, dst, src⟩ = decoded dst (r.take 11) 0 0 := by
  simp only [ruleH1611d, hr, hsyn, h0, heven, if_pos, Bool.toNat_false]

theorem ruleH1611d_of_parityBit (h0 : syn = 0) (hodd : r.parity = true) :
    ruleH1611d p desc m ⟨0, 0, dst, src⟩ = decoded dst (r.take 11) 16 1 := by
  simp only [ruleH1611d, hr, hsyn, h0, hodd, if_pos, Bool.toNat_true]

theorem ruleH1611d_of_bit (h0 : syn ≠ 0) (hodd : r.parity = true) (hk : hamBit p.ham15Eq 11 syn = some k) :
    ruleH1611d p desc m ⟨0, 0, dst, src⟩ = decoded dst ((r.flip k).take 11) (syn + 16) 1 := by
  simp only [ruleH1611d, hr, hsyn, h0, hodd, if_false, Bool.toNat_true, if_true, hamFix_of_some hk, Nat.mul_one]

theorem ruleH1611d_of_even (h0 : syn ≠ 0) (heven : r.parity = false) :
    ruleH1611d p desc m ⟨0, 0, dst, src⟩ = undecoded dst (r.take 11) syn := by
  simp [ruleH1611d, hr, hsyn, h0, heven]

end

section
variable (hr : m.readBits src 13 = r) (hsyn : hamSyndrome p.ham13Eq 9 r = syn)
include hr hsyn

theorem ruleH139d_of_zero (h0 : syn = 0) : ruleH139d p desc m ⟨0, 0, dst, src⟩ = decoded dst (r.take 9) 0 0 := by
  simp only [ruleH139d, hr, hsyn, h0, if_pos]

theorem ruleH139d_of_bit (h0 : syn ≠ 0) (hk : hamBit p.ham13Eq 9 syn = some k) :
    ruleH139d p desc m ⟨0, 0, dst, src⟩ = decoded dst ((r.flip k).take 9) syn 1 := by
  simp only [ruleH139d, hr, hsyn, h0, if_false, hamFix_of_some hk, hk, Option.isSome_some, if_true]

theorem ruleH139d_of_none (h0 : syn ≠ 0) (hk : hamBit p.ham13Eq 9 syn = none) :
    ruleH139d p desc m ⟨0, 0, dst, src⟩ = undecoded dst (r.take 9) syn := by
  simp [ruleH139d, hr, hsyn, h0, hk]

end

end

/-! ## The statements -/

/-- Settles O26: each rule is the encoder; the generator divides a Golay codeword (`exists_enc23_eq_polyMultiple`), and its
parity bit evens the weight. -/
theorem blockEncodersWriteTheCodeword : Obligations.BlockEncodersWriteTheCodeword := by
  intro s dst src
  have hdata : (s.dmem.readBits src.toNat 12).toNat < 2 ^ 12 := Memory.toNat_readBits_lt ..
  obtain ⟨q, hq, hmul⟩ := exists_enc23_eq_polyMultiple s.cfg.wf hdata
  refine ⟨fun hsrc hdst => ?gol24e, fun hsrc hdst => ?gol23e, fun hsrc hdst => ?h1511e, fun hsrc hdst => ?h1611e,
    fun hsrc hdst => ?h139e⟩
  case gol24e =>
    obtain ⟨t, ht, hdone⟩ := blockCommand_done (op := .gol24e) (rule := ruleGol24e) rfl rfl rfl hsrc hdst
    refine ⟨t, _, q, ht, rfl, ?_, hq, (enc24_div ..).trans hmul, ?_, hdone rfl⟩
    · rw [Nat.pow_succ', ← Nat.div_div_eq_div_mul, enc24_div, enc23_div]
    · rw [Bits.count_true_ofNat, popcount_enc24]
  case gol23e =>
    obtain ⟨t, ht, hdone⟩ := blockCommand_done (op := .gol23e) (rule := ruleGol23e) rfl rfl rfl hsrc hdst
    exact ⟨t, _, q, ht, rfl, enc23_div .., hq, hmul, hdone rfl⟩
  case h1511e =>
    obtain ⟨t, ht, hdone⟩ := blockCommand_done (op := .h1511e) (rule := ruleH1511e) rfl rfl rfl hsrc hdst
    exact ⟨t, _, ht, rfl, hdone rfl⟩
  case h1611e =>
    obtain ⟨t, ht, hdone⟩ := blockCommand_done (op := .h1611e) (rule := ruleH1611e) rfl rfl rfl hsrc hdst
    exact ⟨t, _, ht, rfl, hdone rfl⟩
  case h139e =>
    obtain ⟨t, ht, hdone⟩ := blockCommand_done (op := .h139e) (rule := ruleH139e) rfl rfl rfl hsrc hdst
    exact ⟨t, _, ht, rfl, hdone rfl⟩

/-- Settles O29: the sums are read off the equations for every data word, and the tables are evaluated. -/
theorem hammingEquationsAndTables : Obligations.HammingEquationsAndTables := by
  refine ⟨?checks15, ?checks13, by decide, by decide⟩
  case checks15 => intros; simp [hamChecks, ham15Default, Bits.parity, Bits.get]
  case checks13 => intros; simp [hamChecks, ham13Default, Bits.parity, Bits.get]

/-- Settles O30: by the decoders' rules, case by case; a nonzero syndrome of a 15-bit word names a bit, as the code is
perfect. -/
theorem hammingDecodersComplete : Obligations.HammingDecodersComplete := by
  intro s dst src
  have h15 := (s.par.wf_hamOk s.cfg.wf).1
  have hlt : ∀ r, hamSyndrome s.par.ham15Eq 11 r < 16 := hamSyndrome_lt (hamOk_length h15) 11
  refine ⟨fun hsrc hdst => ?h1511d, fun hsrc hdst => ?h1611d, fun hsrc hdst => ?h139d⟩
  case h1511d =>
    obtain ⟨r, hr⟩ : ∃ r, s.dmem.readBits src.toNat 15 = r := ⟨_, rfl⟩
    obtain ⟨syn, hsyn⟩ : ∃ syn, hamSyndrome s.par.ham15Eq 11 r = syn := ⟨_, rfl⟩
    obtain ⟨t, ht, hdone⟩ := blockCommand_done (op := .h1511d) (rule := ruleH1511d) rfl rfl rfl hsrc hdst
    refine ⟨t, r, syn, ht, hr.symm, hsyn.symm, fun h0 => ?clean, fun h0 => ?fixed⟩
    case clean => exact hdone (ruleH1511d_of_zero hr hsyn h0)
    case fixed =>
      obtain ⟨k, hk⟩ := exists_hamBit h15 h0 (hsyn ▸ hlt r)
      exact ⟨k, hk, hdone (ruleH1511d_of_bit hr hsyn h0 hk)⟩
  case h1611d =>
    obtain ⟨r, hr⟩ : ∃ r, s.dmem.readBits src.toNat 16 = r := ⟨_, rfl⟩
    obtain ⟨syn, hsyn⟩ : ∃ syn, hamSyndrome s.par.ham15Eq 11 (r.take 15) = syn := ⟨_, rfl⟩
    obtain ⟨t, ht, hdone⟩ := blockCommand_done (op := .h1611d) (rule := ruleH1611d) rfl rfl rfl hsrc hdst
    refine ⟨t, r, syn, ht, hr.symm, hsyn.symm, fun h0 heven => ?clean, fun h0 hodd => ?parityBit,
      fun h0 hodd => ?fixed, fun h0 heven => ?double⟩
    case clean => exact hdone (ruleH1611d_of_clean hr hsyn h0 heven)
    case parityBit => exact hdone (ruleH1611d_of_parityBit hr hsyn h0 hodd)
    case fixed =>
      obtain ⟨k, hk⟩ := exists_hamBit h15 h0 (hsyn ▸ hlt (r.take 15))
      exact ⟨k, hk, hdone (ruleH1611d_of_bit hr hsyn h0 hodd hk)⟩
    case double => exact hdone (ruleH1611d_of_even hr hsyn h0 heven)
  case h139d =>
    obtain ⟨r, hr⟩ : ∃ r, s.dmem.readBits src.toNat 13 = r := ⟨_, rfl⟩
    obtain ⟨syn, hsyn⟩ : ∃ syn, hamSyndrome s.par.ham13Eq 9 r = syn := ⟨_, rfl⟩
    obtain ⟨t, ht, hdone⟩ := blockCommand_done (op := .h139d) (rule := ruleH139d) rfl rfl rfl hsrc hdst
    refine ⟨t, r, syn, ht, hr.symm, hsyn.symm, fun h0 => ?clean, fun k hk h0 => ?fixed, fun hk h0 => ?unnamed⟩
    case clean => exact hdone (ruleH139d_of_zero hr hsyn h0)
    case fixed => exact hdone (ruleH139d_of_bit hr hsyn h0 hk)
    case unnamed => exact hdone (ruleH139d_of_none hr hsyn h0 hk)

/-! ## Errors -/

/-- The bits a command stored, read back. -/
theorem CodecDone.readBits {s t : State} {a n : Nat} {bits : Bits} {st : Status} {r r2 : Word}
    (h : CodecDone s t a bits st r r2) (hn : bits.length = n) : t.dmem.readBits a n = bits :=
  hn ▸ h.stored.reads

section
variable {s : State} {dst src : BitVec 16} {d : Bits} {k : Nat}

/-- H1511D corrects a single error: the syndrome names the flipped bit. -/
theorem exec_h1511d_single (hd : d.length = 11) (hsrc : src.toNat + 15 ≤ s.par.dmemBits)
    (hdst : dst.toNat + 11 ≤ s.par.dmemBits) (hk : k < 15)
    (hread : s.dmem.readBits src.toNat 15 = Bits.flip (d ++ hamChecks s.par.ham15Eq d) k) :
    ∃ t : State, exec (.h1511d dst src) s = .next t ∧ t.dmem.readBits dst.toNat 11 = d
      ∧ t.status = { valid := true, corr := 1 } := by
  have h15 := (s.par.wf_hamOk s.cfg.wf).1
  obtain ⟨t, r, syn, ht, hr, hsyn, -, hbit⟩ := (hammingDecodersComplete s dst src).1 hsrc hdst
  rw [hread] at hr
  rw [hr, hamSyndrome_codeword_flip h15 hd] at hsyn
  obtain ⟨i, hi, hdone⟩ := hbit (hsyn ▸ hamSyndrome_single_ne_zero h15 hk)
  obtain rfl : k = i := Option.some.inj ((hsyn ▸ hamBit_single h15 hk).symm.trans hi)
  rw [hr, Bits.flip_flip, List.take_left' hd] at hdone
  exact ⟨t, ht, hdone.readBits hd, hdone.status⟩

/-- H139D corrects a single error. -/
theorem exec_h139d_single (hd : d.length = 9) (hsrc : src.toNat + 13 ≤ s.par.dmemBits)
    (hdst : dst.toNat + 9 ≤ s.par.dmemBits) (hk : k < 13)
    (hread : s.dmem.readBits src.toNat 13 = Bits.flip (d ++ hamChecks s.par.ham13Eq d) k) :
    ∃ t : State, exec (.h139d dst src) s = .next t ∧ t.dmem.readBits dst.toNat 9 = d
      ∧ t.status = { valid := true, corr := 1 } := by
  have h13 := (s.par.wf_hamOk s.cfg.wf).2
  obtain ⟨t, r, syn, ht, hr, hsyn, -, hbit, -⟩ := (hammingDecodersComplete s dst src).2.2 hsrc hdst
  rw [hread] at hr
  rw [hr, hamSyndrome_codeword_flip h13 hd] at hsyn
  have hdone := hbit k (hsyn ▸ hamBit_single h13 hk) (hsyn ▸ hamSyndrome_single_ne_zero h13 hk)
  rw [hr, Bits.flip_flip, List.take_left' hd] at hdone
  exact ⟨t, ht, hdone.readBits hd, hdone.status⟩

end

/-! The extended code: an error changes the parity, and two errors in the first 15 bits have different syndromes. -/

/-- The parity bit makes the parity even (42_block_codes.md R150). -/
theorem parity_extendParity (c : Bits) : (extendParity c).parity = false := by
  rw [extendParity, Bits.parity_append_singleton, Bool.xor_self]

theorem take_extendParity {c : Bits} {n : Nat} (h : n ≤ c.length) : (extendParity c).take n = c.take n :=
  List.take_append_of_le_length h

section
variable {s : State} {dst src : BitVec 16} {d : Bits} (hd : d.length = 11) (hsrc : src.toNat + 16 ≤ s.par.dmemBits)
  (hdst : dst.toNat + 11 ≤ s.par.dmemBits)
include hd

theorem length_extendParity_codeword : (extendParity (d ++ hamChecks s.par.ham15Eq d)).length = 16 := by
  rw [extendParity, List.length_append, length_codeword (s.par.wf_hamOk s.cfg.wf).1 hd]
  rfl

include hsrc hdst

/-- H1611D corrects a single error: one in the first 15 bits has a syndrome, and one in the parity bit has none. -/
theorem exec_h1611d_single {k : Nat} (hk : k < 16)
    (hread : s.dmem.readBits src.toNat 16 = (extendParity (d ++ hamChecks s.par.ham15Eq d)).flip k) :
    ∃ t : State, exec (.h1611d dst src) s = .next t ∧ t.dmem.readBits dst.toNat 11 = d
      ∧ t.status = { valid := true, corr := 1 } := by
  have h15 := (s.par.wf_hamOk s.cfg.wf).1
  have hc : (d ++ hamChecks s.par.ham15Eq d).length = 15 := length_codeword h15 hd
  have hdata : (extendParity (d ++ hamChecks s.par.ham15Eq d)).take 11 = d := by
    rw [take_extendParity (by omega), List.take_left' hd]
  obtain ⟨t, r, syn, ht, hr, hsyn, -, hparityBit, hbit, -⟩ := (hammingDecodersComplete s dst src).2.1 hsrc hdst
  rw [hread] at hr
  have hodd : r.parity = true := by
    rw [hr, Bits.parity_flip (by rwa [length_extendParity_codeword hd]), parity_extendParity]
    rfl
  rw [hr, Bits.take_flip, take_extendParity hc.ge, List.take_of_length_le hc.le] at hsyn
  by_cases h : k < 15
  · rw [hamSyndrome_codeword_flip h15 hd] at hsyn
    obtain ⟨i, hi, hdone⟩ := hbit (hsyn ▸ hamSyndrome_single_ne_zero h15 h) hodd
    obtain rfl : k = i := Option.some.inj ((hsyn ▸ hamBit_single h15 h).symm.trans hi)
    rw [hr, Bits.flip_flip, hdata] at hdone
    exact ⟨t, ht, hdone.readBits hd, hdone.status⟩
  · have hpast : d.length ≤ k := by omega
    rw [Bits.flip_of_length_le (by omega), ← hd, hamSyndrome_codeword] at hsyn
    have hdone := hparityBit hsyn hodd
    rw [hr, Bits.take_flip, hdata, Bits.flip_of_length_le hpast] at hdone
    exact ⟨t, ht, hdone.readBits hd, hdone.status⟩

/-- H1611D detects a double error: the parity is even and the syndrome is not 0. -/
theorem exec_h1611d_double {k l : Nat} (hkl : k < l) (hl : l < 16)
    (hread : s.dmem.readBits src.toNat 16 = ((extendParity (d ++ hamChecks s.par.ham15Eq d)).flip k).flip l) :
    ∃ t : State, exec (.h1611d dst src) s = .next t ∧ t.status = { err := .fecUncorr } := by
  have h15 := (s.par.wf_hamOk s.cfg.wf).1
  have hc : (d ++ hamChecks s.par.ham15Eq d).length = 15 := length_codeword h15 hd
  obtain ⟨t, r, syn, ht, hr, hsyn, -, -, -, hdouble⟩ := (hammingDecodersComplete s dst src).2.1 hsrc hdst
  rw [hread] at hr
  have heven : r.parity = false := by
    have hlen : (extendParity (d ++ hamChecks s.par.ham15Eq d)).length = 16 := length_extendParity_codeword hd
    rw [hr, Bits.parity_flip (by simpa only [Bits.length_flip, hlen]), Bits.parity_flip (by omega),
      parity_extendParity]
    rfl
  rw [hr, Bits.take_flip, Bits.take_flip, take_extendParity hc.ge, List.take_of_length_le hc.le] at hsyn
  have hne : syn ≠ 0 := by
    rw [hsyn]
    by_cases h : l < 15
    · rw [hamSyndrome_flip _ (by simpa only [Bits.length_flip]), hamSyndrome_codeword_flip h15 hd]
      exact mt Nat.xor_eq_zero_iff.mp (mt (hamSyndrome_single_inj h15 (hkl.trans h) h) hkl.ne)
    · rw [Bits.flip_of_length_le (by rw [Bits.length_flip]; omega), hamSyndrome_codeword_flip h15 hd]
      exact hamSyndrome_single_ne_zero h15 (by omega)
  exact ⟨t, ht, (hdouble hne heven).status⟩

end

/-- Settles O31: the syndrome of a codeword with errors is that of the errors (`hamSyndrome_codeword_flip`). -/
theorem hammingDecodersCorrectSingleErrors : Obligations.HammingDecodersCorrectSingleErrors := fun _ _ _ _ =>
  ⟨fun hd hsrc hdst _ => exec_h1511d_single hd hsrc hdst,
    fun hd hsrc hdst => ⟨fun _ => exec_h1611d_single hd hsrc hdst, fun _ _ => exec_h1611d_double hd hsrc hdst⟩,
    fun hd hsrc hdst _ => exec_h139d_single hd hsrc hdst⟩

end Machine
end Sys2Proof
end

section
/-! Hamming codewords laid out in a matrix, as the BPTC does (43_bptc.md R172): a line is a list of positions of a block
that holds a codeword. What setting the check bits of lines, or correcting lines, does to a block; rows and columns are
the two cases. -/

namespace Sys2Proof

/-! ## The bits of a vector -/

theorem Bits.ext_get {u v : Bits} (hlen : u.length = v.length) (h : ∀ i < u.length, u.get i = v.get i) : u = v :=
  List.ext_getElem hlen fun i hu hv => by simpa [Bits.get, hu, hv] using h i hu

theorem Bits.get_map_range {n i : Nat} (f : Nat → Bool) (hi : i < n) : Bits.get ((List.range n).map f) i = f i := by
  simp [Bits.get, hi]

theorem Bits.get_set_same {v : Bits} {a : Nat} (ha : a < v.length) (b : Bool) : Bits.get (v.set a b) a = b := by
  simp [Bits.get, ha]

theorem Bits.get_set_ne (v : Bits) {a c : Nat} (h : a ≠ c) (b : Bool) : Bits.get (v.set a b) c = v.get c := by
  simp [Bits.get, h]

theorem Bits.get_flip_same {v : Bits} {a : Nat} (ha : a < v.length) : (v.flip a).get a = !v.get a :=
  Bits.get_set_same ha _

theorem Bits.get_flip_ne (v : Bits) {a c : Nat} (h : a ≠ c) : (v.flip a).get c = v.get c :=
  Bits.get_set_ne v h _

theorem Bits.get_append_left {u : Bits} (v : Bits) {i : Nat} (h : i < u.length) : Bits.get (u ++ v) i = u.get i :=
  List.getD_append u v false i h

theorem Bits.get_append_right (u v : Bits) (j : Nat) : Bits.get (u ++ v) (u.length + j) = v.get j := by
  rw [Bits.get, List.getD_append_right u v false _ (Nat.le_add_right ..), Nat.add_sub_cancel_left, Bits.get]

theorem Bits.get_take (v : Bits) {k i : Nat} (h : i < k) : Bits.get (v.take k) i = v.get i := by
  simp [Bits.get, h]

theorem Bits.get_drop (v : Bits) (k j : Nat) : Bits.get (v.drop k) j = v.get (k + j) := by
  simp [Bits.get]

@[simp] theorem Bits.get_zeros (n i : Nat) : (Bits.zeros n).get i = false := by
  by_cases hi : i < n <;> simp [Bits.get, Bits.zeros, hi]

theorem Bits.setMany_cons (v : Bits) (x : Nat × Bool) (xs : List (Nat × Bool)) :
    v.setMany (x :: xs) = Bits.setMany (v.set x.1 x.2) xs := rfl

theorem Bits.get_setMany_of_not_mem {v : Bits} {xs : List (Nat × Bool)} {a : Nat} (ha : a ∉ xs.map Prod.fst) :
    (v.setMany xs).get a = v.get a := by
  induction xs generalizing v with
  | nil => rfl
  | cons x xs ih =>
    rw [List.map_cons, List.mem_cons, not_or] at ha
    rw [Bits.setMany_cons, ih ha.2, Bits.get_set_ne v (Ne.symm ha.1)]

theorem Bits.get_setMany_of_mem {v : Bits} {xs : List (Nat × Bool)} {a : Nat} {b : Bool}
    (hnd : (xs.map Prod.fst).Nodup) (hmem : (a, b) ∈ xs) (ha : a < v.length) : (v.setMany xs).get a = b := by
  induction xs generalizing v with
  | nil => simp at hmem
  | cons x xs ih =>
    rw [List.map_cons, List.nodup_cons] at hnd
    rw [Bits.setMany_cons]
    rcases List.mem_cons.mp hmem with rfl | hmem
    · rw [Bits.get_setMany_of_not_mem hnd.1, Bits.get_set_same ha]
    · exact ih hnd.2 hmem (by simpa using ha)

section
variable {v bits : Bits} {f : Nat → Nat} {n : Nat}

/-- A scatter of bits leaves the positions it does not name alone. -/
theorem Bits.get_scatter_ne {a : Nat} (h : ∀ j < n, f j ≠ a) :
    (v.setMany (((List.range n).map f).zip bits)).get a = v.get a := by
  refine Bits.get_setMany_of_not_mem fun ha => ?_
  obtain ⟨⟨a', b⟩, hmem, rfl⟩ := List.mem_map.mp ha
  obtain ⟨j, hj, hfj⟩ := List.mem_map.mp (List.of_mem_zip hmem).1
  exact h j (List.mem_range.mp hj) hfj

/-- A scatter of bits to positions all different puts each bit at its position. -/
theorem Bits.get_scatter (hinj : ∀ i < n, ∀ j < n, f i = f j → i = j) (hbits : bits.length = n) {j : Nat} (hj : j < n)
    (hin : f j < v.length) : (v.setMany (((List.range n).map f).zip bits)).get (f j) = bits.get j := by
  have hnd : ((List.range n).map f).Nodup := List.Nodup.map_on
    (fun i hi k hk => hinj i (List.mem_range.mp hi) k (List.mem_range.mp hk)) List.nodup_range
  refine Bits.get_setMany_of_mem ?_ (List.mem_iff_getElem.mpr ⟨j, by simp [hbits, hj], ?_⟩) hin
  · rwa [List.map_fst_zip (by simp [hbits])]
  · simp [Bits.get, hbits, hj]

end

/-! ## The checks of a codeword -/

theorem syndromeValue_eq_zero {v : Bits} (h : syndromeValue v = 0) (i : Nat) : v.get i = false := by
  induction v generalizing i with
  | nil => rfl
  | cons b v ih =>
    rw [syndromeValue_cons] at h
    cases i with
    | zero => exact Bool.toNat_eq_zero.mp (Nat.add_eq_zero_iff.mp h).1
    | succ i => exact ih (by omega) i

/-- Equations that make a Hamming code name data bits only. -/
theorem hamOk_mem_lt {eqs : List (List Nat)} {k : Nat} (h : hamOk eqs k = true) {e : List Nat} (he : e ∈ eqs) {i : Nat}
    (hi : i ∈ e) : i < k := by
  simp only [hamOk, Bool.and_eq_true, List.all_eq_true, decide_eq_true_eq] at h
  obtain ⟨⟨⟨_, hlt⟩, _⟩, _⟩ := h
  exact hlt e he i hi

/-- With syndrome 0 each check bit is the parity of its data bits. -/
theorem get_check_of_hamSyndrome_eq_zero {eqs : List (List Nat)} {k j : Nat} {v : Bits}
    (hlen : v.length = k + eqs.length) (h0 : hamSyndrome eqs k v = 0) {e : List Nat} (he : eqs[j]? = some e)
    (hdata : ∀ i ∈ e, i < k) : v.get (k + j) = Bits.parity (e.map v.get) := by
  have hlens : (hamChecks eqs (v.take k)).length = (v.drop k).length := by simp [hlen]
  have hcheck : (hamChecks eqs (v.take k)).get j = Bits.parity (e.map (Bits.get (v.take k))) := by
    simp [hamChecks, Bits.get, he]
  have hbit := syndromeValue_eq_zero ((hamSyndrome_eq eqs k v).symm.trans h0) j
  rw [Bits.get_zipWith_xor hlens, Bits.get_drop, hcheck, bne_eq_false_iff_eq] at hbit
  rw [← hbit]
  exact congrArg _ (List.map_congr_left fun i hi => v.get_take (hdata i hi))

/-- A sum of codewords is a codeword. -/
theorem hamSyndrome_parity_map (eqs : List (List Nat)) (k n : Nat) (g : Nat → Nat → Bool) (e : List Nat)
    (h : ∀ r ∈ e, hamSyndrome eqs k ((List.range n).map (g r)) = 0) :
    hamSyndrome eqs k ((List.range n).map fun c => Bits.parity (e.map (g · c))) = 0 := by
  induction e with
  | nil =>
    have hzero : ((List.range n).map fun c => Bits.parity (([] : List Nat).map (g · c)))
        = List.zipWith xor (Bits.zeros n) (Bits.zeros n) :=
      Bits.ext_get (by simp) fun i hi => by
        rw [Bits.get_zipWith_xor rfl, Bits.get_map_range _ (by simpa using hi), Bool.xor_self]
        rfl
    rw [hzero, hamSyndrome_zipWith eqs k rfl, Nat.xor_self]
  | cons r e ih =>
    have hsum : ((List.range n).map fun c => Bits.parity ((r :: e).map (g · c)))
        = List.zipWith xor ((List.range n).map (g r)) ((List.range n).map fun c => Bits.parity (e.map (g · c))) := by
      simp [Bits.parity_cons, List.zipWith_map, List.zipWith_self]
    rw [hsum, hamSyndrome_zipWith eqs k (by simp), h r List.mem_cons_self,
      ih fun r' hr' => h r' (List.mem_cons_of_mem _ hr'), Nat.xor_self]

/-! ## One line -/

/-- The `n` bits of the block `m` at the positions of a line. -/
def lineBits (pos : Nat → Nat) (n : Nat) (m : Bits) : Bits :=
  (List.range n).map fun i => m.get (pos i)

/-- The check bits of a line set from its data: what `bptcRowEncode` and `bptcColEncode` do. -/
def encodeLine (eqs : List (List Nat)) (k : Nat) (pos : Nat → Nat) (m : Bits) : Bits :=
  m.setMany (((List.range 4).map fun j => pos (k + j)).zip (hamChecks eqs ((lineBits pos (k + 4) m).take k)))

/-- The syndrome of a line. -/
def lineSyndrome (eqs : List (List Nat)) (k : Nat) (pos : Nat → Nat) (m : Bits) : Nat :=
  hamSyndrome eqs k (lineBits pos (k + 4) m)

/-- The correction of a line, with the count of bits fixed: what `bptcFixRow` and `bptcFixCol` do. -/
def fixLine (eqs : List (List Nat)) (k : Nat) (pos : Nat → Nat) (x : Bits × Nat) : Bits × Nat :=
  if lineSyndrome eqs k pos x.1 = 0 then x
  else match hamBit eqs k (lineSyndrome eqs k pos x.1) with
    | some i => (x.1.flip (pos i), x.2 + 1)
    | none => x

section
variable {eqs : List (List Nat)} {k n t a : Nat} {pos : Nat → Nat} {m m' : Bits}

@[simp] theorem length_lineBits : (lineBits pos n m).length = n := by
  simp [lineBits]

theorem get_lineBits {i : Nat} (hi : i < n) : (lineBits pos n m).get i = m.get (pos i) :=
  Bits.get_map_range _ hi

theorem lineBits_congr (h : ∀ i < n, m'.get (pos i) = m.get (pos i)) : lineBits pos n m' = lineBits pos n m :=
  List.map_congr_left fun i hi => h i (List.mem_range.mp hi)

theorem lineSyndrome_congr (h : ∀ i < k + 4, m'.get (pos i) = m.get (pos i)) :
    lineSyndrome eqs k pos m' = lineSyndrome eqs k pos m :=
  congrArg (hamSyndrome eqs k) (lineBits_congr h)

/-- An error outside a line does not change its syndrome. -/
theorem lineSyndrome_flip_ne (h : ∀ i < k + 4, a ≠ pos i) :
    lineSyndrome eqs k pos (m.flip a) = lineSyndrome eqs k pos m :=
  lineSyndrome_congr fun i hi => m.get_flip_ne (h i hi)

@[simp] theorem length_encodeLine : (encodeLine eqs k pos m).length = m.length :=
  Bits.length_setMany ..

theorem get_encodeLine_ne (h : ∀ j < 4, pos (k + j) ≠ a) : (encodeLine eqs k pos m).get a = m.get a :=
  Bits.get_scatter_ne h

theorem fixLine_of_zero (h : lineSyndrome eqs k pos m = 0) : fixLine eqs k pos (m, t) = (m, t) :=
  if_pos h

theorem fixLine_of_bit {i : Nat} (h : lineSyndrome eqs k pos m ≠ 0)
    (hbit : hamBit eqs k (lineSyndrome eqs k pos m) = some i) :
    fixLine eqs k pos (m, t) = (m.flip (pos i), t + 1) := by
  simp only [fixLine, if_neg h, hbit]

section
variable (hin : ∀ i < k + 4, pos i < m.length) (hinj : ∀ i < k + 4, ∀ j < k + 4, pos i = pos j → i = j)
include hin hinj

/-- With its check bits set a line is a codeword. -/
theorem lineSyndrome_encodeLine (heqs : eqs.length = 4) : lineSyndrome eqs k pos (encodeLine eqs k pos m) = 0 := by
  obtain ⟨d, hd⟩ : ∃ d : Bits, (lineBits pos (k + 4) m).take k = d := ⟨_, rfl⟩
  have hdlen : d.length = k := by simp [← hd]
  have hword : lineBits pos (k + 4) (encodeLine eqs k pos m) = d ++ hamChecks eqs d := by
    refine Bits.ext_get (by simp [hdlen, heqs]) fun i hi => ?_
    rw [length_lineBits] at hi
    rw [get_lineBits hi]
    by_cases hik : i < k
    · have hne : ∀ j < 4, pos (k + j) ≠ pos i := fun j hj heq => by
        have := hinj _ (by omega) _ hi heq
        omega
      rw [get_encodeLine_ne hne, Bits.get_append_left _ (by omega), ← hd, Bits.get_take _ hik, get_lineBits hi]
    · obtain ⟨j, rfl⟩ := Nat.exists_eq_add_of_le (Nat.not_lt.mp hik)
      have hchk : (encodeLine eqs k pos m).get (pos (k + j)) = (hamChecks eqs d).get j := by
        rw [← hd]
        exact Bits.get_scatter (f := fun j => pos (k + j))
          (fun i hi j hj heq => by have := hinj _ (by omega) _ (by omega) heq; omega)
          (by simp [heqs]) (by omega) (hin _ hi)
      rw [hchk]
      exact hdlen ▸ (Bits.get_append_right d _ j).symm
  rw [lineSyndrome, hword, ← hdlen, hamSyndrome_codeword]

theorem lineBits_flip {i : Nat} (hi : i < k + 4) :
    lineBits pos (k + 4) (m.flip (pos i)) = (lineBits pos (k + 4) m).flip i := by
  refine Bits.ext_get (by simp) fun j hj => ?_
  rw [length_lineBits] at hj
  rw [get_lineBits hj]
  by_cases hij : i = j
  · subst hij
    rw [Bits.get_flip_same (hin i hi), Bits.get_flip_same (by simpa using hi), get_lineBits hi]
  · rw [Bits.get_flip_ne _ (mt (hinj i hi j hj) hij), Bits.get_flip_ne _ hij, get_lineBits hj]

/-- The correction of a codeword with one error undoes the error. -/
theorem fixLine_flip (heqs : hamOk eqs k = true) (h0 : lineSyndrome eqs k pos m = 0) {i : Nat} (hi : i < k + 4) :
    fixLine eqs k pos (m.flip (pos i), t) = (m, t + 1) := by
  have hsyn : lineSyndrome eqs k pos (m.flip (pos i)) = hamSyndrome eqs k (unitBits (k + 4) i) := by
    rw [lineSyndrome, lineBits_flip hin hinj hi, hamSyndrome_flip eqs length_lineBits, ← lineSyndrome, h0, Nat.zero_xor]
  rw [fixLine_of_bit (hsyn ▸ hamSyndrome_single_ne_zero heqs hi) (hsyn ▸ hamBit_single heqs hi), Bits.flip_flip]

end
end

/-! ## Several lines -/

/-- `n` lines of `w` positions below `len`, all different: position `i` of line `r` is `pos r i`. -/
structure LinesApart (pos : Nat → Nat → Nat) (n w len : Nat) : Prop where
  inside : ∀ r < n, ∀ i < w, pos r i < len
  inj : ∀ r < n, ∀ i < w, ∀ r' < n, ∀ i' < w, pos r i = pos r' i' → r = r' ∧ i = i'

theorem LinesApart.mono {pos : Nat → Nat → Nat} {n n' w len : Nat} (h : LinesApart pos n w len) (hn : n' ≤ n) :
    LinesApart pos n' w len where
  inside r hr := h.inside r (by omega)
  inj r hr i hi r' hr' := h.inj r (by omega) i hi r' (by omega)

theorem LinesApart.inj_line {pos : Nat → Nat → Nat} {n w len : Nat} (h : LinesApart pos n w len) {r : Nat}
    (hr : r < n) (i : Nat) (hi : i < w) (j : Nat) (hj : j < w) (heq : pos r i = pos r j) : i = j :=
  (h.inj r hr i hi r hr j hj heq).2

/-- The check bits of the lines 0 to `n - 1` set in turn. -/
def encodeLines (eqs : List (List Nat)) (k : Nat) (pos : Nat → Nat → Nat) (n : Nat) (m : Bits) : Bits :=
  (List.range n).foldl (fun m r => encodeLine eqs k (pos r) m) m

/-- The lines 0 to `n - 1` corrected in turn. -/
def fixLines (eqs : List (List Nat)) (k : Nat) (pos : Nat → Nat → Nat) (n : Nat) (x : Bits × Nat) : Bits × Nat :=
  (List.range n).foldl (fun x r => fixLine eqs k (pos r) x) x

section
variable {eqs : List (List Nat)} {k n t a : Nat} {pos : Nat → Nat → Nat} {m : Bits}

theorem encodeLines_succ :
    encodeLines eqs k pos (n + 1) m = encodeLine eqs k (pos n) (encodeLines eqs k pos n m) := by
  simp [encodeLines, List.range_succ]

theorem fixLines_succ (x : Bits × Nat) :
    fixLines eqs k pos (n + 1) x = fixLine eqs k (pos n) (fixLines eqs k pos n x) := by
  simp [fixLines, List.range_succ]

@[simp] theorem length_encodeLines : (encodeLines eqs k pos n m).length = m.length := by
  induction n with
  | zero => rfl
  | succ n ih => rw [encodeLines_succ, length_encodeLine, ih]

/-- Only the check bits of the lines are set. -/
theorem get_encodeLines_ne (h : ∀ r < n, ∀ j < 4, pos r (k + j) ≠ a) : (encodeLines eqs k pos n m).get a = m.get a := by
  induction n with
  | zero => rfl
  | succ n ih =>
    rw [encodeLines_succ, get_encodeLine_ne (h n n.lt_succ_self), ih fun r hr => h r (by omega)]

/-- With the check bits set every line is a codeword: the check bits of a later line lie in no earlier one. -/
theorem lineSyndrome_encodeLines (hl : LinesApart pos n (k + 4) m.length) (heqs : eqs.length = 4) {r : Nat}
    (hr : r < n) : lineSyndrome eqs k (pos r) (encodeLines eqs k pos n m) = 0 := by
  induction n with
  | zero => omega
  | succ n ih =>
    rw [encodeLines_succ]
    rcases Nat.lt_succ_iff_lt_or_eq.mp hr with hlt | rfl
    · rw [← ih (hl.mono n.le_succ) hlt]
      refine lineSyndrome_congr fun i hi => get_encodeLine_ne fun j hj heq => ?_
      have := hl.inj n n.lt_succ_self _ (by omega) r hr i hi heq
      omega
    · exact lineSyndrome_encodeLine (by simpa using hl.inside r hr) (hl.inj_line hr) heqs

/-- Lines that are codewords are not changed. -/
theorem fixLines_of_zero (h0 : ∀ r < n, lineSyndrome eqs k (pos r) m = 0) : fixLines eqs k pos n (m, t) = (m, t) := by
  induction n with
  | zero => rfl
  | succ n ih => rw [fixLines_succ, ih fun r hr => h0 r (by omega), fixLine_of_zero (h0 n n.lt_succ_self)]

/-- One error in lines that are codewords is corrected when its line's turn comes. -/
theorem fixLines_flip_of_le {N : Nat} (hl : LinesApart pos N (k + 4) m.length) (heqs : hamOk eqs k = true)
    (h0 : ∀ r < N, lineSyndrome eqs k (pos r) m = 0) {r i : Nat} (hr : r < N) (hi : i < k + 4) (hn : n ≤ N) :
    fixLines eqs k pos n (m.flip (pos r i), t) = if r < n then (m, t + 1) else (m.flip (pos r i), t) := by
  induction n with
  | zero => rfl
  | succ n ih =>
    rw [fixLines_succ, ih (by omega)]
    rcases Nat.lt_trichotomy r n with hlt | rfl | hgt
    · rw [if_pos hlt, if_pos (by omega), fixLine_of_zero (h0 n hn)]
    · rw [if_neg r.lt_irrefl, if_pos r.lt_succ_self, fixLine_flip (hl.inside r hr) (hl.inj_line hr) heqs (h0 r hr) hi]
    · have hother : ∀ j < k + 4, pos r i ≠ pos n j := fun j hj heq => by
        have := hl.inj r hr i hi n hn j hj heq
        omega
      rw [if_neg (by omega), if_neg (by omega), fixLine_of_zero (by rw [lineSyndrome_flip_ne hother, h0 n hn])]

theorem fixLines_flip (hl : LinesApart pos n (k + 4) m.length) (heqs : hamOk eqs k = true)
    (h0 : ∀ r < n, lineSyndrome eqs k (pos r) m = 0) {r i : Nat} (hr : r < n) (hi : i < k + 4) :
    fixLines eqs k pos n (m.flip (pos r i), t) = (m, t + 1) := by
  rw [fixLines_flip_of_le hl heqs h0 hr hi le_rfl, if_pos hr]

end

end Sys2Proof
end

section
/-! The BPTC(196,96) codec (43_bptc.md R170 to R178): the block BPTCE writes is a matrix of codewords, and BPTCD's
passes leave such a matrix alone and correct one error in it. -/

namespace Sys2Proof.Machine

/-! ## The permutation -/

@[simp] theorem length_bptcBlock (raw : Bits) : (bptcBlock raw).length = 196 := by
  simp [bptcBlock]

theorem get_bptcBlock (raw : Bits) {a : Nat} (ha : a < 196) : (bptcBlock raw).get a = raw.get (a * 181 % 196) :=
  Bits.get_map_range _ ha

/-- The two permutations of R171 undo each other. -/
theorem bptcBlock_bptcPermute {m : Bits} (hm : m.length = 196) : bptcBlock (bptcPermute m) = m := by
  refine Bits.ext_get (by simp [hm]) fun a ha => ?_
  rw [length_bptcBlock] at ha
  have hback : a * 181 % 196 * 13 % 196 = a := by omega
  rw [get_bptcBlock _ ha, bptcPermute, Bits.get_map_range _ (by rw [bptcN]; omega), bptcN, hback]

/-- An error of the block is an error at one position of the deinterleaved block. -/
theorem bptcBlock_flip {raw : Bits} (hraw : raw.length = 196) {k : Nat} (hk : k < 196) :
    bptcBlock (raw.flip k) = (bptcBlock raw).flip (k * 13 % 196) := by
  refine Bits.ext_get (by simp) fun a ha => ?_
  rw [length_bptcBlock] at ha
  rw [get_bptcBlock _ ha]
  by_cases h : k = a * 181 % 196
  · have hback : k * 13 % 196 = a := by omega
    rw [hback, ← h, Bits.get_flip_same (by omega), Bits.get_flip_same (by simpa using ha), get_bptcBlock _ ha, h]
  · rw [Bits.get_flip_ne _ h, Bits.get_flip_ne _ (by omega), get_bptcBlock _ ha]

/-! ## The lines of the matrix

Position `i` of row `r` is `bptcIndex r i`, and of column `c` it is `bptcIndex i c` (R172). -/

theorem bptcRowSyndrome_eq (p : Params) (m : Bits) (r : Nat) :
    bptcRowSyndrome p m r = lineSyndrome p.ham15Eq 11 (bptcIndex r) m := rfl

theorem bptcColSyndrome_eq (p : Params) (m : Bits) (c : Nat) :
    bptcColSyndrome p m c = lineSyndrome p.ham13Eq 9 (bptcIndex · c) m := rfl

theorem bptcFixRow_eq (p : Params) : bptcFixRow p = fun x r => fixLine p.ham15Eq 11 (bptcIndex r) x := by
  funext x r
  rfl

theorem bptcFixCol_eq (p : Params) : bptcFixCol p = fun x c => fixLine p.ham13Eq 9 (bptcIndex · c) x := by
  funext x c
  rfl

/-- A pass corrects the columns and then the rows. -/
theorem bptcPass_eq (p : Params) (m : Bits) :
    bptcPass p m
      = fixLines p.ham15Eq 11 bptcIndex 9 (fixLines p.ham13Eq 9 (fun c r => bptcIndex r c) 15 (m, 0)) := by
  rw [bptcPass, bptcFixRow_eq, bptcFixCol_eq, fixLines, fixLines]

theorem linesApart_rows : LinesApart bptcIndex 9 15 196 where
  inside r hr i hi := by
    rw [bptcIndex]
    omega
  inj r hr i hi r' hr' i' hi' heq := by
    simp only [bptcIndex] at heq
    omega

theorem linesApart_cols : LinesApart (fun c r => bptcIndex r c) 15 13 196 where
  inside c hc r hr := by
    rw [bptcIndex]
    omega
  inj c hc r hr c' hc' r' hr' heq := by
    simp only [bptcIndex] at heq
    omega

/-! ## A matrix of codewords -/

/-- A block whose columns and data rows are codewords: what BPTCE makes and BPTCD works towards. -/
structure BptcClean (p : Params) (m : Bits) : Prop where
  length : m.length = 196
  cols : ∀ c < 15, bptcColSyndrome p m c = 0
  rows : ∀ r < 9, bptcRowSyndrome p m r = 0

section
variable {p : Params} {m : Bits}

theorem BptcClean.bad (h : BptcClean p m) : bptcBad p m = 0 := by
  rw [bptcBad, Nat.add_eq_zero_iff, List.countP_eq_zero, List.countP_eq_zero]
  exact ⟨fun c hc => by simp [h.cols c (List.mem_range.mp hc)], fun r hr => by simp [h.rows r (List.mem_range.mp hr)]⟩

theorem BptcClean.pass (h : BptcClean p m) : bptcPass p m = (m, 0) := by
  rw [bptcPass_eq, fixLines_of_zero h.cols, fixLines_of_zero h.rows]

theorem BptcClean.iterate (h : BptcClean p m) (n passes total : Nat) :
    bptcIterate p (n + 1) m passes total = (m, passes + 1, total) := by
  simp only [bptcIterate, h.pass, if_true]

/-- `m[0]` lies in no line. -/
theorem BptcClean.flip_zero (h : BptcClean p m) : BptcClean p (m.flip 0) where
  length := by rw [Bits.length_flip, h.length]
  cols c hc := by
    rw [bptcColSyndrome_eq, lineSyndrome_flip_ne (fun i _ => by rw [bptcIndex]; omega)]
    exact h.cols c hc
  rows r hr := by
    rw [bptcRowSyndrome_eq, lineSyndrome_flip_ne (fun i _ => by rw [bptcIndex]; omega)]
    exact h.rows r hr

/-- One error in the matrix is corrected by the column step (R178). -/
theorem BptcClean.pass_flip (h : BptcClean p m) (hp : p.wf = true) {r c : Nat} (hr : r < 13) (hc : c < 15) :
    bptcPass p (m.flip (bptcIndex r c)) = (m, 1) := by
  have hcols : fixLines p.ham13Eq 9 (fun c r => bptcIndex r c) 15 (m.flip (bptcIndex r c), 0) = (m, 1) :=
    fixLines_flip (h.length ▸ linesApart_cols) (p.wf_hamOk hp).2 h.cols hc hr
  rw [bptcPass_eq, hcols, fixLines_of_zero h.rows]

/-- After any single error the passes end at a matrix of codewords that differs from the encoded one in `m[0]` at
most. -/
theorem BptcClean.iterate_flip (h : BptcClean p m) (hp : p.wf = true) {a : Nat} (ha : a < 196) :
    ∃ (m' : Bits) (passes total : Nat), bptcIterate p 5 (m.flip a) 0 0 = (m', passes, total) ∧ BptcClean p m'
      ∧ ∀ b : Nat, b ≠ 0 → m'.get b = m.get b := by
  rcases Nat.eq_zero_or_pos a with rfl | hpos
  · exact ⟨_, _, _, h.flip_zero.iterate .., h.flip_zero, fun b hb => m.get_flip_ne hb.symm⟩
  · have hidx : a = bptcIndex ((a - 1) / 15) ((a - 1) % 15) := by
      rw [bptcIndex]
      omega
    have hpass : bptcPass p (m.flip a) = (m, 1) := by
      rw [hidx]
      exact h.pass_flip hp (by omega) (by omega)
    refine ⟨m, 2, 1, ?_, h, fun _ _ => rfl⟩
    rw [bptcIterate]
    simp only [hpass, Nat.one_ne_zero, if_false, h.iterate]

/-- A row of column check bits is a sum of data rows, so it is a codeword too. -/
theorem BptcClean.checkRows (h : BptcClean p m) (hp : p.wf = true) {r : Nat} (hr : r < 13) :
    bptcRowSyndrome p m r = 0 := by
  by_cases hdata : r < 9
  · exact h.rows r hdata
  obtain ⟨j, rfl⟩ := Nat.exists_eq_add_of_le (Nat.not_lt.mp hdata)
  have h13 := (p.wf_hamOk hp).2
  have hfour := hamOk_length h13
  obtain ⟨e, he⟩ : ∃ e, p.ham13Eq[j]? = some e := ⟨_, List.getElem?_eq_getElem (by omega)⟩
  have hmem : ∀ i ∈ e, i < 9 := fun i => hamOk_mem_lt h13 (List.mem_of_getElem? he)
  have hsum : bptcRow m (9 + j) = (List.range 15).map fun c => Bits.parity (e.map fun i => m.get (bptcIndex i c)) := by
    refine List.map_congr_left fun c hc => ?_
    have hcheck := get_check_of_hamSyndrome_eq_zero (by simp [bptcCol, hfour]) (h.cols c (List.mem_range.mp hc)) he hmem
    rw [bptcCol, Bits.get_map_range _ hr] at hcheck
    rw [hcheck]
    refine congrArg _ (List.map_congr_left fun i hi => ?_)
    have := hmem i hi
    exact Bits.get_map_range _ (by omega)
  rw [bptcRowSyndrome, hsum]
  exact hamSyndrome_parity_map _ _ _ (fun i c => m.get (bptcIndex i c)) e fun i hi => h.rows i (hmem i hi)

end

/-- The passes made: at least one, and no more than allowed. -/
theorem bptcIterate_passes (p : Params) (n : Nat) (m : Bits) (passes total : Nat) :
    passes + 1 ≤ (bptcIterate p (n + 1) m passes total).2.1
      ∧ (bptcIterate p (n + 1) m passes total).2.1 ≤ passes + (n + 1) := by
  induction n generalizing m passes total with
  | zero =>
    rw [bptcIterate]
    split <;> simp [bptcIterate]
  | succ n ih =>
    rw [bptcIterate]
    split
    · simp
    · have := ih (bptcPass p m).1 (passes + 1) (total + (bptcPass p m).2)
      omega

/-! ## The encoded matrix -/

/-- The block before its permutation: scatter, row parity, column parity (R176). -/
def bptcMatrix (p : Params) (payload : Bits) : Bits :=
  encodeLines p.ham13Eq 9 (fun c r => bptcIndex r c) 15
    (encodeLines p.ham15Eq 11 bptcIndex 9 ((Bits.zeros 196).setMany (bptcDataPos.zip payload)))

theorem bptcEncode_eq (p : Params) (payload : Bits) : bptcEncode p payload = bptcPermute (bptcMatrix p payload) := rfl

theorem bptcPayloadIndex_bounds {i : Nat} (hi : i < 96) : 4 ≤ bptcPayloadIndex i ∧ bptcPayloadIndex i < 196 := by
  unfold bptcPayloadIndex
  split <;> omega

theorem bptcPayloadIndex_inj (i : Nat) (_ : i < 96) (j : Nat) (_ : j < 96)
    (h : bptcPayloadIndex i = bptcPayloadIndex j) : i = j := by
  unfold bptcPayloadIndex at h
  split at h <;> split at h <;> omega

/-- A payload bit lies in the data columns of the data rows. -/
theorem bptcPayloadIndex_eq {i : Nat} (hi : i < 96) : ∃ r < 9, ∃ c < 11, bptcPayloadIndex i = bptcIndex r c := by
  unfold bptcPayloadIndex bptcIndex
  split
  · exact ⟨0, by omega, i + 3, by omega, by omega⟩
  · exact ⟨(i - 8) / 11 + 1, by omega, (i - 8) % 11, by omega, by omega⟩

section
variable (p : Params) (payload : Bits)

@[simp] theorem length_bptcMatrix : (bptcMatrix p payload).length = 196 := by
  simp [bptcMatrix]

/-- The block BPTCE writes, deinterleaved. -/
theorem bptcBlock_bptcEncode : bptcBlock (bptcEncode p payload) = bptcMatrix p payload := by
  rw [bptcEncode_eq, bptcBlock_bptcPermute (length_bptcMatrix ..)]

/-- The parities leave the data part of the matrix, and `m[0]`, as the scatter set them. -/
theorem get_bptcMatrix {a : Nat} (hrow : ∀ r < 9, ∀ j < 4, bptcIndex r (11 + j) ≠ a)
    (hcol : ∀ c < 15, ∀ j < 4, bptcIndex (9 + j) c ≠ a) :
    (bptcMatrix p payload).get a = ((Bits.zeros 196).setMany (bptcDataPos.zip payload)).get a := by
  rw [bptcMatrix, get_encodeLines_ne hcol, get_encodeLines_ne hrow]

theorem get_bptcMatrix_payload (hlen : payload.length = 96) {i : Nat} (hi : i < 96) :
    (bptcMatrix p payload).get (bptcPayloadIndex i) = payload.get i := by
  obtain ⟨r, hr, c, hc, hidx⟩ := bptcPayloadIndex_eq hi
  rw [get_bptcMatrix, bptcDataPos_eq,
    Bits.get_scatter bptcPayloadIndex_inj hlen hi (by simpa using (bptcPayloadIndex_bounds hi).2)]
  · intro r' hr' j hj
    simp only [hidx, bptcIndex]
    omega
  · intro c' hc' j hj
    simp only [hidx, bptcIndex]
    omega

/-- `m[0]` and the reserved bits `m[1..3]` are 0 (R172, R174). -/
theorem get_bptcMatrix_reserved {a : Nat} (ha : a < 4) : (bptcMatrix p payload).get a = false := by
  rw [get_bptcMatrix, bptcDataPos_eq, Bits.get_scatter_ne, Bits.get_zeros]
  · intro i hi
    have := bptcPayloadIndex_bounds hi
    omega
  · intro r hr j hj
    rw [bptcIndex]
    omega
  · intro c hc j hj
    rw [bptcIndex]
    omega

variable {p}

/-- The columns are codewords by the last step of the encoder, and the data rows because that step does not touch
them. -/
theorem bptcMatrix_clean (hp : p.wf = true) : BptcClean p (bptcMatrix p payload) where
  length := length_bptcMatrix ..
  cols c hc := lineSyndrome_encodeLines (by simpa using linesApart_cols) (p.wf_ham hp).2 hc
  rows r hr := by
    have hkept : bptcRowSyndrome p (bptcMatrix p payload) r = lineSyndrome p.ham15Eq 11 (bptcIndex r)
        (encodeLines p.ham15Eq 11 bptcIndex 9 ((Bits.zeros 196).setMany (bptcDataPos.zip payload))) := by
      refine lineSyndrome_congr fun i hi => get_encodeLines_ne fun c hc j hj => ?_
      simp only [bptcIndex]
      omega
    rw [hkept]
    exact lineSyndrome_encodeLines (by simpa using linesApart_rows) (p.wf_ham hp).1 hr

end

/-! ## The commands -/

/-- BPTCE stores the block. -/
theorem exec_bptce_done {s : State} {dst src : BitVec 16} (hsrc : src.toNat + 96 ≤ s.par.dmemBits)
    (hdst : dst.toNat + 196 ≤ s.par.dmemBits) :
    ∃ t : State, exec (.bptce dst src) s = .next t
      ∧ CodecDone s t dst.toNat (bptcEncode s.par (s.dmem.readBits src.toNat 96)) { valid := true } 0 0 := by
  obtain ⟨t, ht, hdone⟩ := blockCommand_done (op := .bptce) (rule := ruleBptce) rfl rfl rfl hsrc hdst
  exact ⟨t, ht, hdone rfl⟩

/-- What BPTCD stores and reports, from the matrix its passes end at. -/
theorem exec_bptcd_done {s : State} {dst src : BitVec 16} {m : Bits} {passes total : Nat}
    (hsrc : src.toNat + 196 ≤ s.par.dmemBits) (hdst : dst.toNat + 96 ≤ s.par.dmemBits)
    (hm : bptcIterate s.par 5 (bptcBlock (s.dmem.readBits src.toNat 196)) 0 0 = (m, passes, total)) :
    ∃ t : State, exec (.bptcd dst src) s = .next t
      ∧ CodecDone s t dst.toNat ((List.range 96).map fun i => m.get (bptcPayloadIndex i))
        { valid := bptcBad s.par m == 0, err := if bptcBad s.par m = 0 then .none else .fecUncorr, corr := sat8 total }
        (BitVec.ofNat 32 passes) (BitVec.ofNat 32 (bptcBad s.par m)) := by
  obtain ⟨t, ht, hdone⟩ := blockCommand_done (op := .bptcd) (rule := ruleBptcd) rfl rfl rfl hsrc hdst
  have hrule : ruleBptcd s.par (s.par.descFor 0) s.dmem ⟨0, 0, dst.toNat, src.toNat⟩
      = { addr := dst.toNat, bits := bptcDataPos.map m.get
          res := BitVec.ofNat 32 passes, res2 := BitVec.ofNat 32 (bptcBad s.par m)
          valid := bptcBad s.par m == 0, err := if bptcBad s.par m = 0 then .none else .fecUncorr
          corr := sat8 total } := by
    have hm' : bptcIterate s.par bptcPasses (bptcUnpermute (s.dmem.readBits src.toNat bptcN)) 0 0
        = (m, passes, total) := hm
    simp only [ruleBptcd, hm']
  have hbits : bptcDataPos.map m.get = (List.range 96).map fun i => m.get (bptcPayloadIndex i) := by
    rw [bptcDataPos_eq, List.map_map]
    rfl
  exact ⟨t, ht, hbits ▸ hdone hrule⟩

/-- Settles O32: the encoded matrix is one of codewords with the payload in its places (`bptcMatrix_clean`,
`get_bptcMatrix_payload`), and BPTCD reads off the matrix its passes end at. -/
theorem bptcCommandsComplete : Obligations.BptcCommandsComplete := by
  intro s dst src
  refine ⟨fun hsrc hdst => ?encode, fun hsrc hdst => ?decode⟩
  case encode =>
    obtain ⟨t, ht, hdone⟩ := exec_bptce_done hsrc hdst
    have hclean := bptcMatrix_clean (s.dmem.readBits src.toNat 96) s.cfg.wf
    refine ⟨t, _, _, ht, rfl, length_bptcEncode .., rfl, hdone, fun a ha => ?bits, ?matrix⟩
    case bits =>
      have hin : a * 181 % 196 < 196 := Nat.mod_lt _ (by omega)
      rw [hdone.stored.bit_inside (by rwa [length_bptcEncode]), get_bptcBlock _ ha]
    case matrix =>
      rw [bptcBlock_bptcEncode]
      refine ⟨fun i hi => ?_, fun a => get_bptcMatrix_reserved _ _, hclean.cols, fun r => hclean.checkRows s.cfg.wf⟩
      rw [get_bptcMatrix_payload _ _ (by simp) hi, Memory.get_readBits _ _ _ _ hi]
  case decode =>
    obtain ⟨⟨m, passes, total⟩, hm⟩ :
        ∃ y, bptcIterate s.par 5 (bptcBlock (s.dmem.readBits src.toNat 196)) 0 0 = y := ⟨_, rfl⟩
    obtain ⟨hlo, hhi⟩ := bptcIterate_passes s.par 4 (bptcBlock (s.dmem.readBits src.toNat 196)) 0 0
    rw [hm] at hlo hhi
    obtain ⟨t, ht, hdone⟩ := exec_bptcd_done hsrc hdst hm
    exact ⟨t, m, passes, total, _, ht, hm, rfl, by simpa using hlo, by simpa using hhi, hdone⟩

/-! ## The round trip -/

/-- A field read after one of its bits was inverted. -/
theorem Memory.readBits_flipBit (m : Memory) (a n k : Nat) :
    (m.flipBit (a + k)).readBits a n = (m.readBits a n).flip k := by
  refine Bits.ext_get (by simp) fun i hi => ?_
  rw [Memory.length_readBits] at hi
  rw [Memory.get_readBits _ _ _ _ hi]
  by_cases hik : k = i
  · subst hik
    rw [Bits.get_flip_same (by simpa using hi), Memory.get_readBits _ _ _ _ hi, Memory.flipBit, Memory.bit_setBit_same]
  · rw [Bits.get_flip_ne _ hik, Memory.get_readBits _ _ _ _ hi, Memory.bit_flipBit_ne _ (by omega)]

/-- BPTCD returns the payload when its passes end at a matrix of codewords with the payload in its places. -/
theorem exec_bptcd_payload {s : State} {dst src : BitVec 16} {m payload : Bits} {passes total : Nat}
    (hsrc : src.toNat + 196 ≤ s.par.dmemBits) (hdst : dst.toNat + 96 ≤ s.par.dmemBits)
    (hm : bptcIterate s.par 5 (bptcBlock (s.dmem.readBits src.toNat 196)) 0 0 = (m, passes, total))
    (hclean : BptcClean s.par m) (hlen : payload.length = 96)
    (hpay : ∀ i < 96, m.get (bptcPayloadIndex i) = payload.get i) :
    ∃ u : State, exec (.bptcd dst src) s = .next u ∧ u.status.valid = true
      ∧ u.dmem.readBits dst.toNat 96 = payload := by
  obtain ⟨u, hu, hdone⟩ := exec_bptcd_done hsrc hdst hm
  refine ⟨u, hu, ?_, ?_⟩
  · rw [hdone.status, hclean.bad]
    rfl
  · rw [hdone.readBits (by simp)]
    refine Bits.ext_get (by simp [hlen]) fun i hi => ?_
    have hi' : i < 96 := by simpa using hi
    rw [Bits.get_map_range _ hi', hpay i hi']

/-- Settles O33: the block read back is the encoded matrix, or that matrix with one error
(`BptcClean.iterate_flip`). -/
theorem bptcRoundTrip : Obligations.BptcRoundTrip := by
  intro s t mid dst src hsrc hmid hdst ht
  obtain ⟨t', ht', hdone⟩ := exec_bptce_done hsrc hmid
  obtain rfl : t = t' := Host.Outcome.next.inj (ht.symm.trans ht')
  have hpar : t.par = s.par := congrArg Setup.params hdone.port.cfg
  obtain ⟨payload, hpayload⟩ : ∃ v, s.dmem.readBits src.toNat 96 = v := ⟨_, rfl⟩
  have hlen : payload.length = 96 := by simp [← hpayload]
  have hread := hdone.readBits (length_bptcEncode ..)
  rw [hpayload, ← hpar] at hread
  rw [← hpar] at hmid hdst
  rw [hpayload]
  have hclean := bptcMatrix_clean payload t.cfg.wf
  refine ⟨?clean, fun k hk => ?flipped⟩
  case clean =>
    have hm : bptcIterate t.par 5 (bptcBlock (t.dmem.readBits mid.toNat 196)) 0 0
        = (bptcMatrix t.par payload, 1, 0) := by
      rw [hread, bptcBlock_bptcEncode, hclean.iterate]
    exact exec_bptcd_payload hmid hdst hm hclean hlen fun i => get_bptcMatrix_payload _ _ hlen
  case flipped =>
    obtain ⟨m, passes, total, hm, hclean', hsame⟩ := hclean.iterate_flip t.cfg.wf (Nat.mod_lt (k * 13) (by omega))
    have hm' : bptcIterate t.par 5 (bptcBlock ((t.flipBit (mid.toNat + k)).dmem.readBits mid.toNat 196)) 0 0
        = (m, passes, total) := by
      rw [State.flipBit_dmem, Memory.readBits_flipBit, hread, bptcBlock_flip (length_bptcEncode ..) hk,
        bptcBlock_bptcEncode, hm]
    refine exec_bptcd_payload (s := t.flipBit (mid.toNat + k)) hmid hdst hm' hclean' hlen fun i hi => ?_
    have hpos := (bptcPayloadIndex_bounds hi).1
    rw [hsame _ (by omega), get_bptcMatrix_payload _ _ hlen hi]

end Sys2Proof.Machine
end

section
/-! The convolutional encoder (44_convolutional.md R185 to R188): its state holds the last four inputs, its output bits are
the taps' parities, and with the current input in a tap different inputs have different outputs. -/

namespace Sys2Proof

theorem Params.wf_convTaps {p : Params} (h : p.wf = true) : p.convG1.getLsbD 4 = true ∧ p.convG2.getLsbD 4 = true := by
  simp only [Params.wf, Bool.and_eq_true] at h
  obtain ⟨⟨⟨⟨_, hg1⟩, hg2⟩, _⟩, _⟩ := h
  exact ⟨hg1, hg2⟩

/-- The parity of a vector is that of its weight. -/
theorem Bits.parity_eq_count (v : Bits) : v.parity = (v.count true % 2 == 1) := by
  induction v with
  | nil => rfl
  | cons b r ih =>
    rw [Bits.parity_cons, ih]
    rcases Nat.mod_two_eq_zero_or_one (List.count true r) with h | h <;> cases b <;> simp [h, Nat.add_mod]

namespace Machine

/-! ## The register and the state -/

/-- The state is the low four bits of the register (44_convolutional.md R185). -/
theorem testBit_convReg (st : Nat) (d : Bool) {k : Nat} (hk : k < 4) : (convReg st d).testBit k = st.testBit k := by
  rw [convReg, Nat.testBit_or, Nat.testBit_shiftLeft, decide_eq_false (by omega), Bool.false_and, Bool.false_or]

section
variable {st : Nat} (hst : st < 16) (d : Bool)
include hst

/-- The current input is bit 4 of the register. -/
theorem testBit_four_convReg : (convReg st d).testBit 4 = d := by
  have htop : st.testBit 4 = false := Nat.testBit_lt_two_pow hst
  rw [convReg, Nat.testBit_or, htop]
  cases d <;> rfl

theorem convNext_lt : convNext st d < 16 := by
  have hreg : convReg st d < 2 ^ 5 :=
    Nat.or_lt_two_pow (by cases d <;> decide) (hst.trans (by decide))
  rw [convNext, Nat.shiftRight_eq_div_pow]
  omega

/-- Bit 3 of the next state is the input, and bit `3 - j` of the state moves to `3 - (j + 1)`. -/
theorem testBit_convNext {j : Nat} (hj : j < 4) :
    (convNext st d).testBit (3 - j) = if j = 0 then d else st.testBit (3 - (j - 1)) := by
  rw [convNext, Nat.testBit_shiftRight]
  split
  · next h => rw [h, testBit_four_convReg hst]
  · rw [testBit_convReg st d (by omega)]
    congr 1
    omega

end

@[simp] theorem convFinal_nil (st : Nat) : convFinal st [] = st := rfl

theorem convFinal_cons (st : Nat) (d : Bool) (v : Bits) : convFinal st (d :: v) = convFinal (convNext st d) v := rfl

theorem convFinal_append_singleton (st : Nat) (v : Bits) (d : Bool) :
    convFinal st (v ++ [d]) = convNext (convFinal st v) d := by
  simp [convFinal]

theorem convFinal_lt (v : Bits) : convFinal 0 v < 16 := by
  induction v using List.reverseRecOn with
  | nil => decide
  | append_singleton v d ih =>
    rw [convFinal_append_singleton]
    exact convNext_lt ih d

/-- The state holds the last four inputs, the most recent in bit 3, with zeros before the first (44_convolutional.md
R185). -/
theorem testBit_convFinal (v : Bits) {j : Nat} (hj : j < 4) :
    (convFinal 0 v).testBit (3 - j) = (decide (j < v.length) && v.get (v.length - 1 - j)) := by
  induction v using List.reverseRecOn generalizing j with
  | nil => simp
  | append_singleton v d ih =>
    rw [convFinal_append_singleton, testBit_convNext (convFinal_lt v) d hj, List.length_append, List.length_singleton]
    cases j with
    | zero => simp [Bits.get]
    | succ j =>
      rw [if_neg j.succ_ne_zero, Nat.add_sub_cancel, ih (by omega)]
      by_cases hlt : j < v.length
      · have hidx : v.length + 1 - 1 - (j + 1) = v.length - 1 - j := by omega
        rw [hidx, Bits.get_append_left _ (by omega)]
        simp [hlt]
      · simp [hlt]

/-- The register of step `i` holds the inputs `i` to `i - 4` (44_convolutional.md R185). -/
theorem testBit_convReg_step {v : Bits} {i j : Nat} (hi : i < v.length) (hj : j < 5) :
    (convReg (convFinal 0 (v.take i)) (v.get i)).testBit (4 - j) = (decide (j ≤ i) && v.get (i - j)) := by
  have hlen : (v.take i).length = i := List.length_take_of_le hi.le
  cases j with
  | zero => simpa using testBit_four_convReg (convFinal_lt _) _
  | succ j =>
    have hidx : 4 - (j + 1) = 3 - j := by omega
    rw [hidx, testBit_convReg _ _ (by omega), testBit_convFinal _ (by omega), hlen]
    by_cases hlt : j < i
    · rw [Bits.get_take _ (by omega), Nat.sub_sub, Nat.add_comm 1]
      rfl
    · simp [hlt]

/-! ## The taps -/

/-- The output of a tap mask is the parity of the register bits it names (44_convolutional.md R186). -/
theorem convTap_eq_parity (g : BitVec 5) (reg : Nat) :
    convTap g reg = Bits.parity ((List.range 5).map fun j => g.getLsbD (4 - j) && reg.testBit (4 - j)) := by
  have hbits : Bits.ofNat 5 (reg &&& g.toNat)
      = (List.range 5).map fun j => g.getLsbD (4 - j) && reg.testBit (4 - j) :=
    List.map_congr_left fun j _ => by rw [Nat.testBit_and, Bool.and_comm]; rfl
  rw [← hbits, Bits.parity_eq_count, Bits.count_true_ofNat, convTap]

theorem tapOutput_eq_parity (g : BitVec 5) (v : Bits) (i : Nat) :
    tapOutput g v i
      = Bits.parity ((List.range 5).map fun j => g.getLsbD (4 - j) && (decide (j ≤ i) && v.get (i - j))) := by
  simp only [tapOutput, Bits.parity, List.foldl_map, Bool.and_assoc]

/-- The machine's output at step `i` is the one the claims write out. -/
theorem convTap_step (g : BitVec 5) {v : Bits} {i : Nat} (hi : i < v.length) :
    convTap g (convReg (convFinal 0 (v.take i)) (v.get i)) = tapOutput g v i := by
  rw [convTap_eq_parity, tapOutput_eq_parity]
  refine congrArg _ (List.map_congr_left fun j hj => ?_)
  rw [testBit_convReg_step hi (List.mem_range.mp hj)]

/-- A tap with the current input passes it on, whatever the state adds (44_convolutional.md R193). -/
theorem convTap_input {g : BitVec 5} (hg : g.getLsbD 4 = true) {st : Nat} (hst : st < 16) (d : Bool) :
    convTap g (convReg st d) = (d ^^ convTap g (convReg st false)) := by
  have hlow (b : Bool) := fun k (hk : k < 4) => testBit_convReg st b hk
  simp [convTap_eq_parity, List.range_succ, Bits.parity, testBit_four_convReg hst, hlow, hg]

/-! ## The output -/

/-- The encoder goes on from the state it reached. -/
theorem convEncode_append_singleton (p : Params) (st : Nat) (v : Bits) (d : Bool) :
    convEncode p st (v ++ [d]) = convEncode p st v
      ++ [convTap p.convG1 (convReg (convFinal st v) d), convTap p.convG2 (convReg (convFinal st v) d)] := by
  induction v generalizing st with
  | nil => rfl
  | cons b r ih => simp only [List.cons_append, convEncode, ih, convFinal_cons]

/-- Pair `i` of the output is that of step `i`. -/
theorem get_convEncode (p : Params) (st : Nat) {v : Bits} {i : Nat} (hi : i < v.length) :
    (convEncode p st v).get (2 * i) = convTap p.convG1 (convReg (convFinal st (v.take i)) (v.get i))
    ∧ (convEncode p st v).get (2 * i + 1) = convTap p.convG2 (convReg (convFinal st (v.take i)) (v.get i)) := by
  induction v generalizing st i with
  | nil => exact absurd hi (Nat.not_lt_zero i)
  | cons b r ih =>
    cases i with
    | zero => exact ⟨rfl, rfl⟩
    | succ i => exact ih (convNext st b) (Nat.lt_of_succ_lt_succ hi)

/-- Different inputs have different outputs: they first differ at a step from a common state, where the first output bits
differ (44_convolutional.md R193). -/
theorem convEncode_injective {p : Params} (hg : p.convG1.getLsbD 4 = true) {st : Nat} (hst : st < 16) {u v : Bits}
    (h : convEncode p st u = convEncode p st v) : u = v := by
  induction u generalizing st v with
  | nil =>
    cases v with
    | nil => rfl
    | cons e v => cases h
  | cons d u ih =>
    cases v with
    | nil => cases h
    | cons e v =>
      simp only [convEncode, List.cons.injEq] at h
      obtain ⟨hfirst, -, hrest⟩ := h
      rw [convTap_input hg hst d, convTap_input hg hst e, Bool.xor_left_inj] at hfirst
      subst hfirst
      rw [ih (convNext_lt hst d) hrest]

end Machine
end Sys2Proof
end

section
/-! The Viterbi decoder (44_convolutional.md R190, R191): after each received pair, every reachable state has the smallest
distance of the inputs that lead to it, and the chainback from it is such an input. -/

namespace Sys2Proof.Machine

/-! ## Distances -/

/-- The number of bits of `rx` that differ from the encoding of `v` (44_convolutional.md R190). -/
def convDistance (p : Params) (v rx : Bits) : Nat :=
  (List.zipWith xor (convEncode p 0 v) rx).count true

/-- The branch metric of input `d` from state `st` (44_convolutional.md R190). -/
def branchMetric (p : Params) (r0 r1 : Bool) (st : Nat) (d : Bool) : Nat :=
  (convTap p.convG1 (convReg st d) ^^ r0).toNat + (convTap p.convG2 (convReg st d) ^^ r1).toNat

theorem convDistance_append (p : Params) {v rx : Bits} (h : 2 * v.length = rx.length) (d r0 r1 : Bool) :
    convDistance p (v ++ [d]) (rx ++ [r0, r1]) = convDistance p v rx + branchMetric p r0 r1 (convFinal 0 v) d := by
  have hpair : ∀ x y : Bool, [x, y].count true = x.toNat + y.toNat := by decide
  rw [convDistance, convEncode_append_singleton, List.zipWith_append (by rwa [length_convEncode]), List.count_append]
  exact congrArg _ (hpair _ _)

theorem convDistance_le (p : Params) (v rx : Bits) : convDistance p v rx ≤ rx.length :=
  List.count_le_length.trans (by simp)

/-- The transmitted input is at distance 0. -/
theorem convDistance_self (p : Params) (v : Bits) : convDistance p v (convEncode p 0 v) = 0 := by
  simp [convDistance, List.zipWith_self, List.count_eq_zero]

/-- Only the transmitted input is at distance 0 (44_convolutional.md R193). -/
theorem eq_of_convDistance_eq_zero {p : Params} (hg : p.convG1.getLsbD 4 = true) {u v : Bits}
    (hlen : u.length = v.length) (h : convDistance p u (convEncode p 0 v) = 0) : u = v := by
  have henc : (convEncode p 0 u).length = (convEncode p 0 v).length := by simp [hlen]
  refine convEncode_injective hg (by decide) (List.ext_getElem henc fun i hu hv => ?_)
  have hne : true ≠ ((convEncode p 0 u)[i] ^^ (convEncode p 0 v)[i]) := fun ht =>
    List.count_eq_zero.mp h (List.mem_iff_getElem.mpr ⟨i, by simpa [hlen] using hv, by simpa using ht.symm⟩)
  simpa using hne

/-! ## The trellis -/

/-- A predecessor of a state leads into it with the state's input bit (44_convolutional.md R191). -/
theorem convNext_vitPred : ∀ st < 16, ∀ b < 2, convNext (vitPred st b) (vitInput st) = st := by decide

/-- A step from a state leads to one that has it as a predecessor and the input of the step as its input bit. -/
theorem exists_vitPred_convNext : ∀ st < 16, ∀ d : Bool,
    vitInput (convNext st d) = d ∧ ∃ b < 2, vitPred (convNext st d) b = st := by decide

/-! ## One state -/

section
variable (p : Params) (pm : Metrics) (r0 r1 : Bool)

/-- A path reaches a state through a predecessor by one branch. -/
theorem vitCandidate_eq_some {st b x : Nat} :
    vitCandidate p pm r0 r1 st b = some x ↔
      ∃ y, pm[vitPred st b]? = some (some y) ∧ y + branchMetric p r0 r1 (vitPred st b) (vitInput st) = x := by
  simp [vitCandidate, branchMetric, List.getD_eq_getElem?_getD, Option.getD_eq_iff, Nat.add_assoc]

/-- The selected metric is the candidate of the selected predecessor. -/
theorem exists_vitSelect_eq (st : Nat) :
    ∃ b < 2, vitSelect p pm r0 r1 st = (vitCandidate p pm r0 r1 st b, vitPred st b) := by
  unfold vitSelect
  split
  · next x y h0 h1 =>
    split
    · exact ⟨1, by decide, by rw [h1]⟩
    · exact ⟨0, by decide, by rw [h0]⟩
  · next y h0 h1 => exact ⟨1, by decide, by rw [h1]⟩
  · next h1 => exact ⟨0, by decide, rfl⟩

/-- No candidate is better than the selected metric. -/
theorem vitSelect_le {st b y : Nat} (hb : b < 2) (h : vitCandidate p pm r0 r1 st b = some y) :
    ∃ x, (vitSelect p pm r0 r1 st).1 = some x ∧ x ≤ y := by
  unfold vitSelect
  interval_cases b <;> rw [h] <;> grind

end

/-! ## The chainback -/

theorem vitChain_append (st : Nat) (preds : List (List Nat)) (out : Bits) :
    vitChain st preds out = vitChain st preds [] ++ out := by
  induction preds generalizing st out with
  | nil => rfl
  | cons pr r ih => rw [vitChain, ih, vitChain, ih _ [vitInput st], List.append_assoc, List.singleton_append]

/-- The last decoded bit is the one that leads into the state; those before it come from the predecessor. -/
theorem vitChain_cons (st : Nat) (pr : List Nat) (preds : List (List Nat)) :
    vitChain st (pr :: preds) [] = vitChain (pr.getD st 0) preds [] ++ [vitInput st] := by
  rw [vitChain, vitChain_append]

/-! ## The forward recursion -/

/-- What the metrics and the predecessors say of the bits received so far: a state's metric is the distance of the
chainback from it, an input that leads to it, and no input that leads to it is at a smaller one. -/
structure Survivors (p : Params) (rx : Bits) (pm : Metrics) (preds : List (List Nat)) : Prop where
  states : pm.length = 16
  steps : 2 * preds.length = rx.length
  final : ∀ f x, pm[f]? = some (some x) → convFinal 0 (vitChain f preds []) = f
  metric : ∀ f x, pm[f]? = some (some x) → convDistance p (vitChain f preds []) rx = x
  best : ∀ v, 2 * v.length = rx.length → ∃ x, pm[convFinal 0 v]? = some (some x) ∧ x ≤ convDistance p v rx

/-- Before the first pair only state 0 is reached, by the empty input. -/
theorem survivors_start (p : Params) : Survivors p [] vitStart [] := by
  have hzero : ∀ f x, vitStart[f]? = some (some x) → f = 0 ∧ x = 0 := by
    intro f x h
    cases f with
    | zero => exact ⟨rfl, (Option.some.inj (Option.some.inj h)).symm⟩
    | succ f => exact absurd (List.eq_of_mem_replicate (List.mem_of_getElem? h)) (Option.some_ne_none x)
  refine ⟨rfl, rfl, fun f x h => (hzero f x h).1.symm, fun f x h => (hzero f x h).2.symm, fun v hv => ?_⟩
  obtain rfl : v = [] := List.length_eq_zero_iff.mp (by simpa using hv)
  exact ⟨0, rfl, Nat.zero_le _⟩

/-- The selections of the 16 states for one received pair: what a step of `vitForward` computes. -/
def vitStep (p : Params) (pm : Metrics) (r0 r1 : Bool) : List (Option Nat × Nat) :=
  (List.range 16).map (vitSelect p pm r0 r1)

theorem vitForward_cons (p : Params) (pm : Metrics) (preds : List (List Nat)) (r0 r1 : Bool) (r : Bits) :
    vitForward p pm preds (r0 :: r1 :: r)
      = vitForward p ((vitStep p pm r0 r1).map Prod.fst) ((vitStep p pm r0 r1).map Prod.snd :: preds) r := rfl

theorem getElem?_vitStep_fst (p : Params) (pm : Metrics) (r0 r1 : Bool) {f x : Nat} :
    ((vitStep p pm r0 r1).map Prod.fst)[f]? = some (some x) ↔ f < 16 ∧ (vitSelect p pm r0 r1 f).1 = some x := by
  simp [vitStep, List.getElem?_eq_some_iff]

theorem getD_vitStep_snd (p : Params) (pm : Metrics) (r0 r1 : Bool) {f : Nat} (hf : f < 16) :
    ((vitStep p pm r0 r1).map Prod.snd).getD f 0 = (vitSelect p pm r0 r1 f).2 := by
  simp [vitStep, hf]

/-- A state reached after the next pair: its chainback is that of a predecessor and one input, and its metric is the
predecessor's and that branch. -/
theorem exists_pred_of_vitStep {p : Params} {pm : Metrics} {r0 r1 : Bool} {preds : List (List Nat)} {f x : Nat}
    (h : ((vitStep p pm r0 r1).map Prod.fst)[f]? = some (some x)) :
    ∃ st y, pm[st]? = some (some y) ∧ convNext st (vitInput f) = f ∧ y + branchMetric p r0 r1 st (vitInput f) = x
      ∧ vitChain f ((vitStep p pm r0 r1).map Prod.snd :: preds) [] = vitChain st preds [] ++ [vitInput f] := by
  obtain ⟨hf, hsel⟩ := (getElem?_vitStep_fst ..).mp h
  obtain ⟨b, hb, hselect⟩ := exists_vitSelect_eq p pm r0 r1 f
  rw [hselect] at hsel
  obtain ⟨y, hy, hx⟩ := (vitCandidate_eq_some ..).mp hsel
  refine ⟨vitPred f b, y, hy, convNext_vitPred f hf b hb, hx, ?_⟩
  rw [vitChain_cons, getD_vitStep_snd p pm r0 r1 hf, hselect]

/-- A step keeps the survivors: the two predecessors of a state are all the states that lead to it. -/
theorem Survivors.step {p : Params} {rx : Bits} {pm : Metrics} {preds : List (List Nat)} (h : Survivors p rx pm preds)
    (r0 r1 : Bool) :
    Survivors p (rx ++ [r0, r1]) ((vitStep p pm r0 r1).map Prod.fst) ((vitStep p pm r0 r1).map Prod.snd :: preds) := by
  have hsteps := h.steps
  refine ⟨by simp [vitStep], ?steps, fun f x hf => ?final, fun f x hf => ?metric, fun v hv => ?best⟩
  case steps =>
    simp only [List.length_cons, List.length_append, List.length_nil]
    omega
  case final =>
    obtain ⟨st, y, hy, hnext, -, hchain⟩ := exists_pred_of_vitStep (preds := preds) hf
    rw [hchain, convFinal_append_singleton, h.final st y hy, hnext]
  case metric =>
    obtain ⟨st, y, hy, -, hsum, hchain⟩ := exists_pred_of_vitStep (preds := preds) hf
    rw [hchain, convDistance_append p (by simpa using hsteps), h.metric st y hy, h.final st y hy, hsum]
  case best =>
    obtain rfl | ⟨u, d, rfl⟩ := v.eq_nil_or_concat'
    · simp at hv
    have hu : 2 * u.length = rx.length := by
      simp only [List.length_append, List.length_cons, List.length_nil] at hv
      omega
    obtain ⟨y, hy, hle⟩ := h.best u hu
    obtain ⟨hinput, b, hb, hpred⟩ := exists_vitPred_convNext _ (convFinal_lt u) d
    have hcand : vitCandidate p pm r0 r1 (convNext (convFinal 0 u) d) b
        = some (y + branchMetric p r0 r1 (convFinal 0 u) d) :=
      (vitCandidate_eq_some ..).mpr ⟨y, by rw [hpred, hy], by rw [hpred, hinput]⟩
    obtain ⟨x, hx, hxy⟩ := vitSelect_le p pm r0 r1 hb hcand
    refine ⟨x, ?_, ?_⟩
    · rw [convFinal_append_singleton, getElem?_vitStep_fst]
      exact ⟨convNext_lt (convFinal_lt u) d, hx⟩
    · rw [convDistance_append p hu]
      omega

/-- The recursion over the rest of the received pairs. -/
theorem Survivors.forward {p : Params} {done : Bits} {pm : Metrics} {preds : List (List Nat)} (rx : Bits)
    (h : Survivors p done pm preds) (heven : rx.length % 2 = 0) :
    Survivors p (done ++ rx) (vitForward p pm preds rx).1 (vitForward p pm preds rx).2 := by
  induction rx using List.twoStepInduction generalizing done pm preds with
  | nil => simpa [vitForward] using h
  | singleton r0 => simp at heven
  | cons_cons r0 r1 r ih _ =>
    rw [vitForward_cons, List.append_cons, List.append_cons, List.append_assoc done]
    exact ih (h.step r0 r1) (by simpa [Nat.add_assoc] using heven)

/-! ## The best final state -/

/-- The state and metric kept when state `st` is compared with the best so far: a tie keeps the lower state. -/
def vitBetter (pm : Metrics) (best : Nat × Option Nat) (st : Nat) : Nat × Option Nat :=
  match pm.getD st none, best.2 with
  | some x, some y => if x < y then (st, some x) else best
  | some x, none => (st, some x)
  | none, _ => best

theorem vitBest_eq (pm : Metrics) :
    vitBest pm = ((List.range 16).foldl (vitBetter pm) (0, none)).map id (·.getD 0) := rfl

/-- `best` is the lowest-numbered state of the smallest metric among the states below `n`, if one of them is reached. -/
structure BestBelow (pm : Metrics) (n : Nat) (best : Nat × Option Nat) : Prop where
  reached : ∀ x, best.2 = some x → best.1 < n ∧ pm[best.1]? = some (some x)
  least : ∀ f < n, ∀ y, pm[f]? = some (some y) → ∃ x, best.2 = some x ∧ (x < y ∨ (x = y ∧ best.1 ≤ f))

theorem getD_none_eq_some {pm : Metrics} {st x : Nat} : pm.getD st none = some x ↔ pm[st]? = some (some x) := by
  simp [List.getD_eq_getElem?_getD, Option.getD_eq_iff]

/-- State `n` becomes the best when its metric is below those of all states before it. -/
theorem bestBelow_succ_self {pm : Metrics} {n x : Nat} (hx : pm[n]? = some (some x))
    (hless : ∀ f < n, ∀ z, pm[f]? = some (some z) → x < z) : BestBelow pm (n + 1) (n, some x) where
  reached := fun _ hz => ⟨n.lt_succ_self, Option.some.inj hz ▸ hx⟩
  least := Nat.forall_lt_succ_right.mpr
    ⟨fun f hf z hz => ⟨x, rfl, .inl (hless f hf z hz)⟩, fun _ hz => ⟨x, rfl, .inr ⟨by simpa [hx] using hz, le_rfl⟩⟩⟩

/-- Comparing state `n` too. -/
theorem BestBelow.succ {pm : Metrics} {n : Nat} {best : Nat × Option Nat} (h : BestBelow pm n best) :
    BestBelow pm (n + 1) (vitBetter pm best n) := by
  obtain ⟨hreached, hleast⟩ := h
  have hkept : ∀ x, best.2 = some x → best.1 < n + 1 ∧ pm[best.1]? = some (some x) := fun x hx =>
    (hreached x hx).imp_left Nat.lt_succ_of_lt
  unfold vitBetter
  split
  · next x y hx hy =>
    rw [getD_none_eq_some] at hx
    split
    · next hlt =>
      refine bestBelow_succ_self hx fun f hf z hz => ?_
      have hyz : y < z ∨ (y = z ∧ best.1 ≤ f) := by simpa [hy] using hleast f hf z hz
      omega
    · next hge =>
      have hbest := (hreached y hy).1
      refine ⟨hkept, Nat.forall_lt_succ_right.mpr ⟨hleast, fun z hz => ⟨y, hy, ?_⟩⟩⟩
      obtain rfl : x = z := by simpa [hx] using hz
      omega
  · next x hx hnone =>
    exact bestBelow_succ_self (getD_none_eq_some.mp hx) fun f hf z hz => by simpa [hnone] using hleast f hf z hz
  · next hx =>
    refine ⟨hkept, Nat.forall_lt_succ_right.mpr ⟨hleast, fun z hz => ?_⟩⟩
    rw [getD_none_eq_some.mpr hz] at hx
    cases hx

theorem bestBelow_foldl (pm : Metrics) (n : Nat) : BestBelow pm n ((List.range n).foldl (vitBetter pm) (0, none)) := by
  induction n with
  | zero => exact ⟨fun x h => (nomatch h), fun f hf => absurd hf f.not_lt_zero⟩
  | succ n ih =>
    rw [List.range_succ, List.foldl_append]
    exact ih.succ

/-- The best final state of 16, of which one is reached: it has the smallest metric and the lowest number on a tie
(44_convolutional.md R191). -/
theorem vitBest_spec {pm : Metrics} (hlen : pm.length = 16) {f₀ x₀ : Nat} (h₀ : pm[f₀]? = some (some x₀)) :
    (vitBest pm).1 < 16 ∧ pm[(vitBest pm).1]? = some (some (vitBest pm).2)
      ∧ ∀ f x, pm[f]? = some (some x) → (vitBest pm).2 < x ∨ ((vitBest pm).2 = x ∧ (vitBest pm).1 ≤ f) := by
  have hlt {f x : Nat} (h : pm[f]? = some (some x)) : f < 16 := hlen ▸ (List.getElem?_eq_some_iff.mp h).1
  rw [vitBest_eq]
  obtain ⟨⟨f, m⟩, hbest⟩ : ∃ y, (List.range 16).foldl (vitBetter pm) (0, none) = y := ⟨_, rfl⟩
  obtain ⟨hreached, hleast⟩ := hbest ▸ bestBelow_foldl pm 16
  obtain ⟨x, rfl, -⟩ := hleast f₀ (hlt h₀) x₀ h₀
  rw [hbest]
  refine ⟨(hreached x rfl).1, (hreached x rfl).2, fun g y hg => ?_⟩
  obtain ⟨x', hx', hor⟩ := hleast g (hlt hg) y hg
  obtain rfl : x = x' := Option.some.inj hx'
  exact hor

/-! ## The decoder -/

/-- `out` is an input whose encoding differs from the received bits in the fewest places, and `metric` is their number
(44_convolutional.md R191). -/
structure Decoded (p : Params) (rx out : Bits) (metric : Nat) : Prop where
  length : 2 * out.length = rx.length
  distance : convDistance p out rx = metric
  minimal : ∀ v, 2 * v.length = rx.length → metric ≤ convDistance p v rx

section
variable (p : Params) {rx : Bits} (heven : rx.length % 2 = 0)
include heven

theorem vitForward_survivors :
    Survivors p rx (vitForward p vitStart [] rx).1 (vitForward p vitStart [] rx).2 :=
  (survivors_start p).forward rx heven

/-- Some final state is reached: the one of the all-zero input. -/
theorem exists_vitForward_reached : ∃ f x : Nat, (vitForward p vitStart [] rx).1[f]? = some (some x) := by
  obtain ⟨x, hx, -⟩ := (vitForward_survivors p heven).best (Bits.zeros (rx.length / 2)) (by rw [Bits.length_zeros]; omega)
  exact ⟨_, x, hx⟩

/-- The chainback from the best final state is a maximum-likelihood input and the metric its distance
(44_convolutional.md R191). -/
theorem vitForward_decoded :
    Decoded p rx (vitChain (vitBest (vitForward p vitStart [] rx).1).1 (vitForward p vitStart [] rx).2 [])
      (vitBest (vitForward p vitStart [] rx).1).2 := by
  have hsurv := vitForward_survivors p heven
  obtain ⟨f₀, x₀, h₀⟩ := exists_vitForward_reached p heven
  obtain ⟨-, hbest, hleast⟩ := vitBest_spec hsurv.states h₀
  refine ⟨by simpa using hsurv.steps, hsurv.metric _ _ hbest, fun v hv => ?_⟩
  obtain ⟨y, hy, hle⟩ := hsurv.best v hv
  have := hleast _ _ hy
  omega

end

/-! ## The commands -/

theorem exec_conve_done {s : State} {len dst src : BitVec 16} (heven : len.toNat % 2 = 0) (hlen : 2 ≤ len.toNat)
    (hmax : len.toNat ≤ 2 * s.par.vitMax) (hsrc : src.toNat + len.toNat / 2 ≤ s.par.dmemBits)
    (hdst : dst.toNat + len.toNat ≤ s.par.dmemBits) :
    ∃ t : State, exec (.conve len dst src) s = .next t
      ∧ CodecDone s t dst.toNat (convEncode s.par 0 (s.dmem.readBits src.toNat (len.toNat / 2))) { valid := true }
        (BitVec.ofNat 32 (convFinal 0 (s.dmem.readBits src.toNat (len.toNat / 2)))) 0 :=
  codecCommand_done (op := .conve) (rule := ruleConve) rfl rfl (decide_eq_true ⟨heven, hlen, hmax⟩) hsrc hdst rfl

theorem exec_vitd_done {s : State} {len dst src : BitVec 16} {y : Metrics × List (List Nat)} (hlen : 1 ≤ len.toNat)
    (hmax : len.toNat ≤ s.par.vitMax) (hsrc : src.toNat + 2 * len.toNat ≤ s.par.dmemBits)
    (hdst : dst.toNat + len.toNat ≤ s.par.dmemBits)
    (hy : vitForward s.par vitStart [] (s.dmem.readBits src.toNat (2 * len.toNat)) = y) :
    ∃ t : State, exec (.vitd len dst src) s = .next t
      ∧ CodecDone s t dst.toNat (vitChain (vitBest y.1).1 y.2 []) { valid := true, corr := sat8 (vitBest y.1).2 }
        (BitVec.ofNat 32 (vitBest y.1).2) (BitVec.ofNat 32 (vitBest y.1).1) := by
  subst hy
  exact codecCommand_done (op := .vitd) (rule := ruleVitd) rfl rfl (decide_eq_true ⟨hlen, hmax⟩) hsrc hdst rfl

/-- VITD stores a maximum-likelihood input for the received bits and reports its distance. -/
theorem exec_vitd_decoded {s : State} {len dst src : BitVec 16} (hlen : 1 ≤ len.toNat) (hmax : len.toNat ≤ s.par.vitMax)
    (hsrc : src.toNat + 2 * len.toNat ≤ s.par.dmemBits) (hdst : dst.toNat + len.toNat ≤ s.par.dmemBits) :
    ∃ (t : State) (metric : Nat), exec (.vitd len dst src) s = .next t
      ∧ Decoded s.par (s.dmem.readBits src.toNat (2 * len.toNat)) (t.dmem.readBits dst.toNat len.toNat) metric
      ∧ t.res.toNat = metric ∧ t.status = { valid := true, corr := sat8 metric } := by
  obtain ⟨rx, hrx⟩ : ∃ v, s.dmem.readBits src.toNat (2 * len.toNat) = v := ⟨_, rfl⟩
  have hrxlen : rx.length = 2 * len.toNat := by simp [← hrx]
  obtain ⟨t, ht, hdone⟩ := exec_vitd_done hlen hmax hsrc hdst rfl
  rw [hrx] at hdone ⊢
  have hdec := vitForward_decoded s.par (rx := rx) (by omega)
  have hread := hdone.readBits (n := len.toNat) (by have := hdec.length; omega)
  refine ⟨t, _, ht, hread ▸ hdec, ?_, hdone.status⟩
  have hsmall := hdec.distance.symm.trans_le (convDistance_le ..)
  rw [hdone.res, BitVec.toNat_ofNat, Nat.mod_eq_of_lt]
  have := len.isLt
  omega

/-! ## The statements -/

/-- Settles O34: the pairs and the final state are those of the steps (`get_convEncode`, `testBit_convFinal`), and VITD
reads off the final metrics and predecessors, of which `vitBest_spec` gives the best. -/
theorem convolutionalCommandsComplete : Obligations.ConvolutionalCommandsComplete := by
  intro s len dst src
  refine ⟨fun heven hlen hmax hsrc hdst => ?conve, fun hlen hmax hsrc hdst => ?vitd⟩
  case conve =>
    obtain ⟨t, ht, hdone⟩ := exec_conve_done heven hlen hmax hsrc hdst
    refine ⟨t, _, _, _, ht, rfl, rfl, ?length, fun i hi => ?pairs, convFinal_lt _, fun j => testBit_convFinal _, hdone⟩
    case length =>
      rw [length_convEncode, Memory.length_readBits]
      omega
    case pairs =>
      have hi' : i < (s.dmem.readBits src.toNat (len.toNat / 2)).length := by simpa using hi
      rw [← convTap_step _ hi', ← convTap_step _ hi']
      exact get_convEncode s.par 0 hi'
  case vitd =>
    obtain ⟨⟨pm, preds⟩, hpm⟩ :
        ∃ y, vitForward s.par vitStart [] (s.dmem.readBits src.toNat (2 * len.toNat)) = y := ⟨_, rfl⟩
    have heven : (s.dmem.readBits src.toNat (2 * len.toNat)).length % 2 = 0 := by simp
    obtain ⟨f₀, x₀, h₀⟩ := exists_vitForward_reached s.par heven
    have hsurv := vitForward_survivors s.par heven
    rw [hpm] at h₀ hsurv
    obtain ⟨hlt, hmetric, hleast⟩ := vitBest_spec hsurv.states h₀
    obtain ⟨t, ht, hdone⟩ := exec_vitd_done hlen hmax hsrc hdst hpm
    refine ⟨t, pm, preds, ht, hpm, ?_, hlt, hmetric, hleast, hdone⟩
    simpa using hsurv.steps

/-- Settles O36: `exec_vitd_decoded`, with the distance written out. -/
theorem viterbiIsMaximumLikelihood : Obligations.ViterbiIsMaximumLikelihood := by
  intro s len dst src hlen hmax hsrc hdst rx differ
  obtain ⟨t, metric, ht, hdec, hres, -⟩ := exec_vitd_decoded hlen hmax hsrc hdst
  refine ⟨t, ht, hres.trans hdec.distance.symm, fun v hv => hres.trans_le (hdec.minimal v ?_)⟩
  simp [hv]

/-- Settles O35: the transmitted input is at distance 0, so the decoded one is too, and no other input is
(`eq_of_convDistance_eq_zero`). -/
theorem viterbiRoundTrip : Obligations.ViterbiRoundTrip := by
  intro s t len len2 mid dst src hlen hmax hlen2 hsrc hmid hdst ht
  have hhalf : len2.toNat / 2 = len.toNat := by omega
  obtain ⟨t', ht', hdone⟩ := exec_conve_done (s := s) (len := len2) (dst := mid) (src := src) (by omega) (by omega)
    (by omega) (by omega) (by omega)
  obtain rfl : t = t' := Host.Outcome.next.inj (ht.symm.trans ht')
  have hpar : t.par = s.par := congrArg Setup.params hdone.port.cfg
  rw [hhalf] at hdone
  have hread := hdone.readBits (n := 2 * len.toNat) (by simp)
  rw [← hpar] at hmax hmid hdst hread
  obtain ⟨u, metric, hu, hdec, hres, hstatus⟩ := exec_vitd_decoded hlen hmax hmid hdst
  rw [hread] at hdec
  obtain rfl : metric = 0 :=
    Nat.le_zero.mp ((hdec.minimal _ (length_convEncode ..).symm).trans_eq (convDistance_self ..))
  refine ⟨u, hu, BitVec.eq_of_toNat_eq hres, hstatus, ?_⟩
  exact eq_of_convDistance_eq_zero (t.par.wf_convTaps t.cfg.wf).1 (by simp) hdec.distance

end Sys2Proof.Machine
end

section
/-! The interleaver and the scrambler (45_interleave_scramble.md R200 to R206): a table of a well-formed ROM is a
permutation of the positions, and a whitening sequence is its bytes, most significant bit first. -/

namespace Sys2Proof

theorem Bits.get_ofByte (b : Byte) {i : Nat} (hi : i < 8) : (Bits.ofByte b).get i = b.getLsbD (7 - i) := by
  simp [Bits.ofByte, Bits.ofNat, Bits.get_map_range _ hi, BitVec.getLsbD]

/-! ## The tables -/

/-- An interleave table is a bijection (46_frame.md R218, condition 1). -/
theorem tableWf_perm {t : List Nat} (h : tableWf t = true) : t.Perm (List.range t.length) := by
  simp only [tableWf, Bool.and_eq_true, List.all_eq_true, decide_eq_true_eq] at h
  obtain ⟨⟨-, hlt⟩, hnodup⟩ := h
  have hsub : t ⊆ List.range t.length := fun j hj => List.mem_range.mpr (hlt j hj)
  exact (hnodup.subperm hsub).perm_of_length_le (by simp)

theorem Descriptor.wf_ilv {vitMax reasmMax : Nat} {d : Descriptor} (h : d.wf vitMax reasmMax = true) :
    d.ilv.all tableWf = true := by
  simp only [Descriptor.wf, Bool.and_eq_true] at h
  tauto

/-- A table of a slot of a well-formed parameter set is a bijection. -/
theorem Params.table_perm {p : Params} (h : p.wf = true) {sel : BitVec 4} {d : Descriptor} (hd : p.slot sel = some d)
    {k : Nat} {tab : List Nat} (htab : d.ilv[k]? = some tab) : tab.Perm (List.range tab.length) :=
  tableWf_perm (List.all_eq_true.mp (Descriptor.wf_ilv (p.slot_wf h hd)) tab (List.mem_of_getElem? htab))

namespace Machine

section
variable {t : List Nat} {v : Bits} (ht : t.Perm (List.range t.length))

/-- Output bit `i` of the deinterleaver is the bit at transmitted position `T[i]` (45_interleave_scramble.md R202). -/
theorem get_deinterleave {i j : Nat} (hij : t[i]? = some j) : (deinterleave t v).get i = v.get j := by
  simp [Bits.get, deinterleave, hij]

include ht

theorem lt_of_table {i j : Nat} (hij : t[i]? = some j) : j < t.length :=
  List.mem_range.mp (ht.mem_iff.mp (List.mem_of_getElem? hij))

/-- Every position is the place of some logical bit. -/
theorem exists_table_eq {j : Nat} (hj : j < t.length) : ∃ i : Nat, t[i]? = some j :=
  List.mem_iff_getElem?.mp (ht.mem_iff.mpr (List.mem_range.mpr hj))

variable (hv : v.length = t.length)
include hv

/-- The interleaver puts logical bit `i` at position `T[i]` (45_interleave_scramble.md R201): no other bit goes there. -/
theorem get_interleave {i j : Nat} (hij : t[i]? = some j) : (interleave t v).get j = v.get i := by
  obtain ⟨hi, rfl⟩ := List.getElem?_eq_some_iff.mp hij
  have hfst : (t.zip v).map Prod.fst = t := List.map_fst_zip hv.ge
  refine Bits.get_setMany_of_mem ?_ (List.mem_iff_getElem.mpr ⟨i, by simp [hv, hi], ?_⟩) ?_
  · rw [hfst]
    exact ht.nodup_iff.mpr List.nodup_range
  · simp [Bits.get, hv, hi]
  · simpa using lt_of_table ht hij

theorem deinterleave_interleave : deinterleave t (interleave t v) = v := by
  refine Bits.ext_get (by simp [hv]) fun i hi => ?_
  have hij := List.getElem?_eq_getElem (l := t) (i := i) (by simpa using hi)
  rw [get_deinterleave hij, get_interleave ht hv hij]

theorem interleave_deinterleave : interleave t (deinterleave t v) = v := by
  refine Bits.ext_get (by simp [hv]) fun j hj => ?_
  obtain ⟨i, hij⟩ := exists_table_eq ht (by simpa using hj)
  rw [get_interleave ht (by simp) hij, get_deinterleave hij]

end

/-! ## The whitening sequences -/

/-- Bit `i` of a sequence is in its byte `i / 8` (45_interleave_scramble.md R204). -/
theorem get_whitenBits {w : List Byte} {i : Nat} {b : Byte} (h : w[i / 8]? = some b) :
    (whitenBits w).get i = b.getLsbD (7 - i % 8) := by
  induction w generalizing i with
  | nil => simp at h
  | cons x r ih =>
    have hcons : whitenBits (x :: r) = Bits.ofByte x ++ whitenBits r := rfl
    rw [hcons]
    by_cases hi : i < 8
    · obtain rfl : x = b := by simpa [Nat.div_eq_of_lt hi] using h
      rw [Bits.get_append_left _ (by simpa using hi), Bits.get_ofByte _ hi, Nat.mod_eq_of_lt hi]
    · obtain ⟨k, rfl⟩ : ∃ k, i = (Bits.ofByte x).length + k := ⟨i - 8, by simp; omega⟩
      rw [Bits.get_append_right]
      simp only [Bits.length_ofByte, Nat.add_mod_left] at h ⊢
      exact ih (by simpa [Nat.add_div_left] using h)

/-- The scrambler adds the sequence bit by bit from its first bit (45_interleave_scramble.md R205). -/
theorem get_scramble {w : List Byte} {v : Bits} {i : Nat} (hi : i < v.length) (hw : i < 8 * w.length) :
    (scramble w v).get i = (v.get i ^^ (whitenBits w).get i) := by
  simp [Bits.get, scramble, hi, hw]

/-- A sequence long enough for a field keeps its length. -/
theorem length_scramble_readBits {w : List Byte} {n : Nat} (h : n ≤ 8 * w.length) (m : Memory) (a : Nat) :
    (scramble w (m.readBits a n)).length = n := by
  rw [length_scramble _ _ (by simpa using h), Memory.length_readBits]

/-- The sequence added twice cancels (45_interleave_scramble.md R206). -/
theorem scramble_scramble {w : List Byte} {v : Bits} (h : v.length ≤ 8 * w.length) : scramble w (scramble w v) = v := by
  have hlen := length_scramble w v h
  refine Bits.ext_get ((length_scramble _ _ (hlen ▸ h)).trans hlen) fun i hi => ?_
  rw [length_scramble _ _ (hlen ▸ h)] at hi
  have hv : i < v.length := hlen ▸ hi
  rw [get_scramble hi (by omega), get_scramble hv (by omega), Bool.xor_assoc, Bool.xor_self, Bool.xor_false]

/-! ## Two commands in a row -/

/-- A command has one next state: what is said of the state it completes in holds of the state it answers. -/
theorem CodecDone.of_next {i : Instr} {s t : State} {a : Nat} {bits : Bits} {st : Status} {r r2 : Word}
    (h : ∃ t' : State, exec i s = .next t' ∧ CodecDone s t' a bits st r r2) (ht : exec i s = .next t) :
    CodecDone s t a bits st r r2 := by
  obtain ⟨t', ht', hdone⟩ := h
  obtain rfl : t' = t := Host.Outcome.next.inj (ht'.symm.trans ht)
  exact hdone

/-- A command keeps the parameters. -/
theorem CodecDone.par {s t : State} {a : Nat} {bits : Bits} {st : Status} {r r2 : Word}
    (h : CodecDone s t a bits st r r2) : t.par = s.par :=
  congrArg Setup.params h.port.cfg

/-- Storing other bits at an address and then the old ones again leaves every bit as it was. -/
theorem Stored.bit_restored {m m' m'' : Memory} {a n : Nat} {bits : Bits} (h : Stored m m' a bits)
    (h' : Stored m' m'' a (m.readBits a n)) (hn : bits.length = n) (b : Nat) : m''.bit b = m.bit b := by
  subst hn
  by_cases hb : a ≤ b ∧ b < a + bits.length
  case pos =>
    obtain ⟨k, rfl⟩ := Nat.exists_eq_add_of_le hb.1
    have hk : k < bits.length := by omega
    rw [h'.bit_inside (by simpa using hk), Memory.get_readBits _ _ _ _ hk]
  case neg =>
    have hout : b < a ∨ a + bits.length ≤ b := by omega
    rw [h'.otherBits b (by simpa using hout), h.otherBits b hout]

/-! ## The commands -/

section
variable {s : State} {var sel : BitVec 4} {len dst src : BitVec 16} {d : Descriptor} (hd : s.par.slot sel = some d)
  (hsrc : src.toNat + len.toNat ≤ s.par.dmemBits) (hdst : dst.toNat + len.toNat ≤ s.par.dmemBits)
include hd hsrc hdst

section
variable {tab : List Nat} (htab : d.ilv[var.toNat]? = some tab) (hlen : len.toNat = tab.length)
include htab hlen

/-- ILV stores the interleaved bits (45_interleave_scramble.md R201). -/
theorem exec_ilv_done :
    ∃ t : State, exec (.ilv var sel len dst src) s = .next t
      ∧ CodecDone s t dst.toNat (interleave tab (s.dmem.readBits src.toNat len.toNat)) { valid := true } 0 0 := by
  have hidx : var.toNat < d.ilv.length := (List.getElem?_eq_some_iff.mp htab).1
  obtain rfl : d.ilv.getD var.toNat [] = tab := by simp [htab]
  exact codecCommand_done_of_slot (op := .ilv) (rule := ruleIlv) hd rfl (decide_eq_true hidx) (decide_eq_true hlen)
    hsrc hdst rfl

/-- DILV stores the deinterleaved bits (45_interleave_scramble.md R202). -/
theorem exec_dilv_done :
    ∃ t : State, exec (.dilv var sel len dst src) s = .next t
      ∧ CodecDone s t dst.toNat (deinterleave tab (s.dmem.readBits src.toNat len.toNat)) { valid := true } 0 0 := by
  have hidx : var.toNat < d.ilv.length := (List.getElem?_eq_some_iff.mp htab).1
  obtain rfl : d.ilv.getD var.toNat [] = tab := by simp [htab]
  exact codecCommand_done_of_slot (op := .dilv) (rule := ruleDilv) hd rfl (decide_eq_true hidx) (decide_eq_true hlen)
    hsrc hdst rfl

end

/-- SCR stores the scrambled bits (45_interleave_scramble.md R205). -/
theorem exec_scr_done {seq : List Byte} (hseq : d.whiten[var.toNat]? = some seq) (hlen : 1 ≤ len.toNat)
    (hmax : len.toNat ≤ 8 * seq.length) :
    ∃ t : State, exec (.scr var sel len dst src) s = .next t
      ∧ CodecDone s t dst.toNat (scramble seq (s.dmem.readBits src.toNat len.toNat)) { valid := true } 0 0 := by
  have hidx : var.toNat < d.whiten.length := (List.getElem?_eq_some_iff.mp hseq).1
  obtain rfl : d.whiten.getD var.toNat [] = seq := by simp [hseq]
  exact codecCommand_done_of_slot (op := .scr) (rule := ruleScr) hd rfl (decide_eq_true hidx)
    (decide_eq_true ⟨hlen, hmax⟩) hsrc hdst rfl

end

/-! ## The statements -/

/-- Settles O37: the commands store what their rules compute, whose bits are `get_interleave`, `get_deinterleave` and
`get_scramble`; the inputs were read before, so an overlap does not matter. -/
theorem interleaveAndScrambleCommands : Obligations.InterleaveAndScrambleCommands := by
  intro s var sel len dst src d hd hsrc hdst
  refine ⟨fun tab htab hlen => ⟨?ilv, ?dilv⟩, fun seq hseq hlen hmax => ?scr⟩
  case ilv =>
    have hperm := s.par.table_perm s.cfg.wf hd htab
    obtain ⟨t, ht, hdone⟩ := exec_ilv_done hd hsrc hdst htab hlen
    refine ⟨t, _, ht, hdone, by simp [hlen], fun i j hij => ?_⟩
    have hi : i < len.toNat := hlen ▸ (List.getElem?_eq_some_iff.mp hij).1
    rw [hdone.stored.bit_inside (by simpa using lt_of_table hperm hij), get_interleave hperm (by simp [hlen]) hij,
      Memory.get_readBits _ _ _ _ hi]
  case dilv =>
    have hperm := s.par.table_perm s.cfg.wf hd htab
    obtain ⟨t, ht, hdone⟩ := exec_dilv_done hd hsrc hdst htab hlen
    refine ⟨t, _, ht, hdone, by simp [hlen], fun i j hij => ?_⟩
    have hj : j < len.toNat := hlen ▸ lt_of_table hperm hij
    rw [hdone.stored.bit_inside (by simpa using (List.getElem?_eq_some_iff.mp hij).1), get_deinterleave hij,
      Memory.get_readBits _ _ _ _ hj]
  case scr =>
    obtain ⟨t, ht, hdone⟩ := exec_scr_done hd hsrc hdst hseq hlen hmax
    have hout := length_scramble_readBits hmax s.dmem src.toNat
    refine ⟨t, _, ht, hdone, hout, fun i b hi hb => ?_⟩
    rw [hdone.stored.bit_inside (hout.symm ▸ hi), get_scramble (by simpa using hi) (by omega), get_whitenBits hb,
      Memory.get_readBits _ _ _ _ hi]

/-- Settles O38: the second command reads the bits the first one stored, and the table is a bijection
(`deinterleave_interleave`, `interleave_deinterleave`). -/
theorem deinterleaveUndoesInterleave : Obligations.DeinterleaveUndoesInterleave := by
  intro s t var sel len mid dst src d tab hd htab hlen hsrc hmid hdst
  have hperm := s.par.table_perm s.cfg.wf hd htab
  refine ⟨fun ht => ?dilvAfterIlv, fun ht => ?ilvAfterDilv⟩
  case dilvAfterIlv =>
    have hdone := CodecDone.of_next (exec_ilv_done hd hsrc hmid htab hlen) ht
    rw [← hdone.par] at hd hmid hdst
    obtain ⟨u, hu, hdone'⟩ := exec_dilv_done hd hmid hdst htab hlen
    rw [hdone.readBits (by simp [hlen]), deinterleave_interleave hperm (by simp [hlen])] at hdone'
    exact ⟨u, hu, hdone'.readBits (by simp)⟩
  case ilvAfterDilv =>
    have hdone := CodecDone.of_next (exec_dilv_done hd hsrc hmid htab hlen) ht
    rw [← hdone.par] at hd hmid hdst
    obtain ⟨u, hu, hdone'⟩ := exec_ilv_done hd hmid hdst htab hlen
    rw [hdone.readBits (by simp [hlen]), interleave_deinterleave hperm (by simp [hlen])] at hdone'
    exact ⟨u, hu, hdone'.readBits (by simp)⟩

/-- Settles O39: the second SCR stores the bits the region held at first (`scramble_scramble`). -/
theorem scrambleTwiceIsNothing : Obligations.ScrambleTwiceIsNothing := by
  intro s t var sel len src d seq hd hseq hlen hmax hsrc ht
  have hout := length_scramble_readBits hmax s.dmem src.toNat
  have hdone := CodecDone.of_next (exec_scr_done hd hsrc hsrc hseq hlen hmax) ht
  rw [← hdone.par] at hd hsrc
  obtain ⟨u, hu, hdone'⟩ := exec_scr_done hd hsrc hsrc hseq hlen hmax
  rw [hdone.readBits hout, scramble_scramble (by simpa using hmax)] at hdone'
  exact ⟨u, hu, hdone.stored.bit_restored hdone'.stored hout⟩

end Machine
end Sys2Proof
end

section
/-! Frames (46_frame.md R215 to R228): classification, the steps of a well-formed program, and FRDEC and FRENC. -/

namespace Sys2Proof

/-! ## The operands of a step -/

/-- An opcode without a source address has no source range to check. -/
theorem StepOp.srcBits_of_not_usesSrc {op : StepOp} (h : op.usesSrc = false) (len : Nat) : op.srcBits len = 0 := by
  cases op with
  | fill => rfl
  | _ => cases h

/-- An opcode without a destination address has no destination range to check. -/
theorem StepOp.dstBits_of_not_usesDst {op : StepOp} (h : op.usesDst = false) (len : Nat) : op.dstBits len = 0 := by
  cases op with
  | crc16 | crc16a | crc16v | crcs | crcsa | crcsv => rfl
  | _ => cases h

namespace Machine

@[simp] theorem stepOperands_var (w f : Nat) (t : Step) : (stepOperands w f t).var = t.var.toNat := rfl
@[simp] theorem stepOperands_len (w f : Nat) (t : Step) : (stepOperands w f t).len = t.len.toNat := rfl

section
variable {p : Params} {d : Descriptor} {o : Option Nat} {w f : Nat}
  (hw : ∀ l, o = some l → w + l ≤ p.dmemBits) (hf : f + d.fieldBits ≤ p.dmemBits)
include hw hf

/-- A range inside its base's region is inside DMEM when the region is (46_frame.md R218, condition 7; R222). -/
theorem fits_baseAddr {base : Base} {off : BitVec 16} {n : Nat} (h : inRegion d o base off.toNat n = true) :
    p.fits (baseAddr w f base off) n = true := by
  rw [Params.fits_eq_true]
  cases base with
  | wire =>
    cases o with
    | none => cases h
    | some l =>
      have hregion : off.toNat + n ≤ l := of_decide_eq_true h
      have hwire := hw l rfl
      simp only [baseAddr]
      omega
  | field =>
    have hregion : off.toNat + n ≤ d.fieldBits := of_decide_eq_true h
    simp only [baseAddr]
    omega

/-- A step that passes its static checks passes all checks of its opcode (46_frame.md R222). -/
theorem codecChecks_of_step_wf {sel : BitVec 4} (hd : p.slot sel = some d) {t : Step}
    (ht : t.wf p.vitMax d o = true) : (codecChecks t.op p sel (stepOperands w f t)).all (·.2) = true := by
  simp only [Step.wf, Bool.and_eq_true, Bool.or_eq_true, Bool.not_eq_true'] at ht
  obtain ⟨⟨⟨⟨hvar, hidx⟩, hlen⟩, hsrc⟩, hdst⟩ := ht
  have hsrcFits : p.fits (stepOperands w f t).src (t.op.srcBits t.len.toNat) = true := by
    cases hu : t.op.usesSrc with
    | false => simp [stepOperands, hu, StepOp.srcBits_of_not_usesSrc hu, Params.fits]
    | true =>
      simp only [stepOperands, hu, if_true]
      exact fits_baseAddr hw hf (hsrc.resolve_left (by simp [hu]))
  have hdstFits : p.fits (stepOperands w f t).dst (t.op.dstBits t.len.toNat) = true := by
    cases hu : t.op.usesDst with
    | false => simp [stepOperands, hu, StepOp.dstBits_of_not_usesDst hu, Params.fits]
    | true =>
      simp only [stepOperands, hu, if_true]
      exact fits_baseAddr hw hf (hdst.resolve_left (by simp [hu]))
  simp [codecChecks, Params.descFor_of_slot hd, hd, hvar, hidx, hlen, hsrcFits, hdstFits]

end

/-- Every step of a well-formed program passes its static checks. -/
theorem step_wf_of_progWf {vitMax : Nat} {d : Descriptor} {o : Option Nat} {prog : List Step}
    (h : progWf vitMax d o prog = true) {t : Step} (ht : t ∈ prog) : t.wf vitMax d o = true := by
  simp only [progWf, Bool.and_eq_true, List.all_eq_true] at h
  exact h.2 t ht

/-! ## Classification -/

/-- A frame matches a kind when it has its length and its syncs. -/
theorem kindMatches_iff (m : Memory) (w n : Nat) (k : FrameKind) :
    kindMatches m w n k = true ↔ Qualifies m w n k := by
  simp only [kindMatches, syncMatches, Qualifies, Bool.and_eq_true, List.all_eq_true, beq_iff_eq]

/-- Settles O40: `classify` searches for the first kind that matches, and `kindMatches_iff` says which do. -/
theorem classificationPicksTheLowestKind : Obligations.ClassificationPicksTheLowestKind := by
  intro d m w n
  refine ⟨?none, fun k => ?some⟩
  case none =>
    simp only [classify, List.findIdx?_eq_none_iff, ← kindMatches_iff, Bool.not_eq_true]
  case some =>
    simp only [classify, List.findIdx?_eq_some_iff_getElem, ← kindMatches_iff]
    constructor
    case mp =>
      rintro ⟨hk, hmatch, hlower⟩
      refine ⟨⟨d.kinds[k], List.getElem?_eq_getElem hk, hmatch⟩, fun j kd hj hkd => ?_⟩
      obtain ⟨_, rfl⟩ := List.getElem?_eq_some_iff.mp hkd
      exact hlower j hj
    case mpr =>
      rintro ⟨⟨kd, hkd, hmatch⟩, hlower⟩
      obtain ⟨hk, rfl⟩ := List.getElem?_eq_some_iff.mp hkd
      exact ⟨hk, hmatch, fun j hj => hlower j _ hj (List.getElem?_eq_getElem (hj.trans hk))⟩

/-- Settles O41: the ROM is well-formed, so every step passes its static checks, and `codecChecks_of_step_wf` turns
them into the checks of its opcode. -/
theorem frameStepsNeverFault : Obligations.FrameStepsNeverFault := by
  intro s sel d w f x hd hf hx
  have hwf := s.par.slot_wf s.cfg.wf hd
  rcases hx with ⟨k, hk, hprog, hw⟩ | ⟨e, he, hprog⟩
  case inl =>
    obtain ⟨i, hi⟩ := List.mem_iff_getElem?.mp hk
    obtain ⟨hdec, henc⟩ := kind_progs (kind_wf hwf hi)
    refine codecChecks_of_step_wf (fun l hl => ?region) hf hd
      (hprog.elim (step_wf_of_progWf hdec) (step_wf_of_progWf henc))
    case region => exact Option.some.inj hl ▸ hw
  case inr =>
    have hcheck := embedded_wf hwf he
    simp only [Embedded.wf, Bool.and_eq_true] at hcheck
    refine codecChecks_of_step_wf (fun l hl => ?noWire) hf hd (step_wf_of_progWf hcheck.2 hprog)
    case noWire => cases hl

/-! ## The parser -/

theorem parseFrame_of_classify_none {d : Descriptor} {m : Memory} {w n : Nat} (h : classify d m w n = none)
    (p : Params) (f : Nat) : parseFrame p d m w n f = none := by
  simp only [parseFrame, h]

/-- A classified frame is parsed: its kind's decode program runs on the cleared field block (46_frame.md R225). -/
theorem parseFrame_of_classify_some {d : Descriptor} {m : Memory} {w n k : Nat} (h : classify d m w n = some k)
    (p : Params) (f : Nat) :
    ∃ kd, d.kinds[k]? = some kd
      ∧ parseFrame p d m w n f
        = some ⟨k, kd, runProg p d w f kd.decProg (m.writeBits f (Bits.zeros d.fieldBits))⟩ := by
  obtain ⟨kd, hkd, _⟩ := classify_kind h
  exact ⟨kd, hkd, by simp only [parseFrame, h, hkd]⟩

/-- A frame command that completes with a memory that differs in its two regions only. -/
theorem State.finish_frameDone {s : State} {m : Memory} {w n f k : Nat} (h : KeptOutside s.dmem m w n f k)
    (se : Session) (st : Status) (r r2 : Word) : FrameDone s (s.finish m se st r r2) m w n f k se st r r2 :=
  ⟨rfl, rfl, rfl, rfl, h, rfl, rfl, s.finish_keepsPort ..⟩

section
variable {s : State} {sel : BitVec 4} {len dst src : BitVec 16} {d : Descriptor} (hd : s.par.slot sel = some d)
  (hlen : 1 ≤ len.toNat) (hsrc : src.toNat + len.toNat ≤ s.par.dmemBits)
  (hdst : dst.toNat + d.fieldBits ≤ s.par.dmemBits) (hapart : overlaps src.toNat len.toNat dst.toNat d.fieldBits = false)
include hd hlen hsrc hdst hapart

/-- FRDEC leaves what parsing its frame gives, or reports FRAMING (46_frame.md R225). -/
theorem exec_frdec :
    exec (.frdec sel len dst src) s = .next
      ((parseFrame s.par d s.dmem src.toNat len.toNat dst.toNat).elim s.framing fun y =>
        s.finish y.prog.mem s.session y.prog.status (BitVec.ofNat 32 y.index) (classCode y.kind.cls)) := by
  obtain rfl := Params.descFor_of_slot hd
  refine congrArg Host.Outcome.next ((checked_pass ?pass s _).trans ?body)
  case pass => simp [hd, hlen, Params.fits_eq_true.mpr hsrc, Params.fits_eq_true.mpr hdst, hapart]
  case body => cases parseFrame s.par (s.par.descFor sel) s.dmem src.toNat len.toNat dst.toNat <;> rfl

end

/-- Settles O42: FRDEC leaves what `parseFrame` computed, which runs the program of the kind `classify` finds and keeps
DMEM outside the two regions (`parseFrame_keptOutside`). -/
theorem frdecParsesFrames : Obligations.FrdecParsesFrames := by
  intro s sel len dst src d hd hlen hsrc hdst hapart
  have hexec := exec_frdec hd hlen hsrc hdst hapart
  refine ⟨fun hnone => ?framing, fun k hsome => ?parsed⟩
  case framing =>
    rw [parseFrame_of_classify_none hnone] at hexec
    exact ⟨_, hexec, s.finish_readOnlyDone ..⟩
  case parsed =>
    obtain ⟨kd, hkd, hparse⟩ := parseFrame_of_classify_some hsome s.par dst.toNat
    have hkept := parseFrame_keptOutside s.cfg.wf (s.par.slot_wf s.cfg.wf hd) hparse
    rw [hparse] at hexec
    exact ⟨_, kd, _, hexec, hkd, rfl, State.finish_frameDone hkept ..⟩

/-! ## The assembler -/

/-- FRENC of a present kind leaves the frame `buildFrame` makes (46_frame.md R227). -/
theorem exec_frenc {s : State} {var sel : BitVec 4} {dst src : BitVec 16} {d : Descriptor} {k : FrameKind}
    (hd : s.par.slot sel = some d) (hk : d.kinds[var.toNat]? = some k)
    (hdst : dst.toNat + k.lenBits ≤ s.par.dmemBits) (hsrc : src.toNat + d.fieldBits ≤ s.par.dmemBits)
    (hapart : overlaps dst.toNat k.lenBits src.toNat d.fieldBits = false) :
    exec (.frenc var sel dst src) s = .next
      (s.finish (buildFrame s.par d k s.dmem dst.toNat src.toNat) s.session { valid := true }
        (BitVec.ofNat 32 k.lenBits) (var.setWidth 32)) := by
  obtain rfl := Params.descFor_of_slot hd
  obtain ⟨hidx, _⟩ := List.getElem?_eq_some_iff.mp hk
  have hlen : Descriptor.lenOf (s.par.descFor sel) var.toNat = k.lenBits := by simp [Descriptor.lenOf, hk]
  refine congrArg Host.Outcome.next ((checked_pass ?_ s _).trans (by rw [hk, hlen, BitVec.ofNat_toNat]))
  simp [hd, hidx, hlen, Params.fits_eq_true.mpr hdst, Params.fits_eq_true.mpr hsrc, hapart]

/-- Settles O43: FRENC leaves what `buildFrame` computed, which keeps DMEM outside the two regions
(`buildFrame_keptOutside`). -/
theorem frencBuildsFrames : Obligations.FrencBuildsFrames := by
  intro s var sel dst src d k hd hk hdst hsrc hapart
  have hwf := kind_wf (s.par.slot_wf s.cfg.wf hd) hk
  have hkept := buildFrame_keptOutside s.cfg.wf hwf s.dmem dst.toNat src.toNat le_rfl
  exact ⟨_, _, exec_frenc hd hk hdst hsrc hapart, rfl, State.finish_frameDone hkept ..⟩

end Machine
end Sys2Proof
end

section
/-! The modem envelope (46_frame.md R230 to R232): ENVP stores a header of three bytes and the payload, ENVU reads them
back. -/

namespace Sys2Proof.Machine

/-! ## Fields in a row -/

/-- A field is a first part and the rest. -/
theorem Memory.readBits_add (m : Memory) (a n k : Nat) :
    m.readBits a (n + k) = m.readBits a n ++ m.readBits (a + n) k := by
  simp [Memory.readBits, List.range_add, Nat.add_assoc, Function.comp_def]

/-- Vectors read one after the other are read as one. -/
theorem Memory.readBits_append_iff (m : Memory) (a : Nat) (u v : Bits) :
    m.readBits a (u ++ v).length = u ++ v
      ↔ m.readBits a u.length = u ∧ m.readBits (a + u.length) v.length = v := by
  rw [List.length_append, Memory.readBits_add]
  exact ⟨fun h => List.append_inj h (by simp), fun ⟨hu, hv⟩ => by rw [hu, hv]⟩

/-- The four parts of an envelope read back from the memory that stores it (46_frame.md R230). -/
theorem Stored.envelope_parts {m m' : Memory} {a n : Nat} {start len ty payload : Bits}
    (h : Stored m m' a (start ++ len ++ ty ++ payload)) (hstart : start.length = 8) (hlen : len.length = 8)
    (hty : ty.length = 8) (hpayload : payload.length = n) :
    m'.readBits a 8 = start ∧ m'.readBits (a + 8) 8 = len ∧ m'.readBits (a + 16) 8 = ty
      ∧ m'.readBits (a + 24) n = payload := by
  have hreads := h.reads
  rw [Memory.readBits_append_iff, Memory.readBits_append_iff, Memory.readBits_append_iff] at hreads
  simp only [List.length_append, hstart, hlen, hty, hpayload] at hreads
  obtain ⟨⟨⟨hs, hl⟩, ht⟩, hp⟩ := hreads
  exact ⟨hs, hl, ht, hp⟩

/-! ## The commands -/

/-- A length and two ranges that are legal pass the checks of ENVP and ENVU. -/
theorem envelopeChecks_pass {p : Params} {good : Prop} [Decidable good] {a n b k : Nat} (hgood : good)
    (ha : a + n ≤ p.dmemBits) (hb : b + k ≤ p.dmemBits) :
    [(ErrCode.badLen, decide good), (.range, p.fits a n && p.fits b k)].all (·.2) = true := by
  simp [hgood, Params.fits_eq_true.mpr ha, Params.fits_eq_true.mpr hb]

/-- ENVP stores the envelope of the payload as it was (46_frame.md R231). -/
theorem exec_envp_done {s : State} {ty : BitVec 8} {len dst src : BitVec 16} (hlen : len.toNat ≤ 252)
    (hsrc : src.toNat + 8 * len.toNat ≤ s.par.dmemBits) (hdst : dst.toNat + 8 * (len.toNat + 3) ≤ s.par.dmemBits) :
    ∃ t : State, exec (.envp ty len dst src) s = .next t
      ∧ CodecDone s t dst.toNat
        (Bits.ofNat 8 s.par.envStart.toNat ++ Bits.ofNat 8 (len.toNat + 3) ++ Bits.ofNat 8 ty.toNat
          ++ s.dmem.readBits src.toNat (8 * len.toNat))
        { valid := true } (BitVec.ofNat 32 (len.toNat + 3)) 0 := by
  have hpass := envelopeChecks_pass hlen hsrc hdst
  exact ⟨_, congrArg Host.Outcome.next (checked_pass hpass s _), s.finish_codecDone ..⟩

section
variable {s : State} {len dst src : BitVec 16} (hlen : 3 ≤ len.toNat)
  (hsrc : src.toNat + 8 * len.toNat ≤ s.par.dmemBits) (hdst : dst.toNat + 8 * (len.toNat - 3) ≤ s.par.dmemBits)
include hlen hsrc hdst

/-- ENVU of an envelope stores its payload (46_frame.md R232). -/
theorem exec_envu_done {l : Nat} (hstart : (s.dmem.readBits src.toNat 8).toNat = s.par.envStart.toNat)
    (hl : (s.dmem.readBits (src.toNat + 8) 8).toNat = l) (hmin : 3 ≤ l) (hmax : l ≤ len.toNat) :
    ∃ t : State, exec (.envu len dst src) s = .next t
      ∧ CodecDone s t dst.toNat (s.dmem.readBits (src.toNat + 24) (8 * (l - 3))) { valid := true }
        (BitVec.ofNat 32 (s.dmem.readBits (src.toNat + 16) 8).toNat) (BitVec.ofNat 32 (l - 3)) := by
  subst hl
  have hpass := envelopeChecks_pass hlen hsrc hdst
  exact ⟨_, congrArg Host.Outcome.next ((checked_pass hpass s _).trans (if_neg (by omega))), s.finish_codecDone ..⟩

/-- ENVU of anything else reports FRAMING (46_frame.md R232). -/
theorem exec_envu_framing
    (hbad : (s.dmem.readBits src.toNat 8).toNat ≠ s.par.envStart.toNat
      ∨ (s.dmem.readBits (src.toNat + 8) 8).toNat < 3 ∨ len.toNat < (s.dmem.readBits (src.toNat + 8) 8).toNat) :
    ∃ t : State, exec (.envu len dst src) s = .next t ∧ ReadOnlyDone s t { err := .framing } 0xFFFFFFFF 0 := by
  have hpass := envelopeChecks_pass hlen hsrc hdst
  exact ⟨_, congrArg Host.Outcome.next ((checked_pass hpass s _).trans (if_pos hbad)), s.finish_readOnlyDone ..⟩

end

/-! ## The statements -/

/-- Settles O44: from `exec_envp_done`, `exec_envu_done` and `exec_envu_framing`. -/
theorem envelopeCommands : Obligations.EnvelopeCommands := by
  refine ⟨fun s ty len dst src => exec_envp_done, fun s len dst src b0 l ty hlen hsrc hdst hb0 hl hty => ?envu⟩
  case envu =>
    subst hb0 hl hty
    exact ⟨fun hstart hmin hmax => exec_envu_done hlen hsrc hdst hstart rfl hmin hmax, exec_envu_framing hlen hsrc hdst⟩

/-- Settles O45: ENVU reads back the four parts of the envelope ENVP stored (`Stored.envelope_parts`); the total length
is below 256, so its byte holds all of it. -/
theorem envelopeRoundTrip : Obligations.EnvelopeRoundTrip := by
  intro s t ty len avail mid dst src hlen havail hsrc hmid hdst ht
  have hdone := CodecDone.of_next (exec_envp_done hlen hsrc (by omega)) ht
  obtain ⟨hstart, htotal, htype, hpayload⟩ := hdone.stored.envelope_parts (by simp) (by simp) (by simp)
    (Memory.length_readBits ..)
  have hstart' : (t.dmem.readBits mid.toNat 8).toNat = t.par.envStart.toNat := by
    rw [hstart, Bits.toNat_ofNat, hdone.par, Nat.mod_eq_of_lt s.par.envStart.isLt]
  have htotal' : (t.dmem.readBits (mid.toNat + 8) 8).toNat = len.toNat + 3 := by
    rw [htotal, Bits.toNat_ofNat, Nat.mod_eq_of_lt (by omega)]
  rw [← hdone.par] at hmid hdst
  obtain ⟨u, hu, hdone'⟩ := exec_envu_done (by omega) hmid hdst hstart' htotal' (by omega) havail
  rw [Nat.add_sub_cancel, hpayload, htype, Bits.toNat_ofNat, Nat.mod_eq_of_lt ty.isLt, BitVec.ofNat_toNat,
    BitVec.ofNat_toNat] at hdone'
  exact ⟨u, hu, hdone'.status, hdone'.res, hdone'.res2, hdone'.readBits (by simp)⟩

end Sys2Proof.Machine
end

section
/-! The session commands that work on no frame (47_session.md R250 to R259, R272 to R276): SCON, SLNK, SDIS, SRXT, STXS
and STXE. -/

namespace Sys2Proof.Machine

/-- A session command that completes with DMEM kept. -/
theorem State.finish_sessionDone (s : State) (se : Session) (st : Status) (r r2 : Word) :
    SessionDone s (s.finish s.dmem se st r r2) se st r r2 :=
  ⟨rfl, rfl, rfl, rfl, rfl, rfl, s.finish_keepsPort ..⟩

/-! ## Connection -/

theorem State.configError_keepsPort (s : State) : s.KeepsPort s.configError := ⟨rfl, rfl, rfl, rfl, rfl⟩

/-- SCON from DISCONNECTED with FATAL clear starts a session with VAR 0 and records the configuration error with VAR 1
(47_session.md R251, R252). -/
theorem exec_scon {s : State} {var sel : BitVec 4} {src : BitVec 16} {d : Descriptor} (hvar : var.toNat ≤ 1)
    (hd : s.par.slot sel = some d) (hsrc : src.toNat + 128 ≤ s.par.dmemBits) (hfatal : s.fault.fatal = false)
    (hlink : s.session.link = .disconnected) :
    exec (.scon var sel src) s = .next
      (if var.toNat = 1 then s.configError
       else s.sessionDone (connectSession s.dmem s.session sel src.toNat) { valid := true }) := by
  refine congrArg Host.Outcome.next ((checked_pass ?pass s _).trans ?body)
  case pass => simp [hvar, hd, Params.fits_eq_true.mpr hsrc]
  case body => simp [hfatal, hlink]

/-- Settles O46: both variants of SCON from `exec_scon`. -/
theorem sconStartsASession : Obligations.SconStartsASession := by
  intro s sel src d hd hsrc hfatal hlink
  have hexec : ∀ var : BitVec 4, var.toNat ≤ 1 → _ := fun var hvar => exec_scon hvar hd hsrc hfatal hlink
  exact ⟨⟨_, hexec 0 (by decide), s.finish_sessionDone ..⟩,
    ⟨_, hexec 1 (by decide), rfl, rfl, rfl, rfl, rfl, rfl, s.configError_keepsPort⟩⟩

section
variable {s : State}

/-- LINK_UP in CONNECTING (47_session.md R253). -/
theorem exec_slnk_linkUp {d : Descriptor} (hlink : s.session.link = .connecting) (hb : s.backend = some d) :
    exec (.slnk 0) s = .next
      (s.sessionDone { s.session with link := linkUpState d, linkWdog := 0 } { valid := true }) := by
  simp [exec, execSlnk, checked, hlink, hb]

/-- AUTH_OK in AUTH (47_session.md R253). -/
theorem exec_slnk_authOk (hlink : s.session.link = .auth) :
    exec (.slnk 1) s = .next
      (s.sessionDone { s.session with link := .connected, linkWdog := 0 } { valid := true }) := by
  simp [exec, execSlnk, checked, hlink]

/-- AUTH_FAIL in AUTH (47_session.md R253). -/
theorem exec_slnk_authFail (hlink : s.session.link = .auth) :
    exec (.slnk 2) s = .next (s.sessionDone s.sessionReset { err := .authFail }) := by
  simp [exec, execSlnk, checked, hlink]

/-- PEER_ALIVE with a link (47_session.md R253). -/
theorem exec_slnk_peerAlive (hlink : s.session.link ≠ .disconnected) :
    exec (.slnk 3) s = .next (s.sessionDone { s.session with linkWdog := 0 } { valid := true }) := by
  simp [exec, execSlnk, checked, hlink]

end

/-- Settles O47: one equation per event. -/
theorem slnkEvents : Obligations.SlnkEvents := by
  intro s
  exact ⟨fun d hlink hb => ⟨_, exec_slnk_linkUp hlink hb, s.finish_sessionDone ..⟩,
    fun hlink => ⟨⟨_, exec_slnk_authOk hlink, s.finish_sessionDone ..⟩,
      ⟨_, exec_slnk_authFail hlink, s.finish_sessionDone ..⟩⟩,
    fun hlink => ⟨_, exec_slnk_peerAlive hlink, s.finish_sessionDone ..⟩⟩

theorem Session.backendWord_cleared (n : Nat) : (Session.cleared n).backendWord = 0 := by
  show (0#27 ++ flagBit false ++ 0#4 : Word) = 0
  decide

theorem Session.txStateWord_cleared (n : Nat) : (Session.cleared n).txStateWord = 0 := by
  show (0#23 ++ flagBit false ++ 0#6 ++ TxPhase.idle.code : Word) = 0
  decide

/-- Settles O48: SDIS has no check and no condition, and the session it leaves is the cleared one. -/
theorem sdisResetsTheSession : Obligations.SdisResetsTheSession := by
  intro s
  exact ⟨_, rfl, s.finish_sessionDone .., rfl, rfl, Session.backendWord_cleared _, rfl, rfl, rfl, rfl, rfl, rfl, rfl,
    Session.txStateWord_cleared _, rfl, rfl, rfl, rfl, rfl,
    rfl, rfl, rfl⟩

/-! ## Receive ticks -/

/-- The session with the link watchdog counted (47_session.md R272). -/
def countLink (se : Session) : Session :=
  { se with linkWdog := satSucc se.linkWdog }

/-- The session with the reception watchdog counted (47_session.md R272). -/
def countWatchdog (se : Session) : Session :=
  { se with wdogCnt := satSucc se.wdogCnt }

/-- The link watchdog, once counted, has reached its limit (47_session.md R272). -/
abbrev linkExpired (d : Descriptor) (se : Session) : Prop :=
  0 < d.linkTimeout ∧ d.linkTimeout ≤ (countLink se).linkWdog.toNat

/-- An active call's reception watchdog, once counted, has reached its limit (47_session.md R273). -/
def callExpired (d : Descriptor) (se : Session) : Bool :=
  se.call.active && decide (d.wdogLimit ≤ (countWatchdog se).wdogCnt.toNat)

theorem active_iff (c : CallState) : c.active = true ↔ c = .new ∨ c = .streaming := by
  cases c <;> simp [CallState.active]

theorem over_iff (c : CallState) : c.over = true ↔ c = .ended ∨ c = .lost := by
  cases c <;> simp [CallState.over]

theorem callTick_eq (s : State) (d : Descriptor) (drained : Bool) (se : Session) :
    s.callTick d drained se =
      if callExpired d se then
        s.ticked (enterLost s.par.reasmMax (countWatchdog se)) { err := .sessionTimeout, lostcall := true }
      else if se.call.over && drained then s.ticked (returnToIdle s.par.reasmMax (countWatchdog se)) { valid := true }
      else s.ticked (countWatchdog se) { valid := true } := rfl

/-- SRXT with a link (47_session.md R272). -/
theorem exec_srxt {s : State} {var : BitVec 4} {d : Descriptor} (hvar : var.toNat ≤ 1)
    (hlink : s.session.link ≠ .disconnected) (hb : s.backend = some d) :
    exec (.srxt var) s = .next
      (if linkExpired d s.session then s.sessionDone s.sessionReset { err := .linkTimeout }
       else if s.session.link = .connected then s.callTick d (var == 1) (countLink s.session)
       else s.ticked (countLink s.session) { valid := true }) := by
  refine congrArg Host.Outcome.next ((checked_pass ?pass s _).trans ?body)
  case pass => simp [hvar]
  case body =>
    simp only [hb, if_neg hlink]
    rfl

/-- Settles O52: each clause picks one branch of `exec_srxt` and `callTick_eq`. -/
theorem srxtTicks : Obligations.SrxtTicks := by
  intro s var d hvar hlink hb se lw wd timedOut active isOver
  have hactive : (countLink s.session).call.active = true ↔ active := active_iff _
  have hlost : callExpired d (countLink s.session) = true ↔ active ∧ d.wdogLimit ≤ wd.toNat := by
    simp only [callExpired, Bool.and_eq_true, hactive, decide_eq_true_iff]
    rfl
  have hover : ((countLink s.session).call.over && var == 1) = true ↔ isOver ∧ var = 1 := by
    simp only [Bool.and_eq_true, over_iff, beq_iff_eq]
    rfl
  refine ⟨_, exec_srxt hvar hlink hb, fun (ht : linkExpired d s.session) => ?linkLost,
    fun (ht : ¬ linkExpired d s.session) hl => ?linkOnly, fun (ht : ¬ linkExpired d s.session) hl ha hw => ?callLost,
    fun (ht : ¬ linkExpired d s.session) hl ho hv => ?drained,
    fun (ht : ¬ linkExpired d s.session) hl hna hno => ?counted⟩
  case linkLost =>
    rw [if_pos ht]
    exact s.finish_sessionDone ..
  case linkOnly =>
    rw [if_neg ht, if_neg hl]
    exact s.finish_sessionDone ..
  case callLost =>
    rw [if_neg ht, if_pos hl, callTick_eq, if_pos (hlost.mpr ⟨ha, hw⟩)]
    exact s.finish_sessionDone ..
  case drained =>
    have hna : ¬ active := by
      rcases ho with ho | ho <;> simp [active, se, ho]
    rw [if_neg ht, if_pos hl, callTick_eq, if_neg (mt hlost.mp fun h => hna h.1),
      if_pos (hover.mpr ⟨ho, hv⟩)]
    exact s.finish_sessionDone ..
  case counted =>
    rw [if_neg ht, if_pos hl, callTick_eq, if_neg (mt hlost.mp hna), if_neg (mt hover.mp hno)]
    exact s.finish_sessionDone ..

/-! ## Outbound calls -/

/-- Settles O53: STXS in CONNECTED and TX_IDLE with transmit kinds, STXE in TX_HEADER and TX_STREAM (47_session.md R275,
R276). -/
theorem stxsStartsAndStxeStops : Obligations.StxsStartsAndStxeStops := by
  intro s
  refine ⟨fun imm d hlink htxs hb htx => ?start, fun htxs => ?stopRequested, fun htxs => ?streamEnds⟩
  case start =>
    have hexec : exec (.stxs imm) s = .next
        (s.sessionDone { s.session with txSid := imm, txSeq := 0, txs := .header, stopReq := false }
          { valid := true }) := by
      simp [exec, execStxs, hlink, htxs, hb, Option.isSome_iff_ne_none.mp htx]
    exact ⟨_, hexec, s.finish_sessionDone ..⟩
  case stopRequested =>
    have hexec : exec .stxe s = .next (s.sessionDone { s.session with stopReq := true } { valid := true }) := by
      simp [exec, execStxe, htxs]
    exact ⟨_, hexec, s.finish_sessionDone ..⟩
  case streamEnds =>
    have hexec : exec .stxe s = .next (s.sessionDone { s.session with txs := .ending } { valid := true }) := by
      simp [exec, execStxe, htxs]
    exact ⟨_, hexec, s.finish_sessionDone ..⟩

end Sys2Proof.Machine
end

section
/-! Receiving a frame (47_session.md R260 to R271): what SRXF does with a frame that is dropped or whose voice failed,
how a state-valid frame moves the call, and reassembly. -/

namespace Sys2Proof.Machine

/-! ## The command -/

/-- The descriptor behind a link is well-formed. -/
theorem State.backend_wf {s : State} {d : Descriptor} (h : s.backend = some d) :
    d.wf s.par.vitMax s.par.reasmMax = true := by
  cases hv : s.session.backendValid with
  | false => simp [State.backend, hv] at h
  | true => exact s.par.slot_wf s.cfg.wf (by simpa [State.backend, hv] using h)

theorem State.fieldBits_of_backend {s : State} {d : Descriptor} (h : s.backend = some d) :
    s.fieldBits = d.fieldBits := by
  simp [State.fieldBits, h]

/-- SRXF in CONNECTED with legal operands receives the frame that parsing gives, or reports FRAMING (47_session.md
R260). -/
theorem exec_srxf {s : State} {len dst src : BitVec 16} {d : Descriptor}
    (h : SrxfReady s src.toNat len.toNat dst.toNat d) :
    exec (.srxf len dst src) s = .next
      ((parseFrame s.par d s.dmem src.toNat len.toNat dst.toNat).elim s.framing (s.receive d src.toNat dst.toNat)) := by
  obtain ⟨hlink, hb, hlen, hwire, hfield, hapart⟩ := h
  refine congrArg Host.Outcome.next ((checked_pass ?pass s _).trans ?body)
  case pass =>
    simp [State.fieldBits_of_backend hb, hlen, Params.fits_eq_true.mpr hwire, Params.fits_eq_true.mpr hfield, hapart]
  case body =>
    simp only [hb, hlink, ne_eq, not_true_eq_false, if_false]
    cases parseFrame s.par d s.dmem src.toNat len.toNat dst.toNat <;> rfl

/-! ## Dropped frames and failed voice -/

theorem ErrCode.none_orElse (b : ErrCode) : ErrCode.none.orElse b = b := rfl

theorem ErrCode.orElse_of_ne_none {a : ErrCode} (h : a ≠ .none) (b : ErrCode) : a.orElse b = a :=
  if_neg h

/-- A frame that failed a CONTROL step is dropped (47_session.md R260). -/
theorem receive_of_control_failed {y : Parsed} (h : y.prog.ctl ≠ .none) (s : State) (d : Descriptor) (w f : Nat) :
    s.receive d w f y =
      s.finish y.prog.mem s.session
        { err := y.prog.ctl, corr := sat8 y.prog.corr, vfail := y.prog.voice != .none }
        (BitVec.ofNat 32 y.index) (classCode y.kind.cls) := by
  simp [State.receive, h, ProgState.status, ErrCode.orElse_of_ne_none h, beq_eq_false_iff_ne.mpr h]

/-- A frame whose VOICE steps alone failed is forwarded for its active call unless muted (47_session.md R265). -/
theorem receive_of_voice_failed {y : Parsed} (hc : y.prog.ctl = .none) (hv : y.prog.voice ≠ .none) (s : State)
    (d : Descriptor) (w f : Nat) :
    s.receive d w f y =
      s.finish y.prog.mem s.session
        { err := y.prog.voice, valid := true, vfail := true, corr := sat8 y.prog.corr
          payload := y.kind.cls == .voice && y.kind.fPayload.isSome
            && continuesCall y.prog.mem f y.kind s.session && !d.muteOnVfail }
        (BitVec.ofNat 32 y.index) (classCode y.kind.cls) := by
  simp [State.receive, State.voiceFailed, hc, hv, ProgState.status, ErrCode.none_orElse, bne_iff_ne.mpr hv,
    carriesPayload, continuesCall, active_eq_inCall, sameStream_eq, Bool.and_assoc]

/-- Settles O49: what `exec_srxf` receives, by the parse and the two outcomes of its program. -/
theorem srxfKeepsTheSessionOnBadFrames : Obligations.SrxfKeepsTheSessionOnBadFrames := by
  intro s len dst src d hready
  have hexec := exec_srxf hready
  have hkept : ∀ y, parseFrame s.par d s.dmem src.toNat len.toNat dst.toNat = some y → _ :=
    fun y => parseFrame_keptOutside s.cfg.wf (State.backend_wf hready.backend)
  refine ⟨fun hp => ?framing, fun y hp hc hv => ?control, fun y hp hc hv => ?both, fun y hp hc hv => ?voice⟩
  case framing =>
    rw [hp] at hexec
    exact ⟨_, hexec, s.finish_readOnlyDone ..⟩
  case control =>
    rw [hp, Option.elim_some, receive_of_control_failed hc, hv] at hexec
    exact ⟨_, hexec, State.finish_frameDone (hkept y hp) ..⟩
  case both =>
    rw [hp, Option.elim_some, receive_of_control_failed hc] at hexec
    exact ⟨_, hexec, State.finish_frameDone (hkept y hp) ..⟩
  case voice =>
    rw [hp, Option.elim_some, receive_of_voice_failed hc hv] at hexec
    exact ⟨_, hexec, State.finish_frameDone (hkept y hp) ..⟩

/-! ## The call transition -/

/-- The table of 47_session.md R262: a state-valid frame enters NEW, continues the call or does neither, and may end the
call it enters or continues. -/
theorem callStep_eq (n : Nat) (m : Memory) (f : Nat) (k : FrameKind) (se : Session) :
    callStep n m f k se =
      ⟨{ (if entersNew m f k se then enterNew n m f k se else se) with
          call := if endsNow m f k se then .ended else if entersNew m f k se then .new
            else if continuesCall m f k se then .streaming else se.call },
        entersNew m f k se || continuesCall m f k se, entersNew m f k se, endsNow m f k se⟩ := by
  unfold callStep entersNew continuesCall endsNow Session.inCall
  simp only [sameStream_eq, startsCall_eq, endsCall_eq]
  obtain ⟨link, call, _⟩ := se
  cases call with
  | idle | lost => cases frameStarts m f k <;> rfl
  | new | streaming => cases frameSame m f k _ <;> cases frameEnds m f k <;> rfl
  | ended => cases frameSame m f k _ <;> cases frameStarts m f k <;> rfl

/-- The session after a state-valid frame of kind `k`, before reassembly: watchdogs, call transition and count
(47_session.md R262 to R267). -/
def movedSession (n : Nat) (m : Memory) (f : Nat) (k : FrameKind) (se : Session) : Session :=
  { se with
    wdogCnt := 0
    linkWdog := 0
    call := if endsNow m f k se then .ended else if entersNew m f k se then .new
      else if continuesCall m f k se then .streaming else se.call
    activeSid := if entersNew m f k se then frameReg m f k.fSid else se.activeSid
    srcId := if entersNew m f k se then frameReg m f k.fSrc else se.srcId
    dstId := if entersNew m f k se then frameReg m f k.fDst else se.dstId
    frameCnt := if entersNew m f k se then 1 else if continuesCall m f k se then se.frameCnt + 1 else se.frameCnt
    fragPresent := if entersNew m f k se then 0 else se.fragPresent
    fragBuf := if entersNew m f k se then Bits.zeros n else se.fragBuf }

section
variable (n : Nat) (m : Memory) (f : Nat) (k : FrameKind) (se : Session)

/-- The transition and the count of the model together leave `movedSession`. -/
theorem countFrame_callStep :
    (let c := callStep n m f k (clearWatchdogs se)
     if c.accepted then countFrame c.session else c.session) = movedSession n m f k se := by
  have henters : entersNew m f k (clearWatchdogs se) = entersNew m f k se := rfl
  have hcontinues : continuesCall m f k (clearWatchdogs se) = continuesCall m f k se := rfl
  have hends : endsNow m f k (clearWatchdogs se) = endsNow m f k se := rfl
  simp only [callStep_eq, henters, hcontinues, hends, movedSession, ← fieldWord_eq]
  cases entersNew m f k se <;> cases continuesCall m f k se <;> rfl

/-- The call is active after the transition when the frame entered or continued it and did not end it. -/
theorem movedSession_active :
    (movedSession n m f k se).call.active
      = ((entersNew m f k se || continuesCall m f k se) && !endsNow m f k se) := by
  unfold movedSession entersNew continuesCall endsNow Session.inCall
  obtain ⟨link, call, _⟩ := se
  cases call with
  | idle | lost => cases frameStarts m f k <;> rfl
  | new | streaming => cases frameSame m f k _ <;> cases frameEnds m f k <;> rfl
  | ended => cases frameSame m f k _ <;> cases frameStarts m f k <;> rfl

/-- The transition accepts the frames that enter or continue a call, and reports the calls that begin and end. -/
theorem callStep_flags :
    let c := callStep n m f k (clearWatchdogs se)
    c.accepted = (entersNew m f k se || continuesCall m f k se) ∧ c.newcall = entersNew m f k se
      ∧ c.endcall = endsNow m f k se := by
  rw [callStep_eq]
  exact ⟨rfl, rfl, rfl⟩

end

/-- No fragment is taken while the call is not active (47_session.md R270). -/
theorem reassemble_of_inactive {se : Session} (h : se.call.active = false) (p : Params) (d : Descriptor) (k : FrameKind)
    (m : Memory) (w f : Nat) : reassemble p d k m w f se = ⟨se, m, false, .none⟩ := by
  rcases reassemble_cases p d k m w f se with hr | ⟨_, _, _, _, _, _, ha, _⟩
  · exact hr
  · exact absurd ha (by simp [h])

/-- No fragment is taken from a kind without a fragment index (47_session.md R270). -/
theorem reassemble_of_no_index {k : FrameKind} (h : k.fFragidx = none) (p : Params) (d : Descriptor) (m : Memory)
    (w f : Nat) (se : Session) : reassemble p d k m w f se = ⟨se, m, false, .none⟩ := by
  rcases reassemble_cases p d k m w f se with hr | ⟨_, _, _, _, hi, _⟩
  · exact hr
  · exact absurd hi (by simp [h])

theorem reassemble_of_active {d : Descriptor} {k : FrameKind} {e : Embedded} {xi xf : Field} {se : Session}
    (he : d.embedded = some e) (hi : k.fFragidx = some xi) (hf : k.fFrag = some xf) (ha : se.call.active = true)
    (p : Params) (m : Memory) (w f : Nat) : reassemble p d k m w f se = takeFragment p d e m w f xi xf se := by
  simp only [reassemble, he, hi, hf, ha, if_true]

section
variable (s : State) (d : Descriptor) (w f : Nat) {y : Parsed}

/-- Reassembly starts from the moved session, and does nothing for a frame that was not accepted. -/
theorem reassemble_callStep :
    (let c := callStep s.par.reasmMax y.prog.mem f y.kind (clearWatchdogs s.session)
      if c.accepted then reassemble s.par d y.kind y.prog.mem w f (countFrame c.session)
      else ⟨c.session, y.prog.mem, false, .none⟩)
      = reassemble s.par d y.kind y.prog.mem w f (movedSession s.par.reasmMax y.prog.mem f y.kind s.session) := by
  have hmoved := countFrame_callStep s.par.reasmMax y.prog.mem f y.kind s.session
  obtain ⟨hacc, _, _⟩ := callStep_flags s.par.reasmMax y.prog.mem f y.kind s.session
  simp only [hacc] at hmoved ⊢
  cases haccepted : entersNew y.prog.mem f y.kind s.session || continuesCall y.prog.mem f y.kind s.session with
  | true =>
    rw [haccepted, if_pos rfl] at hmoved
    rw [if_pos rfl, hmoved]
  | false =>
    rw [haccepted, if_neg Bool.false_ne_true] at hmoved
    rw [if_neg Bool.false_ne_true, hmoved, reassemble_of_inactive]
    rw [movedSession_active, haccepted, Bool.false_and]

/-- What SRXF leaves for a state-valid frame: the moved session through reassembly (47_session.md R260). -/
theorem receive_of_valid (hc : y.prog.ctl = .none) (hv : y.prog.voice = .none) :
    let x := reassemble s.par d y.kind y.prog.mem w f (movedSession s.par.reasmMax y.prog.mem f y.kind s.session)
    s.receive d w f y =
      s.finish x.mem x.session
        { err := x.msg, valid := true, corr := sat8 y.prog.corr, msgrdy := x.msgrdy
          newcall := entersNew y.prog.mem f y.kind s.session, endcall := endsNow y.prog.mem f y.kind s.session
          payload := (entersNew y.prog.mem f y.kind s.session || continuesCall y.prog.mem f y.kind s.session)
            && y.kind.cls == .voice && y.kind.fPayload.isSome }
        (BitVec.ofNat 32 y.index) (classCode y.kind.cls) := by
  intro x
  have hx : _ = x := reassemble_callStep s d w f
  obtain ⟨hacc, hnew, hend⟩ := callStep_flags s.par.reasmMax y.prog.mem f y.kind s.session
  have hreceive : s.receive d w f y = s.validFrame d w f y := by simp [State.receive, hc, hv]
  rw [hreceive, State.validFrame]
  dsimp only at hx ⊢
  rw [hx]
  simp only [hacc, hnew, hend, hc, hv, ProgState.status, carriesPayload, Bool.and_assoc]
  rfl

end

section
variable {s : State} {len dst src : BitVec 16} {d : Descriptor} {y : Parsed}
  (hready : SrxfReady s src.toNat len.toNat dst.toNat d)
  (hvalid : StateValid s src.toNat len.toNat dst.toNat d y)
include hready hvalid

/-- SRXF with a state-valid frame (47_session.md R260). -/
theorem exec_srxf_valid : exec (.srxf len dst src) s = .next (s.receive d src.toNat dst.toNat y) := by
  rw [exec_srxf hready, hvalid.parsed, Option.elim_some]

end

/-- Settles O50: the session is `movedSession` but for the fragment buffer, which reassembly alone changes. -/
theorem srxfMovesTheCall : Obligations.SrxfMovesTheCall := by
  intro s len dst src d y hready hvalid m f se enters continues ends
  have hwf := State.backend_wf hready.backend
  have hexec := exec_srxf_valid hready hvalid
  rw [receive_of_valid s d _ _ hvalid.control hvalid.voice] at hexec
  have hsession := reassemble_session s.par d y.kind m src.toNat f (movedSession s.par.reasmMax m f y.kind se)
  have hkept := (parseFrame_keptOutside s.cfg.wf hwf hvalid.parsed).trans
    (reassemble_keptOutside s.cfg.wf hwf y.kind m src.toNat len.toNat f (movedSession s.par.reasmMax m f y.kind se))
  generalize reassemble s.par d y.kind m src.toNat f (movedSession s.par.reasmMax m f y.kind se) = x
    at hexec hsession hkept
  obtain ⟨se', m', msgrdy, msg⟩ := x
  obtain ⟨present, buf, rfl⟩ : ∃ present buf,
      se' = { movedSession s.par.reasmMax m f y.kind se with fragPresent := present, fragBuf := buf } :=
    ⟨_, _, hsession⟩
  exact ⟨_, hexec, rfl, rfl, rfl, rfl, rfl, rfl, rfl, rfl, rfl, rfl, rfl, rfl, s.finish_keepsPort .., hkept⟩

/-! ## Reassembly -/

theorem allPresent_iff (n : Nat) (present : BitVec 16) :
    allPresent n present = true ↔ ∀ j < n, present.getLsbD j = true := by
  simp [allPresent]

/-- A stored fragment takes its place in the buffer (47_session.md R270). -/
theorem storeFragment_fragBuf (e : Embedded) (i : Nat) {frag : Bits} (h : frag.length = e.fragBits) (se : Session) :
    (storeFragment e i frag se).fragBuf
      = se.fragBuf.take (i * e.fragBits) ++ frag ++ se.fragBuf.drop ((i + 1) * e.fragBits) := by
  simp only [storeFragment, Bits.splice, h, Nat.succ_mul]

section
variable (p : Params) (d : Descriptor) (e : Embedded) (m : Memory) (w f : Nat) (xi xf : Field) (se : Session)

/-- A fragment whose index is too large is ignored (47_session.md R270). -/
theorem takeFragment_of_ge (h : e.nfrag ≤ fieldVal m f xi) :
    takeFragment p d e m w f xi xf se = ⟨se, m, false, .none⟩ := by
  simp only [takeFragment, if_neg (Nat.not_lt.mpr h)]

/-- A stored fragment that completes no message (47_session.md R270). -/
theorem takeFragment_of_missing (h : fieldVal m f xi < e.nfrag)
    (hmissing : allPresent e.nfrag (se.fragPresent ||| (1#16 <<< fieldVal m f xi)) ≠ true) :
    takeFragment p d e m w f xi xf se
      = ⟨storeFragment e (fieldVal m f xi) (m.readBits (f + xf.off) e.fragBits) se, m, false, .none⟩ := by
  simp only [takeFragment, if_pos h]
  exact if_neg hmissing

/-- A stored fragment that completes the message has it checked (47_session.md R270). -/
theorem takeFragment_of_complete (h : fieldVal m f xi < e.nfrag)
    (hall : allPresent e.nfrag (se.fragPresent ||| (1#16 <<< fieldVal m f xi)) = true) :
    takeFragment p d e m w f xi xf se = completeMessage p d e m w f
      (storeFragment e (fieldVal m f xi) (m.readBits (f + xf.off) e.fragBits) se) := by
  simp only [takeFragment, if_pos h]
  exact if_pos hall

end

/-- Settles O51: the moved session is active when the frame carries a fragment, and then `takeFragment` says what
happens to it; otherwise reassembly does nothing. -/
theorem srxfReassembles : Obligations.SrxfReassembles := by
  intro s len dst src d y hready hvalid m f enters buf present carries
  have hexec := exec_srxf_valid hready hvalid
  rw [receive_of_valid s d _ _ hvalid.control hvalid.voice] at hexec
  have hactive : (movedSession s.par.reasmMax m f y.kind s.session).call.active = carries := movedSession_active ..
  refine ⟨_, hexec, fun hnone => ?nothing, fun e xi xf he hi hf hcarries => ?fragment⟩
  case nothing =>
    have hx : reassemble s.par d y.kind m src.toNat f (movedSession s.par.reasmMax m f y.kind s.session)
        = ⟨movedSession s.par.reasmMax m f y.kind s.session, m, false, .none⟩ := by
      rcases hnone with hidx | hcarries
      · exact reassemble_of_no_index hidx ..
      · exact reassemble_of_inactive (hactive.trans hcarries) ..
    rw [hx]
    exact ⟨rfl, rfl, rfl, rfl, rfl⟩
  case fragment =>
    intro i buf' present' full x
    let moved := movedSession s.par.reasmMax m f y.kind s.session
    have hbuf : (storeFragment e i (m.readBits (f + xf.off) e.fragBits) moved).fragBuf = buf' :=
      storeFragment_fragBuf e i (Memory.length_readBits ..) moved
    have hfull : allPresent e.nfrag present' = true ↔ full := allPresent_iff e.nfrag present'
    have hcheck := completeMessage_cases s.par d e m src.toNat f
      (storeFragment e i (m.readBits (f + xf.off) e.fragBits) moved)
    have hcomplete := takeFragment_of_complete s.par d e m src.toNat f xi xf moved
    have hmissing := takeFragment_of_missing s.par d e m src.toNat f xi xf moved
    rw [hbuf] at hcheck
    rw [reassemble_of_active he hi hf (hactive.trans hcarries)]
    refine ⟨fun hge => ?ignored, fun hlt hnot => ?stored, fun hlt hall hok => ?checked, fun hlt hall hbad => ?failed⟩
    case ignored =>
      rw [takeFragment_of_ge (h := hge)]
      exact ⟨rfl, rfl, rfl, rfl, rfl⟩
    case stored =>
      rw [hmissing hlt (mt hfull.mp hnot)]
      exact ⟨hbuf, rfl, rfl, rfl, rfl⟩
    case checked =>
      obtain ⟨_, hdone⟩ := hcheck.resolve_right fun h => h.1 hok
      rw [(hcomplete hlt (hfull.mpr hall)).trans hdone]
      exact ⟨rfl, rfl, rfl, rfl, rfl⟩
    case failed =>
      obtain ⟨_, hdone⟩ := hcheck.resolve_left fun h => hbad h.1
      rw [(hcomplete hlt (hfull.mpr hall)).trans hdone]
      exact ⟨hbuf, rfl, rfl, rfl, rfl⟩

end Sys2Proof.Machine
end

section
/-! Transmitting (47_session.md R277 to R281): the keepalive step, the frame that each transmit state sends, and
STXT. -/

namespace Sys2Proof.Machine

/-! ## The keepalive -/

/-- The keepalive step changes KA_CNT alone (47_session.md R281). -/
theorem keepaliveStep_eq (d : Descriptor) (se : Session) :
    keepaliveStep d se =
      { se with kaCnt := if keepaliveDue d se then 0 else if d.kaInterval = 0 then se.kaCnt else se.kaCnt + 1 } := by
  unfold keepaliveStep
  cases keepaliveDue d se with
  | true => rfl
  | false => by_cases h : d.kaInterval = 0 <;> simp [h, Nat.pos_iff_ne_zero]

/-- The fields a frame carries do not depend on KA_CNT (47_session.md R278). -/
theorem putFields_keepaliveStep (d : Descriptor) (k : FrameKind) (eot : Bool) (se : Session) (m : Memory) (f : Nat) :
    putFields d k eot (keepaliveStep d se) m f = putFields d k eot se m f := by
  rw [keepaliveStep_eq]
  rfl

/-! ## The frame of a transmit state -/

/-- The kind a transmit state sends (47_session.md R277). -/
def txKind (x : TxKinds) : TxPhase → Nat
  | .header => x.header
  | .stream => x.voice
  | .ending | .idle => x.term

/-- The end flag of the frame a transmit state sends (47_session.md R277). -/
def txEot : TxPhase → Bool
  | .ending => true
  | .header | .stream | .idle => false

/-- The session after the frame of its transmit state (47_session.md R277, R278). -/
def afterFrame (ph : TxPhase) (se : Session) : Session :=
  match ph with
  | .header => { se with txSeq := se.txSeq + 1, txs := if se.stopReq then .ending else .stream, stopReq := false }
  | .stream => { se with txSeq := se.txSeq + 1 }
  | .ending => { se with txs := .idle, stopReq := false, txSid := 0, txSeq := 0 }
  | .idle => se

/-- A transmit state has a frame to send: any but TX_IDLE, the stream only with a payload queued (47_session.md
R277). -/
def hasFrame (queued : Bool) : TxPhase → Bool
  | .header | .ending => true
  | .stream => queued
  | .idle => false

/-- The transmit kinds of a well-formed descriptor exist, and are no longer than the frame region (47_session.md
R277). -/
theorem txKind_exists {s : State} {d : Descriptor} (hb : s.backend = some d) {x : TxKinds} (hx : d.tx = some x)
    (ph : TxPhase) : ∃ kd, d.kinds[txKind x ph]? = some kd ∧ kd.lenBits ≤ s.txBits := by
  obtain ⟨⟨h, hh⟩, ⟨v, hv⟩, ⟨t, ht⟩⟩ := txKinds_exist (State.backend_wf hb) hx
  have hbits : s.txBits = max (max h.lenBits v.lenBits) t.lenBits := by
    simp [State.txBits, hb, hx, Descriptor.lenOf, hh, hv, ht]
  cases ph with
  | header => exact ⟨h, hh, by omega⟩
  | stream => exact ⟨v, hv, by omega⟩
  | ending | idle => exact ⟨t, ht, by omega⟩

section
variable {p : Params} {d : Descriptor} {x : TxKinds} {queued : Bool} {se : Session}

theorem txTick_silent (h : hasFrame queued se.txs = false) (m : Memory) (w f : Nat) :
    txTick p d x queued se m w f = .silent m se := by
  cases htxs : se.txs with
  | idle => simp only [txTick, htxs]
  | header | ending => simp [htxs, hasFrame] at h
  | stream =>
    have hq : queued = false := by simpa [htxs, hasFrame] using h
    simp [txTick, htxs, hq]

/-- A transmit state with a frame to send sends it (47_session.md R277, R278). -/
theorem txTick_sent {kd : FrameKind} (h : hasFrame queued se.txs = true)
    (hk : d.kinds[txKind x se.txs]? = some kd) (m : Memory) (w f : Nat) :
    txTick p d x queued se m w f =
      ⟨buildFrame p d kd (putFields d kd (txEot se.txs) se m f) w f, afterFrame se.txs se, true,
        BitVec.ofNat 32 kd.lenBits, BitVec.ofNat 32 (txKind x se.txs)⟩ := by
  cases htxs : se.txs with
  | idle => simp [htxs, hasFrame] at h
  | header | stream | ending =>
    rw [htxs] at h hk
    simp only [txKind] at hk
    simp only [hasFrame] at h
    simp [txTick, htxs, emit_some hk, afterFrame, txKind, txEot, h]

end

section
variable {s : State} {d : Descriptor} {queued : Bool}

/-- A transmit tick with nothing to send does the keepalive step alone (47_session.md R277). -/
theorem transmit_silent (h : hasFrame queued s.session.txs = false ∨ d.tx = none) (w f : Nat) :
    s.transmit d queued w f =
      s.finish s.dmem (keepaliveStep d s.session) { valid := true, kadue := keepaliveDue d s.session } 0 0 := by
  have htxs : (keepaliveStep d s.session).txs = s.session.txs := by rw [keepaliveStep_eq]
  unfold State.transmit
  cases hx : d.tx with
  | none => rfl
  | some x =>
    have hno : hasFrame queued (keepaliveStep d s.session).txs = false := by
      simpa [hx, htxs] using h
    simp only [txTick_silent hno]
    rfl

/-- A transmit tick with a frame to send (47_session.md R277, R278). -/
theorem transmit_sent (hb : s.backend = some d) {x : TxKinds} (hx : d.tx = some x)
    (h : hasFrame queued s.session.txs = true) (w f : Nat) :
    ∃ kd, d.kinds[txKind x s.session.txs]? = some kd ∧ kd.lenBits ≤ s.txBits ∧ s.transmit d queued w f =
      s.finish (buildFrame s.par d kd (putFields d kd (txEot s.session.txs) s.session s.dmem f) w f)
        (afterFrame s.session.txs (keepaliveStep d s.session))
        { valid := true, txframe := true, kadue := keepaliveDue d s.session }
        (BitVec.ofNat 32 kd.lenBits) (BitVec.ofNat 32 (txKind x s.session.txs)) := by
  have htxs : (keepaliveStep d s.session).txs = s.session.txs := by rw [keepaliveStep_eq]
  obtain ⟨kd, hkd, hlen⟩ := txKind_exists hb hx s.session.txs
  refine ⟨kd, hkd, hlen, ?_⟩
  have hsent := txTick_sent (p := s.par) (htxs ▸ h) (htxs ▸ hkd) s.dmem w f
  rw [htxs, putFields_keepaliveStep] at hsent
  simp only [State.transmit, hx, hsent]

end

/-! ## The command -/

/-- STXT in CONNECTED with legal regions is a transmit tick (47_session.md R277). -/
theorem exec_stxt {s : State} {var : BitVec 4} {dst src : BitVec 16} {d : Descriptor} (hvar : var.toNat ≤ 1)
    (h : StxtReady s dst.toNat src.toNat d) :
    exec (.stxt var dst src) s = .next (s.transmit d (var == 1) dst.toNat src.toNat) := by
  obtain ⟨hlink, hb, hwire, hfield, hapart⟩ := h
  refine congrArg Host.Outcome.next ((checked_pass ?pass s _).trans ?body)
  case pass =>
    simp [State.fieldBits_of_backend hb, hvar, Params.fits_eq_true.mpr hwire, Params.fits_eq_true.mpr hfield, hapart]
  case body => simp only [hb, hlink, ne_eq, not_true_eq_false, if_false]

/-- A built frame leaves DMEM outside the frame region and the field block alone (47_session.md R278). -/
theorem sentFrame_keptOutside {s : State} {d : Descriptor} (hb : s.backend = some d) {k : Nat} {kd : FrameKind}
    (hk : d.kinds[k]? = some kd) (hlen : kd.lenBits ≤ s.txBits) (eot : Bool) (w f : Nat) :
    KeptOutside s.dmem (buildFrame s.par d kd (putFields d kd eot s.session s.dmem f) w f) w s.txBits f
      d.fieldBits := by
  have hkd := kind_wf (State.backend_wf hb) hk
  exact (putFields_keptOutside hkd ..).trans (buildFrame_keptOutside s.cfg.wf hkd _ w f hlen)

/-- Settles O54: from `transmit_silent` and `transmit_sent`, the latter for each transmit state. -/
theorem stxtTransmits : Obligations.StxtTransmits := by
  intro s var dst src d hvar hready due ka se sent
  have hka : keepaliveStep d s.session = se := keepaliveStep_eq d s.session
  have hsent : ∀ (x : TxKinds) (ph : TxPhase), d.tx = some x → s.session.txs = ph → hasFrame (var == 1) ph = true →
      sent (s.transmit d (var == 1) dst.toNat src.toNat) (txKind x ph) (txEot ph) (afterFrame ph se) := by
    rintro x _ hx rfl hframe
    obtain ⟨kd, hkd, hlen, htransmit⟩ := transmit_sent hready.backend hx hframe dst.toNat src.toNat
    rw [htransmit, hka]
    exact ⟨kd, hkd, State.finish_frameDone (sentFrame_keptOutside hready.backend hkd hlen ..) ..⟩
  refine ⟨_, exec_stxt hvar hready, fun hnone => ?silent, fun x hx htxs => ?header, fun x hx htxs hv => ?voice,
    fun x hx htxs => ?ending⟩
  case silent =>
    have hno : hasFrame (var == 1) s.session.txs = false ∨ d.tx = none := by
      rcases hnone with htxs | htx | ⟨htxs, rfl⟩
      · simp [htxs, hasFrame]
      · exact .inr htx
      · simp [htxs, hasFrame]
    rw [transmit_silent hno, hka]
    exact s.finish_sessionDone ..
  case header => exact hsent x .header hx htxs rfl
  case voice => exact hsent x .stream hx htxs (by simp [hasFrame, hv])
  case ending => exact hsent x .ending hx htxs rfl

end Sys2Proof.Machine
end

section
/-! What a command can do to DMEM's list of bytes, said once per operation that writes: the canonical form and the size
of DMEM are kept (10_state.md R21). -/

namespace Sys2Proof.Machine

/-- The memory is in canonical form and lists only bytes below `n`. -/
def Memory.Inside (m : Memory) (n : Nat) : Prop :=
  m.wf ∧ ∀ c ∈ m.cells, c.1 < n

theorem Memory.Inside.setByte {m : Memory} {n a : Nat} (h : m.Inside n) (ha : a < n) (v : Byte) :
    (m.setByte a v).Inside n := by
  refine ⟨Memory.setByte_wf h.1 a v, fun c hc => ?_⟩
  rcases mem_insertCell hc with rfl | hc
  · exact ha
  · exact h.2 c hc

theorem Memory.Inside.writeBits {m : Memory} {n a : Nat} {v : Bits} (h : m.Inside n)
    (hv : v = [] ∨ a + v.length ≤ 8 * n) : (m.writeBits a v).Inside n := by
  rcases hv with rfl | hv
  · exact h
  · exact ⟨Memory.writeBits_wf h.1 a v, Memory.writeBits_inside h.2 a v hv⟩

/-- A codec rule whose checks pass writes inside DMEM. -/
theorem codecRule_inside {op : StepOp} {sel : BitVec 4} {x : Operands} {s : State}
    (hpass : (codecChecks op s.par sel x).all (·.2) = true) (h : s.dmem.Inside s.par.dmemBytes) :
    ((stepRule op s.par (s.par.descFor sel) s.dmem x).store s.dmem).Inside s.par.dmemBytes := by
  simp only [codecChecks, List.all_cons, Bool.and_eq_true, Params.fits_eq_true, Params.dmemBits] at hpass
  obtain ⟨_, _, hlen, ⟨hsrc, hdst⟩, _⟩ := hpass
  refine h.writeBits ?_
  rcases stepRule_range s.cfg.wf op (s.par.descFor sel) s.dmem x hlen with hnil | ⟨_, ha, hl⟩ | ⟨_, _, hl⟩
  · exact .inl hnil
  · exact .inr (by rw [ha, hl]; exact hdst)
  · exact .inr (hl.trans hsrc)

/-- A sync of a well-formed kind lies inside its frame (46_frame.md R218, condition 3). -/
theorem sync_inside_frame {vitMax : Nat} {d : Descriptor} {kd : FrameKind} (hk : kd.wf vitMax d = true) :
    ∀ y ∈ kd.syncs, y.off + y.n ≤ kd.lenBits := by
  intro y hy
  simp only [FrameKind.wf, Bool.and_eq_true, List.all_eq_true] at hk
  obtain ⟨⟨⟨⟨⟨⟨⟨⟨⟨⟨⟨⟨_, hsyncs⟩, _⟩, _⟩, _⟩, _⟩, _⟩, _⟩, _⟩, _⟩, _⟩, _⟩, _⟩ := hk
  obtain ⟨_, _, hregion, _⟩ := of_decide_eq_true (hsyncs y hy)
  exact hregion

section
variable {d : Descriptor} {w f n : Nat} {m : Memory} (h : m.Inside n)
include h

theorem Memory.Inside.putField (hf : f + d.fieldBits ≤ 8 * n) {o : Option Field} {lo hi : Nat}
    (ho : fieldWf d lo hi o = true) (v : Nat) : (putField m f o v).Inside n := by
  cases o with
  | none => exact h
  | some x =>
    have hx : lo ≤ x.width ∧ x.width ≤ hi ∧ x.off + x.width ≤ d.fieldBits := by simpa [fieldWf] using ho
    exact h.writeBits (.inr (by rw [Bits.length_ofNat]; omega))

theorem Memory.Inside.putFields {vitMax : Nat} {kd : FrameKind} (hk : kd.wf vitMax d = true)
    (hf : f + d.fieldBits ≤ 8 * n) (eot : Bool) (se : Session) : (putFields d kd eot se m f).Inside n := by
  simp only [FrameKind.wf, Bool.and_eq_true] at hk
  obtain ⟨⟨⟨⟨⟨⟨⟨⟨⟨_, hsid⟩, hsrc⟩, hdst⟩, hseq⟩, heot⟩, _⟩, _⟩, _⟩, _⟩ := hk
  exact ((((h.putField hf hsid _).putField hf hsrc _).putField hf hdst _).putField hf hseq _).putField hf heot _

theorem Memory.Inside.writeSyncs {l : List Sync} (hl : ∀ y ∈ l, w + (y.off + y.n) ≤ 8 * n) :
    (l.foldl (writeSync w) m).Inside n := by
  induction l generalizing m with
  | nil => exact h
  | cons y r ih =>
    have hy := hl y List.mem_cons_self
    exact ih (h.writeBits (.inr (by rw [Bits.length_ofNat]; omega))) fun z hz => hl z (List.mem_cons_of_mem _ hz)

end

section
variable {p : Params} (hp : p.wf = true) {d : Descriptor} {w f n : Nat} {m : Memory}
include hp

theorem Memory.Inside.buildFrame {kd : FrameKind} (hk : kd.wf p.vitMax d = true) (hw : w + kd.lenBits ≤ 8 * n)
    (hf : f + d.fieldBits ≤ 8 * n) (h : m.Inside n) : (buildFrame p d kd m w f).Inside n := by
  have hcleared := h.writeBits (a := w) (v := Bits.zeros kd.lenBits) (.inr (by rw [Bits.length_zeros]; exact hw))
  have hsynced := hcleared.writeSyncs (w := w) fun y hy => (Nat.add_le_add_left (sync_inside_frame hk y hy) w).trans hw
  exact runProg_inside hp (kind_progs hk).2 (fun l hl => (Option.some.inj hl).ge) hw hf hsynced

variable (hd : d.wf p.vitMax p.reasmMax = true)
include hd

theorem Memory.Inside.parseFrame {l : Nat} {y : Parsed} (hy : parseFrame p d m w l f = some y) (hw : w + l ≤ 8 * n)
    (hf : f + d.fieldBits ≤ 8 * n) (h : m.Inside n) : y.prog.mem.Inside n := by
  obtain ⟨hc, hk, hprog⟩ := parseFrame_eq_some hy
  obtain ⟨kd, hkd, hlen⟩ := classify_kind hc
  obtain rfl : y.kind = kd := Option.some.inj (hk.symm.trans hkd)
  rw [hprog]
  exact runProg_inside hp (kind_progs (kind_wf hd hk)).1 (fun j hj => (Option.some.inj hj) ▸ hlen.le) hw hf
    (h.writeBits (.inr (by rw [Bits.length_zeros]; exact hf)))

theorem Memory.Inside.reassemble (hw : w ≤ 8 * n) (hf : f + d.fieldBits ≤ 8 * n) (h : m.Inside n) (k : FrameKind)
    (se : Session) : (reassemble p d k m w f se).mem.Inside n := by
  rcases reassemble_cases p d k m w f se with hr | ⟨e, xi, xf, he, _, _, _, _, ⟨_, hr⟩ | ⟨_, hr⟩⟩
  · rw [hr]; exact h
  · rw [hr]; exact h
  · have hwf := embedded_wf hd he
    simp only [Embedded.wf, Bool.and_eq_true, decide_eq_true_eq] at hwf
    obtain ⟨⟨_, _, _, _, hoff⟩, hprog⟩ := hwf
    let se' := storeFragment e (fieldVal m f xi) (m.readBits (f + xf.off) e.fragBits) se
    have htake := List.length_take_le (e.nfrag * e.fragBits) se'.fragBuf
    have hcheck := runProg_inside (w := w) (k := 0) hp hprog (by simp) hw hf
      (h.writeBits (a := f + e.msgOff) (v := se'.fragBuf.take (e.nfrag * e.fragBits)) (.inr (by omega)))
    rw [hr]
    rcases completeMessage_cases p d e m w f se' with ⟨_, hdone⟩ | ⟨_, hdone⟩ <;>
    · rw [hdone]
      exact hcheck

end

/-! ## What a command can do

Every command faults, records the configuration error, or completes with DMEM kept in its form and the session moved in
one of the ways listed here. -/

/-- A command that leaves the memory `m` keeps the form of DMEM. -/
def State.KeepsInside (s : State) (m : Memory) : Prop :=
  s.dmem.Inside s.par.dmemBytes → m.Inside s.par.dmemBytes

theorem State.keepsInside_self (s : State) : s.KeepsInside s.dmem := id

/-- The sessions each command can leave in a state `s`, with the STATUS and RES2 that come with them where they tell the
moves apart (47_session.md R250 to R281). -/
inductive SessionMove (s : State) : Instr → Session → Status → Word → Prop
  | kept (i : Instr) (st : Status) (r2 : Word) : SessionMove s i s.session st r2
  | connect (var sel : BitVec 4) (src : BitVec 16) (st : Status) (r2 : Word)
      (hlink : s.session.link = .disconnected) (hslot : (s.par.slot sel).isSome = true) :
      SessionMove s (.scon var sel src) (connectSession s.dmem s.session sel src.toNat) st r2
  | linkUp (var : BitVec 4) (d : Descriptor) (st : Status) (r2 : Word) (hlink : s.session.link = .connecting) :
      SessionMove s (.slnk var) { s.session with link := linkUpState d, linkWdog := 0 } st r2
  | authOk (var : BitVec 4) (st : Status) (r2 : Word) (hlink : s.session.link = .auth) :
      SessionMove s (.slnk var) { s.session with link := .connected, linkWdog := 0 } st r2
  | authFail (r2 : Word) (hlink : s.session.link = .auth) :
      SessionMove s (.slnk 2) s.sessionReset { err := .authFail } r2
  | peerAlive (var : BitVec 4) (st : Status) (r2 : Word) (hlink : s.session.link ≠ .disconnected) :
      SessionMove s (.slnk var) { s.session with linkWdog := 0 } st r2
  | disconnect (st : Status) (r2 : Word) : SessionMove s .sdis s.sessionReset st r2
  | receive (len dst src : BitVec 16) (d : Descriptor) (k : FrameKind) (m : Memory) (w f : Nat) (st : Status)
      (r2 : Word) (hb : s.backend = some d) (hlink : s.session.link = .connected) :
      SessionMove s (.srxf len dst src)
        (reassemble s.par d k m w f (movedSession s.par.reasmMax m f k s.session)).session st r2
  | linkTimeout (var : BitVec 4) (r2 : Word) :
      SessionMove s (.srxt var) s.sessionReset { err := .linkTimeout } r2
  | linkTick (var : BitVec 4) (d : Descriptor) (st : Status) (r2 : Word) (hb : s.backend = some d)
      (hlink : s.session.link ≠ .disconnected) (hlive : ¬ linkExpired d s.session)
      (hsetup : s.session.link ≠ .connected) : SessionMove s (.srxt var) (countLink s.session) st r2
  | callTick (var : BitVec 4) (d : Descriptor) (drained : Bool) (st : Status) (r2 : Word) (hb : s.backend = some d)
      (hlink : s.session.link = .connected) (hlive : ¬ linkExpired d s.session) :
      SessionMove s (.srxt var) (s.callTick d drained (countLink s.session)).session st r2
  | txStart (imm : BitVec 32) (d : Descriptor) (st : Status) (r2 : Word) (hb : s.backend = some d)
      (hlink : s.session.link = .connected) (htx : d.tx.isSome = true) :
      SessionMove s (.stxs imm) { s.session with txSid := imm, txSeq := 0, txs := .header, stopReq := false } st r2
  | stopRequest (st : Status) (r2 : Word) (htxs : s.session.txs = .header) :
      SessionMove s .stxe { s.session with stopReq := true } st r2
  | streamEnd (st : Status) (r2 : Word) (htxs : s.session.txs = .stream) :
      SessionMove s .stxe { s.session with txs := .ending } st r2
  | txSilent (var : BitVec 4) (dst src : BitVec 16) (d : Descriptor) (st : Status) (r2 : Word)
      (hb : s.backend = some d) (hlink : s.session.link = .connected) :
      SessionMove s (.stxt var dst src) (keepaliveStep d s.session) st r2
  | txSent (var : BitVec 4) (dst src : BitVec 16) (d : Descriptor) (x : TxKinds) (st : Status)
      (hb : s.backend = some d) (hlink : s.session.link = .connected) (hx : d.tx = some x) (hst : st.txframe = true) :
      SessionMove s (.stxt var dst src) (afterFrame s.session.txs (keepaliveStep d s.session)) st
        (BitVec.ofNat 32 (txKind x s.session.txs))

/-- The states a command can leave (60_exceptions.md R301, R351). -/
inductive CommandOutcome (s : State) (i : Instr) : State → Prop
  | fault (x : ErrCode) (hx : x.isFault = true) : CommandOutcome s i (s.takeFault x)
  | configError : CommandOutcome s i s.configError
  | done (m : Memory) (se : Session) (st : Status) (r r2 : Word) (hm : s.KeepsInside m)
      (hse : SessionMove s i se st r2) : CommandOutcome s i (s.finish m se st r r2)

/-- A command goes on, with one of its outcomes. -/
def Completes (i : Instr) (s : State) : Prop :=
  ∃ t : State, exec i s = .next t ∧ CommandOutcome s i t

section
variable {s : State} {i : Instr}

theorem CommandOutcome.kept {m : Memory} (hm : s.KeepsInside m) (st : Status) (r r2 : Word) :
    CommandOutcome s i (s.finish m s.session st r r2) :=
  .done m s.session st r r2 hm (.kept i st r2)

theorem CommandOutcome.noEffect (x : ErrCode) : CommandOutcome s i (s.noEffect x) :=
  .kept s.keepsInside_self ..

/-- A command that changes the session alone. -/
theorem CommandOutcome.session {se : Session} {st : Status} {r2 : Word} (hse : SessionMove s i se st r2) (r : Word) :
    CommandOutcome s i (s.finish s.dmem se st r r2) :=
  .done _ se st r r2 s.keepsInside_self hse

/-- Checks that raise faults, before an outcome. -/
theorem CommandOutcome.checked {cs : List (ErrCode × Bool)} {ok : State} (hcs : ∀ c ∈ cs, c.1.isFault = true)
    (hok : cs.all (·.2) = true → CommandOutcome s i ok) : CommandOutcome s i (checked cs s ok) := by
  rcases checked_cases cs s ok with ⟨hpass, e⟩ | ⟨x, hx, e⟩
  · rw [e]
    exact hok hpass
  · rw [e]
    exact .fault x (hcs _ hx)

end

theorem completes_codec {i : Instr} (h : isCodec i = true) (s : State) : Completes i s := by
  by_cases hn : i = .nop
  · subst hn
    exact ⟨_, rfl, .kept s.keepsInside_self ..⟩
  obtain ⟨op, sel, x, he⟩ := exec_codec i h hn
  exact ⟨_, he s, .checked (fun c hc => codecChecks_isFault hc) fun hpass => .kept (codecRule_inside hpass) ..⟩

section
variable (s : State)

theorem completes_frdec (sel : BitVec 4) (len dst src : BitVec 16) : Completes (.frdec sel len dst src) s := by
  refine ⟨_, rfl, .checked (by simp [ErrCode.isFault]) fun hpass => ?_⟩
  simp only [List.all_cons, List.all_nil, Bool.and_eq_true, Params.fits_eq_true, Params.dmemBits] at hpass
  obtain ⟨hslot, _, ⟨hw, hf⟩, _⟩ := hpass
  obtain ⟨d, hd⟩ := Option.isSome_iff_exists.mp hslot
  rw [Params.descFor_of_slot hd] at hf ⊢
  split
  · exact .kept s.keepsInside_self ..
  next y hy => exact .kept (fun h => h.parseFrame s.cfg.wf (s.par.slot_wf s.cfg.wf hd) hy hw hf) ..

theorem completes_frenc (var sel : BitVec 4) (dst src : BitVec 16) : Completes (.frenc var sel dst src) s := by
  refine ⟨_, rfl, .checked (by simp [ErrCode.isFault]) fun hpass => ?_⟩
  simp only [List.all_cons, List.all_nil, Bool.and_eq_true, Params.fits_eq_true, Params.dmemBits] at hpass
  obtain ⟨⟨hslot, _⟩, ⟨hw, hf⟩, _⟩ := hpass
  obtain ⟨d, hd⟩ := Option.isSome_iff_exists.mp hslot
  rw [Params.descFor_of_slot hd] at hw hf ⊢
  split
  · exact .fault _ rfl
  next k hk =>
    rw [Descriptor.lenOf, hk] at hw
    exact .kept (fun h => h.buildFrame s.cfg.wf (kind_wf (s.par.slot_wf s.cfg.wf hd) hk) hw hf) ..

theorem completes_envp (ty : BitVec 8) (len dst src : BitVec 16) : Completes (.envp ty len dst src) s := by
  refine ⟨_, rfl, .checked (by simp [ErrCode.isFault]) fun hpass => .kept (fun h => h.writeBits (.inr ?_)) ..⟩
  simp only [List.all_cons, List.all_nil, Bool.and_eq_true, Params.fits_eq_true, Params.dmemBits] at hpass
  simp only [envelope, List.length_append, Bits.length_ofByte, Bits.length_ofNat, Memory.length_readBits]
  omega

theorem completes_envu (len dst src : BitVec 16) : Completes (.envu len dst src) s := by
  refine ⟨_, rfl, .checked (by simp [ErrCode.isFault]) fun hpass => ?_⟩
  simp only [List.all_cons, List.all_nil, Bool.and_eq_true, Params.fits_eq_true, Params.dmemBits] at hpass
  split
  · exact .kept s.keepsInside_self ..
  next hgood =>
    refine .kept (fun h => h.writeBits (.inr ?_)) ..
    rw [Memory.length_readBits]
    omega

theorem completes_scon (var sel : BitVec 4) (src : BitVec 16) : Completes (.scon var sel src) s := by
  refine ⟨_, rfl, .checked (by simp [ErrCode.isFault]) fun hpass => ?_⟩
  simp only [List.all_cons, List.all_nil, Bool.and_eq_true] at hpass
  obtain ⟨_, hslot, _⟩ := hpass
  split
  · exact .noEffect _
  split
  · exact .noEffect _
  next hlink =>
    split
    · exact .configError
    · exact .session (.connect var sel src _ _ (not_not.mp hlink) hslot) _

theorem completes_slnk (var : BitVec 4) : Completes (.slnk var) s := by
  refine ⟨_, rfl, .checked (by simp [ErrCode.isFault]) fun _ => ?_⟩
  split
  next =>
    split
    · split
      next d _ hlink => exact .session (.linkUp var d _ _ hlink) _
      · exact .noEffect _
    · exact .noEffect _
  next =>
    split
    next hlink => exact .session (.authOk var _ _ hlink) _
    · exact .noEffect _
  next hvar =>
    obtain rfl : var = 2 := BitVec.eq_of_toNat_eq hvar
    split
    next hlink => exact .session (.authFail _ hlink) _
    · exact .noEffect _
  next =>
    split
    next hlink => exact .session (.peerAlive var _ _ hlink) _
    · exact .noEffect _

theorem receive_outcome (len dst src : BitVec 16) {d : Descriptor} (hb : s.backend = some d)
    (hlink : s.session.link = .connected) {w f : Nat} {y : Parsed} (hw : w ≤ 8 * s.par.dmemBytes)
    (hf : f + d.fieldBits ≤ 8 * s.par.dmemBytes) (hy : s.KeepsInside y.prog.mem) :
    CommandOutcome s (.srxf len dst src) (s.receive d w f y) := by
  by_cases hc : y.prog.ctl = .none
  · by_cases hv : y.prog.voice = .none
    · rw [receive_of_valid s d w f hc hv]
      exact .done _ _ _ _ _ (fun h => (hy h).reassemble s.cfg.wf (State.backend_wf hb) hw hf ..)
        (.receive len dst src d _ _ w f _ _ hb hlink)
    · rw [receive_of_voice_failed hc hv]
      exact .kept hy ..
  · rw [receive_of_control_failed hc]
    exact .kept hy ..

theorem completes_srxf (len dst src : BitVec 16) : Completes (.srxf len dst src) s := by
  refine ⟨_, rfl, .checked (by simp [ErrCode.isFault]) fun hpass => ?_⟩
  simp only [List.all_cons, List.all_nil, Bool.and_eq_true, Params.fits_eq_true, Params.dmemBits] at hpass
  obtain ⟨_, ⟨hw, hf⟩, _⟩ := hpass
  split
  · exact .noEffect _
  next d hb =>
    rw [State.fieldBits_of_backend hb] at hf
    split
    · exact .noEffect _
    next hlink =>
      split
      · exact .kept s.keepsInside_self ..
      next y hy =>
        exact receive_outcome s len dst src hb (not_not.mp hlink) (by omega) hf
          fun h => h.parseFrame s.cfg.wf (State.backend_wf hb) hy hw hf

/-- A receive tick changes the session and the results alone (47_session.md R272). -/
theorem callTick_finish (d : Descriptor) (drained : Bool) (se : Session) :
    s.callTick d drained se = s.finish s.dmem (s.callTick d drained se).session (s.callTick d drained se).status
      (s.callTick d drained se).res (s.callTick d drained se).res2 := by
  rw [callTick_eq]
  repeat' split
  all_goals rfl

theorem completes_srxt (var : BitVec 4) : Completes (.srxt var) s := by
  refine ⟨_, rfl, .checked (by simp [ErrCode.isFault]) fun _ => ?_⟩
  split
  · exact .noEffect _
  next d hb =>
    split
    · exact .noEffect _
    next hup =>
      dsimp only
      split
      · exact .session (.linkTimeout var _) _
      next hlive =>
        split
        next hlink =>
          rw [callTick_finish]
          exact .session (.callTick var d _ _ _ hb hlink hlive) _
        next hlink => exact .session (.linkTick var d _ _ hb hup hlive hlink) _

theorem completes_stxs (imm : BitVec 32) : Completes (.stxs imm) s := by
  refine ⟨_, rfl, ?_⟩
  split
  · exact .noEffect _
  next d hb =>
    split
    · exact .noEffect _
    next hready =>
      simp only [not_or, not_not, Option.isNone_iff_eq_none, ← Option.isSome_iff_ne_none] at hready
      obtain ⟨hlink, _, htx⟩ := hready
      exact .session (.txStart imm d _ _ hb hlink htx) _

theorem completes_stxe : Completes .stxe s := by
  refine ⟨_, rfl, ?_⟩
  split
  next htxs => exact .session (.stopRequest _ _ htxs) _
  next htxs => exact .session (.streamEnd _ _ htxs) _
  · exact .noEffect _
  · exact .noEffect _

theorem completes_stxt (var : BitVec 4) (dst src : BitVec 16) : Completes (.stxt var dst src) s := by
  refine ⟨_, rfl, .checked (by simp [ErrCode.isFault]) fun hpass => ?_⟩
  simp only [List.all_cons, List.all_nil, Bool.and_eq_true, Params.fits_eq_true, Params.dmemBits] at hpass
  obtain ⟨_, ⟨hf, hw⟩, _⟩ := hpass
  split
  · exact .noEffect _
  next d hb =>
    rw [State.fieldBits_of_backend hb] at hf
    split
    · exact .noEffect _
    next hlink =>
      by_cases hsilent : hasFrame (var == 1) s.session.txs = false ∨ d.tx = none
      · rw [transmit_silent hsilent]
        exact .session (.txSilent var dst src d _ _ hb (not_not.mp hlink)) _
      · simp only [not_or, Bool.not_eq_false, ← ne_eq, Option.ne_none_iff_exists'] at hsilent
        obtain ⟨hframe, x, hx⟩ := hsilent
        obtain ⟨kd, hkd, hlen, hsent⟩ := transmit_sent hb hx hframe dst.toNat src.toNat
        have hwf := kind_wf (State.backend_wf hb) hkd
        rw [hsent]
        exact .done _ _ _ _ _ (fun h => (h.putFields hwf hf ..).buildFrame s.cfg.wf hwf (by omega) hf)
          (.txSent var dst src d x _ hb (not_not.mp hlink) hx rfl)

end

/-- Every command completes, in one of the ways of `CommandOutcome`. -/
theorem exec_completes (i : Instr) (s : State) : Completes i s := by
  cases i with
  | frdec sel len dst src => exact completes_frdec s sel len dst src
  | frenc var sel dst src => exact completes_frenc s var sel dst src
  | envp ty len dst src => exact completes_envp s ty len dst src
  | envu len dst src => exact completes_envu s len dst src
  | scon var sel src => exact completes_scon s var sel src
  | slnk var => exact completes_slnk s var
  | sdis => exact ⟨_, rfl, .session (.disconnect _ _) _⟩
  | srxf len dst src => exact completes_srxf s len dst src
  | srxt var => exact completes_srxt s var
  | stxs imm => exact completes_stxs s imm
  | stxe => exact completes_stxe s
  | stxt var dst src => exact completes_stxt s var dst src
  | _ => exact completes_codec rfl s

theorem exec_outcome {i : Instr} {s t : State} (h : exec i s = .next t) : CommandOutcome s i t := by
  obtain ⟨t', ht', hout⟩ := exec_completes i s
  exact Host.Outcome.next.inj (ht'.symm.trans h) ▸ hout

end Sys2Proof.Machine
end

section
/-! How a session ends and how a transmission ends (47_session.md R254, R279): of the moves of `SessionMove`, those that
leave DISCONNECTED, and those that leave TX_IDLE. -/

namespace Sys2Proof.Machine

/-! ## What the moves leave of LINK_STATE and TXS -/

section
variable (p : Params) (d : Descriptor) (k : FrameKind) (m : Memory) (w f n : Nat) (se : Session)

/-- A received frame changes neither LINK_STATE nor TXS. -/
theorem received_link_txs :
    (reassemble p d k m w f (movedSession n m f k se)).session.link = se.link
      ∧ (reassemble p d k m w f (movedSession n m f k se)).session.txs = se.txs := by
  rw [reassemble_session]
  exact ⟨rfl, rfl⟩

/-- A receive tick in CONNECTED changes neither LINK_STATE nor TXS. -/
theorem callTick_link_txs (s : State) (drained : Bool) :
    (s.callTick d drained se).session.link = se.link ∧ (s.callTick d drained se).session.txs = se.txs := by
  rw [callTick_eq]
  repeat' split
  all_goals exact ⟨rfl, rfl⟩

theorem keepaliveStep_link_txs : (keepaliveStep d se).link = se.link ∧ (keepaliveStep d se).txs = se.txs := by
  rw [keepaliveStep_eq]
  exact ⟨rfl, rfl⟩

theorem afterFrame_link (ph : TxPhase) : (afterFrame ph se).link = se.link := by
  cases ph <;> rfl

/-- Of the frames a transmit state sends, the end frame alone leads to TX_IDLE (47_session.md R277). -/
theorem afterFrame_idle (h : (afterFrame se.txs se).txs = .idle) (hs : se.txs ≠ .idle) : se.txs = .ending := by
  cases htxs : se.txs with
  | idle => exact absurd htxs hs
  | header =>
    rw [htxs] at h
    simp only [afterFrame] at h
    split at h <;> cases h
  | stream =>
    rw [htxs] at h
    exact absurd (htxs.symm.trans h) (by decide)
  | ending => rfl

end

/-! ## Leaving a link -/

section
variable {s : State} {i : Instr} {se : Session} {st : Status} {r2 : Word}

/-- The moves that return to DISCONNECTED (47_session.md R254). -/
theorem SessionMove.disconnects (h : SessionMove s i se st r2) (hs : s.session.link ≠ .disconnected)
    (ht : se.link = .disconnected) :
    (i = .slnk 2 ∧ s.session.link = .auth ∧ st.err = .authFail) ∨ i = .sdis
      ∨ ∃ var : BitVec 4, i = .srxt var ∧ st.err = .linkTimeout := by
  cases h with
  | authFail _ hlink => exact .inl ⟨rfl, hlink, rfl⟩
  | disconnect => exact .inr (.inl rfl)
  | linkTimeout var => exact .inr (.inr ⟨var, rfl, rfl⟩)
  | connect | authOk => cases ht
  | linkUp _ d =>
    simp only [linkUpState] at ht
    split at ht <;> cases ht
  | kept | peerAlive | linkTick | txStart | stopRequest | streamEnd => exact absurd ht hs
  | receive => exact absurd ((received_link_txs ..).1.symm.trans ht) hs
  | callTick => exact absurd ((callTick_link_txs ..).1.symm.trans ht) hs
  | txSilent => exact absurd ((keepaliveStep_link_txs ..).1.symm.trans ht) hs
  | txSent =>
    rw [afterFrame_link, (keepaliveStep_link_txs ..).1] at ht
    exact absurd ht hs

/-- The moves that return to TX_IDLE (47_session.md R279). -/
theorem SessionMove.stopsTransmission (h : SessionMove s i se st r2) (hs : s.session.txs ≠ .idle)
    (ht : se.txs = .idle) :
    se.link = .disconnected
      ∨ ∃ (var : BitVec 4) (dst src : BitVec 16) (d : Descriptor) (x : TxKinds), i = .stxt var dst src
        ∧ s.session.txs = .ending ∧ s.backend = some d ∧ d.tx = some x ∧ st.txframe = true
        ∧ r2 = BitVec.ofNat 32 x.term := by
  cases h with
  | authFail | disconnect | linkTimeout => exact .inl rfl
  | kept | connect | linkUp | authOk | peerAlive | linkTick | stopRequest => exact absurd ht hs
  | txStart | streamEnd => cases ht
  | receive => exact absurd ((received_link_txs ..).2.symm.trans ht) hs
  | callTick => exact absurd ((callTick_link_txs ..).2.symm.trans ht) hs
  | txSilent => exact absurd ((keepaliveStep_link_txs ..).2.symm.trans ht) hs
  | txSent var dst src d x _ hb _ hx hst =>
    have htxs : (keepaliveStep d s.session).txs = s.session.txs := (keepaliveStep_link_txs ..).2
    rw [← htxs] at ht hs
    have hending := htxs.symm.trans (afterFrame_idle _ ht hs)
    exact .inr ⟨var, dst, src, d, x, rfl, hending, hb, hx, hst, by rw [hending]; rfl⟩

end

/-- The commands that return to DISCONNECTED (47_session.md R254). -/
theorem exec_disconnects {i : Instr} {s t : State} (h : exec i s = .next t) (hs : s.session.link ≠ .disconnected)
    (ht : t.session.link = .disconnected) :
    (i = .slnk 2 ∧ s.session.link = .auth ∧ t.status.err = .authFail) ∨ i = .sdis
      ∨ ∃ var : BitVec 4, i = .srxt var ∧ t.status.err = .linkTimeout := by
  cases exec_outcome h with
  | fault | configError => exact absurd ht hs
  | done _ _ _ _ _ _ hse => exact hse.disconnects hs ht

/-- What running the command word can do: execute the command it decodes to, or take a fault. -/
theorem runCommand_cases {s t : State} (h : runCommand s = .next t) :
    (∃ i, decode (s.cmdHi ++ s.cmdLo) = .ok i ∧ exec i s = .next t)
      ∨ ∃ x : ErrCode, x.isFault = true ∧ t = s.takeFault x := by
  cases hd : decode (s.cmdHi ++ s.cmdLo) with
  | ok i => exact .inl ⟨i, rfl, (runCommand_of_decode_ok hd).symm.trans h⟩
  | error x =>
    have ht := Host.Outcome.next.inj ((runCommand_of_decode_error hd).symm.trans h)
    exact .inr ⟨decodeFault x, by cases x <;> rfl, ht.symm⟩

/-- Settles O57: of the host's events only a reset and a command change LINK_STATE, and `exec_disconnects` says which
commands return to DISCONNECTED. -/
theorem onlyTheseReturnToDisconnected : Obligations.OnlyTheseReturnToDisconnected := by
  refine ⟨fun s t h hs ht => ?step, fun s t len dst src h => ?srxf⟩
  case step =>
    rcases step_cases h with ⟨_, rfl⟩ | ⟨r, ⟨hp, _⟩ | ⟨_, _, _, _, heq⟩ | ⟨_, _, rfl⟩ | ⟨v, hp, hrun⟩
      | ⟨_, _, _, _, _, rfl⟩ | ⟨_, _, _, _, rfl⟩⟩
    · exact absurd ht hs
    · exact .inl ⟨r, hp⟩
    · rw [heq] at ht
      exact absurd ht hs
    · exact absurd ht hs
    · rcases runCommand_cases hrun with ⟨i, hd, he⟩ | ⟨x, _, rfl⟩
      · have hcommand := exec_disconnects he hs ht
        exact .inr ⟨r, v, i, hp, hd, hcommand⟩
      · exact absurd ht hs
    · exact absurd ht hs
    · exact absurd ht hs
  case srxf =>
    cases exec_outcome h with
    | fault | configError => rfl
    | done _ _ _ _ _ _ hse =>
      cases hse with
      | kept => rfl
      | receive => exact (received_link_txs ..).1

/-- Settles O59: from `SessionMove.stopsTransmission`; a fault and the configuration error leave TXS as it was. -/
theorem transmissionsEndWithTheEndFrame : Obligations.TransmissionsEndWithTheEndFrame := by
  intro i s t h hs ht
  cases exec_outcome h with
  | fault | configError => exact absurd ht hs
  | done _ _ _ _ _ _ hse => exact hse.stopsTransmission hs ht

end Sys2Proof.Machine
end

section
/-! Every step keeps every invariant of the machine (47_session.md R255, 10_state.md R21 to R45): the invariants on the
session registers hold of the session each move leaves, those on DMEM and FAULT of what each outcome leaves. -/

namespace Sys2Proof.Machine

/-- The invariants on the session registers: those of `Safe` but for DMEM's and FAULT's. -/
structure SessionSafe (s : State) : Prop where
  frag : FragInv s
  disconnected : DisconnectedInv s
  call : CallInv s
  callScope : CallScopeInv s
  backend : BackendInv s
  transmit : TransmitInv s
  counters : CounterInv s

theorem Safe.session {s : State} (h : Safe s) : SessionSafe s :=
  ⟨h.frag, h.disconnected, h.call, h.callScope, h.backend, h.transmit, h.counters⟩

/-- The session invariants depend on the parameters and the session alone. -/
theorem SessionSafe.congr {s t : State} (h : SessionSafe s) (hc : t.cfg = s.cfg) (hs : t.session = s.session) :
    SessionSafe t := by
  cases s
  cases t
  obtain rfl := hc
  obtain rfl := hs
  exact ⟨h.frag, h.disconnected, h.call, h.callScope, h.backend,
    ⟨h.transmit.connected, h.transmit.kinds, h.transmit.stop⟩, ⟨h.counters.wdog, h.counters.link, h.counters.keepalive⟩⟩

/-- A state is safe when its session is that of one with a safe session, and DMEM and FAULT are as they should. -/
theorem Safe.of_session {s t : State} (h : SessionSafe s) (hc : t.cfg = s.cfg) (hs : t.session = s.session)
    (hm : t.dmem.Inside t.par.dmemBytes) (hf : FaultInv t) : Safe t :=
  have ht := h.congr hc hs
  ⟨⟨hm.1, hm.2⟩, ht.frag, ht.disconnected, ht.call, ht.callScope, ht.backend, ht.transmit, ht.counters, hf⟩

/-! ## Sessions by LINK_STATE -/

/-- The cleared session is safe (47_session.md R259). -/
theorem SessionSafe.of_cleared {s : State} (h : s.session = Session.cleared s.par.reasmMax) : SessionSafe s where
  frag := by simp [FragInv, h, Session.cleared]
  disconnected _ := h
  call _ := by rw [h]; rfl
  callScope _ := by rw [h]; exact ⟨rfl, rfl, rfl, rfl, rfl, rfl⟩
  backend hl := absurd (by rw [h]; rfl) hl
  transmit := by constructor <;> simp [h, Session.cleared]
  counters := by
    have hb : s.backend = none := by simp [State.backend, h, Session.cleared]
    constructor <;> simp [hb]

section
variable {s : State} {d : Descriptor} (hb : s.backend = some d) (frag : FragInv s) (scope : CallScopeInv s)
  (link : 0 < d.linkTimeout → s.session.linkWdog.toNat < d.linkTimeout)
  (keepalive : s.session.kaCnt.toNat ≤ d.kaInterval - 1)
include hb frag scope link keepalive

/-- What a session needs to be safe in CONNECTED. -/
theorem SessionSafe.of_connected (hlink : s.session.link = .connected)
    (kinds : s.session.txs ≠ .idle → d.tx.isSome = true) (stop : s.session.stopReq = true → s.session.txs = .header)
    (wdog : s.session.call.active = true → s.session.wdogCnt.toNat < d.wdogLimit) : SessionSafe s where
  frag := frag
  disconnected h := by rw [hlink] at h; cases h
  call h := absurd hlink h
  callScope := scope
  backend _ := Option.isSome_iff_exists.mpr ⟨d, hb⟩
  transmit := ⟨fun _ => hlink, fun h => ⟨d, hb, kinds h⟩, stop⟩
  counters := by
    constructor <;> intro d' hd' <;> obtain rfl := Option.some.inj (hb.symm.trans hd')
    exacts [wdog, link, keepalive]

/-- What a session with neither a call nor a transmission needs to be safe once a link is being set up. -/
theorem SessionSafe.of_quiet (hlink : s.session.link ≠ .disconnected) (hcall : s.session.call = .idle)
    (htxs : s.session.txs = .idle) (hstop : s.session.stopReq = false) : SessionSafe s where
  frag := frag
  disconnected h := absurd h hlink
  call _ := hcall
  callScope := scope
  backend _ := Option.isSome_iff_exists.mpr ⟨d, hb⟩
  transmit := ⟨fun h => absurd htxs h, fun h => absurd htxs h, fun h => by rw [hstop] at h; cases h⟩
  counters := by
    constructor <;> intro d' hd' <;> obtain rfl := Option.some.inj (hb.symm.trans hd')
    exacts [fun h => absurd h (by simp [hcall, CallState.active]), link, keepalive]

end

section
variable {s : State} (h : SessionSafe s)
include h

/-- Outside CONNECTED there is neither a call nor a transmission. -/
theorem SessionSafe.quiet (hlink : s.session.link ≠ .connected) :
    s.session.call = .idle ∧ s.session.txs = .idle ∧ s.session.stopReq = false := by
  have htxs : s.session.txs = .idle := by
    by_contra hne
    exact hlink (h.transmit.connected hne)
  refine ⟨h.call hlink, htxs, ?_⟩
  by_contra hstop
  have hheader := h.transmit.stop (by simpa using hstop)
  rw [htxs] at hheader
  cases hheader

/-- Behind a link there is a descriptor. -/
theorem SessionSafe.descriptor (hlink : s.session.link ≠ .disconnected) : ∃ d, s.backend = some d :=
  Option.isSome_iff_exists.mp (h.backend hlink)

theorem SessionSafe.txKinds {d : Descriptor} (hb : s.backend = some d) (htxs : s.session.txs ≠ .idle) :
    d.tx.isSome = true := by
  obtain ⟨d', hd', htx⟩ := h.transmit.kinds htxs
  exact Option.some.inj (hd'.symm.trans hb) ▸ htx

end

/-! ## Receiving -/

/-- The limits of a well-formed descriptor (46_frame.md R215). -/
theorem descriptor_limits {vitMax reasmMax : Nat} {d : Descriptor} (h : d.wf vitMax reasmMax = true) :
    1 ≤ d.wdogLimit ∧ d.kaInterval ≤ 65535 := by
  simp only [Descriptor.wf, Bool.and_eq_true, decide_eq_true_eq] at h
  obtain ⟨⟨⟨⟨_, hwdog⟩, hka⟩, _⟩, _⟩ := h
  exact ⟨hwdog.1, hka⟩

/-- A state-valid frame that leaves the call in IDLE found it there and did nothing but clear the watchdogs. -/
theorem movedSession_of_idle {n : Nat} {m : Memory} {f : Nat} {k : FrameKind} {se : Session}
    (h : (movedSession n m f k se).call = .idle) :
    se.call = .idle ∧ movedSession n m f k se = { se with wdogCnt := 0, linkWdog := 0 } := by
  simp only [movedSession] at h
  split at h
  · cases h
  next hends =>
    split at h
    · cases h
    next henters =>
      split at h
      · cases h
      next hcont => exact ⟨h, by simp only [movedSession, if_neg hends, if_neg henters, if_neg hcont]⟩

/-- Reassembly keeps the size of FRAG_BUF (10_state.md R45): a stored fragment lies inside it. -/
theorem reassemble_fragBuf_length {p : Params} {d : Descriptor} (hd : d.wf p.vitMax p.reasmMax = true) (k : FrameKind)
    (m : Memory) (w f : Nat) {se : Session} (h : se.fragBuf.length = p.reasmMax) :
    (reassemble p d k m w f se).session.fragBuf.length = p.reasmMax := by
  rcases reassemble_cases p d k m w f se with hr | ⟨e, xi, xf, he, _, _, _, hi, hstored⟩
  · rw [hr]
    exact h
  have hwf := embedded_wf hd he
  simp only [Embedded.wf, Bool.and_eq_true, decide_eq_true_eq] at hwf
  obtain ⟨⟨_, _, _, hmax, _⟩, _⟩ := hwf
  let se' := storeFragment e (fieldVal m f xi) (m.readBits (f + xf.off) e.fragBits) se
  have hlen : se'.fragBuf.length = p.reasmMax := by
    have hfits : (fieldVal m f xi + 1) * e.fragBits ≤ e.nfrag * e.fragBits := Nat.mul_le_mul_right _ hi
    rw [Nat.succ_mul] at hfits
    simp only [se', storeFragment]
    rw [Bits.length_splice _ _ _ (by rw [Memory.length_readBits]; omega), h]
  rcases hstored with ⟨_, hr⟩ | ⟨_, hr⟩
  · rw [hr]
    exact hlen
  · rw [hr]
    rcases completeMessage_cases p d e m w f se' with ⟨_, hdone⟩ | ⟨_, hdone⟩
    · rw [hdone]
      exact Bits.length_zeros _
    · rw [hdone]
      exact hlen

/-! ## The moves -/

theorem satSucc_lt {c : BitVec 16} {n : Nat} (h : ¬ (0 < n ∧ n ≤ (satSucc c).toNat)) (hn : 0 < n) :
    (satSucc c).toNat < n := by
  omega

section
variable {s : State} (h : SessionSafe s) {d : Descriptor} (hb : s.backend = some d)
include h hb

/-- A frame received in CONNECTED leaves a safe session (47_session.md R260 to R270). -/
theorem SessionSafe.receive (hlink : s.session.link = .connected) (k : FrameKind) (m : Memory) (w f : Nat) :
    SessionSafe { s with
      session := (reassemble s.par d k m w f (movedSession s.par.reasmMax m f k s.session)).session } := by
  have hwf := State.backend_wf hb
  have hfrag := reassemble_fragBuf_length hwf k m w f (se := movedSession s.par.reasmMax m f k s.session) (by
    simp only [movedSession]
    split
    · exact Bits.length_zeros _
    · exact h.frag)
  have hidle : (movedSession s.par.reasmMax m f k s.session).call = .idle →
      (reassemble s.par d k m w f (movedSession s.par.reasmMax m f k s.session)).session
        = { s.session with wdogCnt := 0, linkWdog := 0 } ∧ s.session.call = .idle := by
    intro hcall
    obtain ⟨hcall', hmoved⟩ := movedSession_of_idle hcall
    rw [reassemble_of_inactive (by rw [hcall]; rfl)]
    exact ⟨hmoved, hcall'⟩
  obtain ⟨present, buf, hsession⟩ : ∃ present buf,
      (reassemble s.par d k m w f (movedSession s.par.reasmMax m f k s.session)).session
        = { movedSession s.par.reasmMax m f k s.session with fragPresent := present, fragBuf := buf } :=
    ⟨_, _, reassemble_session ..⟩
  rw [hsession] at hfrag hidle ⊢
  refine .of_connected (d := d) hb hfrag (fun hcall => ?scope) (fun hlimit => hlimit) (h.counters.keepalive d hb) hlink
    (fun htxs => h.txKinds hb htxs) h.transmit.stop fun _ => (descriptor_limits hwf).1
  case scope =>
    obtain ⟨heq, hcall'⟩ := hidle hcall
    rw [heq]
    exact h.callScope hcall'

/-- A receive tick in CONNECTED leaves a safe session (47_session.md R272 to R274). -/
theorem SessionSafe.callTick (hlink : s.session.link = .connected) (hlive : ¬ linkExpired d s.session)
    (drained : Bool) :
    SessionSafe { s with session := (s.callTick d drained (countLink s.session)).session } := by
  have hkinds := fun htxs => h.txKinds hb htxs
  have hka := h.counters.keepalive d hb
  have hlw := satSucc_lt hlive
  rw [callTick_eq]
  split
  · exact .of_connected (d := d) hb (Bits.length_zeros _) (fun hcall => by cases hcall) hlw hka hlink hkinds
      h.transmit.stop fun ha => by cases ha
  next hexpired =>
    have hwdog : s.session.call.active = true → (satSucc s.session.wdogCnt).toNat < d.wdogLimit := by
      intro hactive
      by_contra hge
      exact hexpired (Bool.and_eq_true_iff.mpr ⟨hactive, decide_eq_true (Nat.not_lt.mp hge)⟩)
    split
    · exact .of_connected (d := d) hb (Bits.length_zeros _) (fun _ => ⟨rfl, rfl, rfl, rfl, rfl, rfl⟩) hlw hka hlink
        hkinds h.transmit.stop fun ha => by cases ha
    · exact .of_connected (d := d) hb h.frag h.callScope hlw hka hlink hkinds h.transmit.stop hwdog

/-- The keepalive count stays below its interval (47_session.md R281). -/
theorem SessionSafe.keepaliveStep (hlink : s.session.link = .connected) :
    SessionSafe { s with session := keepaliveStep d s.session } := by
  have hka := h.counters.keepalive d hb
  have hmax := (descriptor_limits (State.backend_wf hb)).2
  rw [keepaliveStep_eq]
  refine .of_connected (d := d) hb h.frag h.callScope (h.counters.link d hb) ?keepalive hlink
    (fun htxs => h.txKinds hb htxs) h.transmit.stop (h.counters.wdog d hb)
  case keepalive =>
    have hdue : keepaliveDue d s.session = true ↔ 0 < d.kaInterval ∧ d.kaInterval ≤ s.session.kaCnt.toNat + 1 :=
      decide_eq_true_iff
    simp only
    split
    · exact Nat.zero_le _
    next hno =>
      rw [hdue] at hno
      split
      · exact hka
      · rw [BitVec.toNat_add_of_lt] <;> simp <;> omega

/-- A change of the outbound registers in CONNECTED leaves a safe session, STOP_REQ being set in TX_HEADER alone
(47_session.md R275 to R277). -/
theorem SessionSafe.outbound (hlink : s.session.link = .connected) (htx : d.tx.isSome = true) {txs : TxPhase}
    {stop : Bool} (hstop : stop = true → txs = .header) (sid seq : Word) :
    SessionSafe { s with session := { s.session with txs := txs, stopReq := stop, txSid := sid, txSeq := seq } } :=
  .of_connected (d := d) hb h.frag h.callScope (h.counters.link d hb) (h.counters.keepalive d hb) hlink (fun _ => htx)
    hstop (h.counters.wdog d hb)

/-- The frame of a transmit state leaves a safe session (47_session.md R277). -/
theorem SessionSafe.afterFrame (hlink : s.session.link = .connected) (htx : d.tx.isSome = true) {ph : TxPhase}
    (hph : s.session.txs = ph) : SessionSafe { s with session := afterFrame ph s.session } := by
  cases ph with
  | idle => exact h
  | header => exact h.outbound hb hlink htx (stop := false) nofun _ _
  | stream => exact h.outbound hb hlink htx h.transmit.stop _ _
  | ending => exact h.outbound hb hlink htx (stop := false) nofun _ _

end

section
variable {s : State} (h : SessionSafe s)
include h

/-- The link watchdog may take any value below its limit while there is a link. -/
theorem SessionSafe.setLinkWdog (hlink : s.session.link ≠ .disconnected) {v : BitVec 16}
    (hlimit : ∀ d, s.backend = some d → 0 < d.linkTimeout → v.toNat < d.linkTimeout) :
    SessionSafe { s with session := { s.session with linkWdog := v } } where
  frag := h.frag
  disconnected hdown := absurd hdown hlink
  call := h.call
  callScope := h.callScope
  backend := h.backend
  transmit := ⟨h.transmit.connected, h.transmit.kinds, h.transmit.stop⟩
  counters := ⟨h.counters.wdog, hlimit, h.counters.keepalive⟩

/-- The link moves on from CONNECTING or AUTH to a state with a link (47_session.md R253). -/
theorem SessionSafe.advanceLink (hlink : s.session.link ≠ .connected) (hup : s.session.link ≠ .disconnected)
    {l : LinkState} (hl : l ≠ .disconnected) :
    SessionSafe { s with session := { s.session with link := l, linkWdog := 0 } } := by
  obtain ⟨hcall, htxs, hstop⟩ := h.quiet hlink
  obtain ⟨d, hb⟩ := h.descriptor hup
  exact .of_quiet (d := d) hb h.frag h.callScope (fun hlimit => hlimit) (h.counters.keepalive d hb) hl hcall htxs hstop

/-- SCON starts from the cleared session (47_session.md R251). -/
theorem SessionSafe.connect (hlink : s.session.link = .disconnected) {sel : BitVec 4} {d : Descriptor}
    (hd : s.par.slot sel = some d) (m : Memory) (a : Nat) :
    SessionSafe { s with session := connectSession m s.session sel a } := by
  have hcleared := h.disconnected hlink
  rw [hcleared]
  exact .of_quiet (d := d) hd (Bits.length_zeros _) (fun _ => ⟨rfl, rfl, rfl, rfl, rfl, rfl⟩) (fun hlimit => hlimit)
    (Nat.zero_le _) (by simp [connectSession]) rfl rfl rfl

/-- Every move leaves a safe session. -/
theorem SessionMove.safe {i : Instr} {se : Session} {st : Status} {r2 : Word} (hmove : SessionMove s i se st r2) :
    SessionSafe { s with session := se } := by
  have hstarted : ∀ ph, s.session.txs = ph → ph ≠ .idle →
      s.session.link = .connected ∧ ∃ d, s.backend = some d ∧ d.tx.isSome = true := by
    rintro _ rfl hne
    exact ⟨h.transmit.connected hne, h.transmit.kinds hne⟩
  cases hmove with
  | kept => exact h
  | authFail | disconnect | linkTimeout => exact .of_cleared rfl
  | connect _ _ _ _ _ hlink hslot =>
    obtain ⟨d, hd⟩ := Option.isSome_iff_exists.mp hslot
    exact h.connect hlink hd ..
  | linkUp _ d _ _ hlink =>
    exact h.advanceLink (by simp [hlink]) (by simp [hlink]) (by unfold linkUpState; split <;> simp)
  | authOk _ _ _ hlink => exact h.advanceLink (by simp [hlink]) (by simp [hlink]) (by simp)
  | peerAlive _ _ _ hlink => exact h.setLinkWdog hlink fun _ _ hlimit => hlimit
  | linkTick _ d _ _ hb hlink hlive =>
    refine h.setLinkWdog hlink fun d' hd' hlimit => ?_
    obtain rfl := Option.some.inj (hb.symm.trans hd')
    exact satSucc_lt hlive hlimit
  | receive _ _ _ d k m w f _ _ hb hlink => exact h.receive hb hlink k m w f
  | callTick _ d drained _ _ hb hlink hlive => exact h.callTick hb hlink hlive drained
  | txStart imm d _ _ hb hlink htx => exact h.outbound hb hlink htx (fun _ => rfl) imm 0
  | stopRequest _ _ htxs =>
    obtain ⟨hlink, d, hb, htx⟩ := hstarted _ htxs (by simp)
    exact h.outbound hb hlink htx (fun _ => htxs) _ _
  | streamEnd _ _ htxs =>
    obtain ⟨hlink, d, hb, htx⟩ := hstarted _ htxs (by simp)
    refine h.outbound hb hlink htx (fun hstop => ?_) _ _
    have hheader := h.transmit.stop hstop
    rw [htxs] at hheader
    cases hheader
  | txSilent _ _ _ d _ _ hb hlink => exact h.keepaliveStep hb hlink
  | txSent _ _ _ d x _ hb hlink hx =>
    obtain ⟨hlink', htxs⟩ := keepaliveStep_link_txs d s.session
    have hb' : State.backend { s with session := keepaliveStep d s.session } = some d := by
      rw [keepaliveStep_eq]
      exact hb
    exact (h.keepaliveStep hb hlink).afterFrame hb' (hlink'.trans hlink) (by simp [hx]) htxs

end

/-! ## FAULT -/

/-- A fault counted is a fault recorded. -/
theorem sat16_succ_ne_zero (n : Nat) : sat16 (n + 1) ≠ 0 := by
  intro h
  have hzero := congrArg BitVec.toNat h
  have hmin : 0 < min (n + 1) 0xFFFF ∧ min (n + 1) 0xFFFF ≤ 0xFFFF := by omega
  rw [sat16, BitVec.toNat_ofNat, Nat.mod_eq_of_lt (by omega)] at hzero
  exact hmin.1.ne' hzero

theorem FaultInv.takeFault {s : State} (h : FaultInv s) {x : ErrCode} (hx : x.isFault = true) :
    FaultInv (s.takeFault x) where
  clear hno := by cases hno
  set _ := by
    refine ⟨?first, sat16_succ_ne_zero _⟩
    case first =>
      simp only [State.takeFault]
      split
      next hfaulted => exact (h.set hfaulted).1
      · exact hx

/-! ## The step -/

theorem Safe.inside {s : State} (h : Safe s) : s.dmem.Inside s.par.dmemBytes :=
  ⟨h.memory.rising, h.memory.inside⟩

theorem Safe.takeFault {s : State} (h : Safe s) {x : ErrCode} (hx : x.isFault = true) : Safe (s.takeFault x) :=
  Safe.of_session h.session rfl rfl h.inside (h.fault.takeFault hx)

/-- Every command keeps every invariant. -/
theorem Safe.exec {s t : State} (h : Safe s) {i : Instr} (ht : exec i s = .next t) : Safe t := by
  cases exec_outcome ht with
  | fault x hx => exact h.takeFault hx
  | configError => exact Safe.of_session h.session rfl rfl h.inside ⟨h.fault.clear, h.fault.set⟩
  | done m se st r r2 hm hse =>
    exact Safe.of_session (hse.safe h.session) rfl rfl (hm h.inside) ⟨h.fault.clear, h.fault.set⟩

/-- The invariants depend on the parameters, DMEM, FAULT and the session alone. -/
theorem Safe.congr {s t : State} (h : Safe s) (hc : t.cfg = s.cfg) (hm : t.dmem = s.dmem) (hf : t.fault = s.fault)
    (hs : t.session = s.session) : Safe t := by
  refine Safe.of_session h.session hc hs ?inside ⟨?clear, ?set⟩
  case inside =>
    rw [hm, State.par, hc]
    exact h.inside
  case clear =>
    rw [hf]
    exact h.fault.clear
  case set =>
    rw [hf]
    exact h.fault.set

/-- A reset leaves a safe state (70_reset_and_hazards.md R340, R342). -/
theorem safe_takeReset (s : State) : Safe s.takeReset :=
  Safe.of_session (SessionSafe.of_cleared (s := s.takeReset) rfl) rfl rfl ⟨List.Pairwise.nil, nofun⟩
    ⟨fun _ => ⟨rfl, rfl⟩, nofun⟩

theorem dmemIndex_lt {p : Params} {off a : Nat} (h : dmemIndex p off = some a) : a < p.dmemBytes := by
  unfold dmemIndex at h
  split at h
  · have ha := Option.some.inj h
    omega
  · cases h

/-- Settles O56: of the host's events a reset clears the machine, a command keeps the invariants (`Safe.exec`), and
every other changes at most a byte of DMEM that there is. -/
theorem stepKeepsSafe : Obligations.StepKeepsSafe := by
  intro s t h hstep
  rcases step_cases hstep with ⟨_, rfl⟩ | ⟨r, ⟨_, rfl⟩ | ⟨_, _, _, _, heq⟩ | ⟨_, _, rfl⟩ | ⟨v, _, hrun⟩
    | ⟨_, v, a, _, ha, rfl⟩ | ⟨_, _, _, _, rfl⟩⟩
  · exact h
  · exact safe_takeReset _
  · rw [heq]
    exact h.congr rfl rfl rfl rfl
  · exact h.congr rfl rfl rfl rfl
  · have h' : Safe { s with pending := r, cmdHi := v } := h.congr rfl rfl rfl rfl
    rcases runCommand_cases hrun with ⟨i, _, he⟩ | ⟨x, hx, rfl⟩
    · exact h'.exec he
    · exact h'.takeFault hx
  · exact Safe.of_session h.session rfl rfl (h.inside.setByte (dmemIndex_lt ha) _) ⟨h.fault.clear, h.fault.set⟩
  · exact h.congr rfl rfl rfl rfl

end Sys2Proof.Machine
end

section
/-! Reset and FAULT (60_exceptions.md R301, 70_reset_and_hazards.md R340): what a reset clears, that nothing else clears
FAULT, that every command completes, and that a session command in a state that does not accept it does nothing. -/

namespace Sys2Proof.Machine

/-! ## Reset -/

/-- A machine right after a reset is safe, whatever its parameters and its host (70_reset_and_hazards.md R342). -/
theorem safe_afterReset (cfg : Setup) (epoch : Nat) (pending : List HostEvent) (hostData : Word) :
    Safe (State.afterReset cfg epoch pending hostData) :=
  Safe.of_session (SessionSafe.of_cleared (s := State.afterReset cfg epoch pending hostData) rfl) rfl rfl
    ⟨List.Pairwise.nil, nofun⟩ ⟨fun _ => ⟨rfl, rfl⟩, nofun⟩

/-- Settles O8: `State.reset` is a machine right after a reset. -/
theorem resetStateIsSafe : Obligations.ResetStateIsSafe :=
  safe_afterReset ..

theorem FaultReg.toWord_cleared : FaultReg.cleared.toWord = 0 := by decide

/-! ## FAULT -/

/-- FAULT after a change that clears nothing: a recorded fault and FATAL stay, and COUNT does not go down (10_state.md
R28). -/
structure FaultReg.Kept (x y : FaultReg) : Prop where
  first : x.faulted = true → y.faulted = true ∧ y.first = x.first
  fatal : x.fatal = true → y.fatal = true
  count : x.count.toNat ≤ y.count.toNat

theorem FaultReg.Kept.refl (x : FaultReg) : x.Kept x :=
  ⟨fun h => ⟨h, rfl⟩, id, Nat.le_refl _⟩

theorem sat16_toNat (n : Nat) : (sat16 n).toNat = min n 0xFFFF := by
  rw [sat16, BitVec.toNat_ofNat, Nat.mod_eq_of_lt (by omega)]

/-- A fault counts up to the saturation of COUNT and keeps a FIRST that is recorded (60_exceptions.md R301). -/
theorem State.takeFault_kept (s : State) (x : ErrCode) : s.fault.Kept (s.takeFault x).fault where
  first h := ⟨rfl, if_pos h⟩
  fatal h := h
  count := by
    have hlt := s.fault.count.isLt
    simp only [State.takeFault, sat16_toNat]
    omega

/-- No command clears FAULT (60_exceptions.md R301, R302). -/
theorem CommandOutcome.fault_kept {s t : State} {i : Instr} (h : CommandOutcome s i t) : s.fault.Kept t.fault := by
  cases h with
  | fault x => exact s.takeFault_kept x
  | configError => exact ⟨fun h => ⟨h, rfl⟩, fun _ => rfl, Nat.le_refl _⟩
  | done => exact .refl _

theorem runCommand_fault_kept {s t : State} (h : runCommand s = .next t) : s.fault.Kept t.fault := by
  rcases runCommand_cases h with ⟨i, _, he⟩ | ⟨x, _, rfl⟩
  · exact (exec_outcome he).fault_kept
  · exact s.takeFault_kept x

/-- No step but a reset clears FAULT (70_reset_and_hazards.md R340). -/
theorem step_fault_kept {s t : State} (h : step s = .next t) (hr : ∀ r, s.pending ≠ .reset :: r) :
    s.fault.Kept t.fault := by
  rcases step_cases h with ⟨_, rfl⟩ | ⟨r, ⟨hp, _⟩ | ⟨_, _, _, _, heq⟩ | ⟨_, _, rfl⟩ | ⟨_, _, hrun⟩
    | ⟨_, _, _, _, _, rfl⟩ | ⟨_, _, _, _, rfl⟩⟩
  · exact .refl _
  · exact absurd hp (hr r)
  · rw [heq]
    exact .refl _
  · exact .refl _
  · have hkept := runCommand_fault_kept hrun
    exact hkept
  · exact .refl _
  · exact .refl _

/-- Settles O7: a reset event leaves `State.afterReset`, whose session is the cleared one; any other step falls to
`step_fault_kept`. -/
theorem resetClearsEverythingAndAloneClearsFault : Obligations.ResetClearsEverythingAndAloneClearsFault := by
  refine fun s t h => ⟨fun r hp => ?reset, fun hr => ?other⟩
  case reset =>
    have hreset : step s = .next (State.takeReset { s with pending := r }) := step_event hp
    obtain rfl := Host.Outcome.next.inj (hreset.symm.trans h)
    exact ⟨rfl, rfl, Status.toWord_cleared, rfl, rfl, FaultReg.toWord_cleared, rfl, rfl,
      Session.backendWord_cleared _, rfl, rfl, rfl, rfl, rfl, rfl, rfl, Session.txStateWord_cleared _, rfl, rfl, rfl,
      rfl, rfl, rfl, rfl, rfl, rfl, rfl⟩
  case other =>
    have hkept := step_fault_kept h hr
    exact ⟨hkept.first, hkept.fatal, hkept.count⟩

/-! ## Completion -/

theorem CommandOutcome.keepsPort {s t : State} {i : Instr} (h : CommandOutcome s i t) : s.KeepsPort t := by
  cases h with
  | fault x => exact s.takeFault_keepsPort x
  | configError => exact s.configError_keepsPort
  | done => exact s.finish_keepsPort ..

/-- Settles O14: every command has one of the outcomes of `CommandOutcome`, and each of them keeps the port. -/
theorem everyCommandCompletes : Obligations.EveryCommandCompletes := by
  intro i s
  obtain ⟨t, ht, hout⟩ := exec_completes i s
  exact ⟨t, ht, hout.keepsPort⟩

/-! ## Refused session commands -/

/-- The command completes with the code alone in STATUS, RES and RES2 0, and nothing else changed (60_exceptions.md
R302). -/
def Refused (s : State) (x : ErrCode) (i : Instr) : Prop :=
  ∃ t : State, exec i s = .next t ∧ ReadOnlyDone s t { err := x } 0 0

/-- A command that answers with an outcome without effect is refused. -/
theorem Refused.of_noEffect {s : State} {x : ErrCode} {i : Instr} (h : exec i s = .next (s.noEffect x)) :
    Refused s x i :=
  ⟨_, h, s.finish_readOnlyDone ..⟩

/-- A command whose checks pass and whose effect is an outcome without effect is refused. -/
theorem Refused.of_checked {s ok : State} {x : ErrCode} {i : Instr} {cs : List (ErrCode × Bool)}
    (he : exec i s = .next (checked cs s ok)) (hpass : cs.all (·.2) = true) (hok : ok = s.noEffect x) :
    Refused s x i :=
  .of_noEffect (he.trans (congrArg Host.Outcome.next ((checked_pass hpass s ok).trans hok)))

section
variable {s : State}

/-- SCON past its checks is refused by a fatal machine, and then by one with a link (47_session.md R251,
60_exceptions.md R310). -/
theorem scon_refused {var sel : BitVec 4} {src : BitVec 16} {d : Descriptor} (hvar : var.toNat ≤ 1)
    (hd : s.par.slot sel = some d) (hsrc : src.toNat + 128 ≤ s.par.dmemBits) :
    (s.fault.fatal = true → Refused s .fatalLock (.scon var sel src))
      ∧ (s.fault.fatal = false → s.session.link ≠ .disconnected → Refused s .badState (.scon var sel src)) := by
  refine ⟨fun hfatal => .of_checked rfl ?_ (if_pos hfatal),
    fun hfatal hlink => .of_checked rfl ?_ ((if_neg (by simp [hfatal])).trans (if_pos hlink))⟩ <;>
  simp [hvar, hd, Params.fits_eq_true.mpr hsrc]

/-- LINK_UP outside CONNECTING (47_session.md R253). -/
theorem slnk_linkUp_refused (h : s.session.link ≠ .connecting) : Refused s .badState (.slnk 0) := by
  refine .of_checked rfl rfl ?_
  cases hb : s.backend with
  | none => simp
  | some d => simp [h]

/-- AUTH_OK and AUTH_FAIL outside AUTH (47_session.md R253). -/
theorem slnk_auth_refused (h : s.session.link ≠ .auth) :
    Refused s .badState (.slnk 1) ∧ Refused s .badState (.slnk 2) :=
  ⟨.of_checked rfl rfl (if_neg h), .of_checked rfl rfl (if_neg h)⟩

/-- PEER_ALIVE without a link (47_session.md R253). -/
theorem slnk_peerAlive_refused (h : s.session.link = .disconnected) : Refused s .badState (.slnk 3) :=
  .of_checked rfl rfl (if_neg (not_not.mpr h))

/-- SRXT without a link (47_session.md R272). -/
theorem srxt_refused {var : BitVec 4} (hvar : var.toNat ≤ 1) (h : s.session.link = .disconnected) :
    Refused s .badState (.srxt var) := by
  refine .of_checked rfl (by simp [hvar]) ?_
  cases s.backend with
  | none => rfl
  | some d => exact if_pos h

/-- SRXF outside CONNECTED (47_session.md R260). -/
theorem srxf_refused {len dst src : BitVec 16} (h : s.session.link ≠ .connected) (hlen : 1 ≤ len.toNat)
    (hwire : src.toNat + len.toNat ≤ s.par.dmemBits) (hfield : dst.toNat + s.fieldBits ≤ s.par.dmemBits)
    (hapart : overlaps src.toNat len.toNat dst.toNat s.fieldBits = false) :
    Refused s .badState (.srxf len dst src) := by
  refine .of_checked rfl ?pass ?body
  case pass => simp [hlen, Params.fits_eq_true.mpr hwire, Params.fits_eq_true.mpr hfield, hapart]
  case body =>
    cases s.backend with
    | none => rfl
    | some d => exact if_pos h

/-- STXT outside CONNECTED (47_session.md R277). -/
theorem stxt_refused {var : BitVec 4} {dst src : BitVec 16} (h : s.session.link ≠ .connected) (hvar : var.toNat ≤ 1)
    (hfield : src.toNat + s.fieldBits ≤ s.par.dmemBits) (hwire : dst.toNat + s.txBits ≤ s.par.dmemBits)
    (hapart : overlaps dst.toNat s.txBits src.toNat s.fieldBits = false) :
    Refused s .badState (.stxt var dst src) := by
  refine .of_checked rfl ?pass ?body
  case pass => simp [hvar, Params.fits_eq_true.mpr hwire, Params.fits_eq_true.mpr hfield, hapart]
  case body =>
    cases s.backend with
    | none => rfl
    | some d => exact if_pos h

/-- STXS outside CONNECTED, during an outbound call, or without a backend that transmits (47_session.md R275). -/
theorem stxs_refused {imm : BitVec 32} {d : Descriptor} (h : s.session.link ≠ .connected ∨ s.session.txs ≠ .idle
    ∨ s.session.backendValid = false ∨ (s.backend = some d ∧ d.tx = none)) : Refused s .badState (.stxs imm) := by
  refine .of_noEffect (congrArg Host.Outcome.next ?_)
  cases hb : s.backend with
  | none => rfl
  | some d' =>
    refine if_pos ?_
    rcases h with hlink | htxs | hvalid | ⟨hd, htx⟩
    · exact .inl hlink
    · exact .inr (.inl htxs)
    · simp [State.backend, hvalid] at hb
    · obtain rfl := Option.some.inj (hd.symm.trans hb)
      exact .inr (.inr (by simp [htx]))

/-- STXE with no outbound call, or with one that ends (47_session.md R276). -/
theorem stxe_refused (h : s.session.txs = .idle ∨ s.session.txs = .ending) : Refused s .badState .stxe := by
  refine .of_noEffect ?_
  rcases h with h | h <;> simp [exec, execStxe, h]

end

/-- Settles O55: one lemma per command and the states it does not accept. -/
theorem refusedSessionCommandsDoNothing : Obligations.RefusedSessionCommandsDoNothing := by
  intro s var sel imm len dst src d
  exact ⟨scon_refused, slnk_linkUp_refused, slnk_auth_refused,
    fun h => ⟨slnk_peerAlive_refused h, fun hvar => srxt_refused hvar h⟩, srxf_refused, stxt_refused, stxs_refused,
    stxe_refused⟩

end Sys2Proof.Machine
end

section
/-! Faults and outcomes (60_exceptions.md R300 to R313): every command is a list of checks, which the parameters and
BACKEND decide, and an effect, which reports no fault; both report only what the command's row in the table of R303
lists. -/

namespace Sys2Proof.Machine

/-! ## A command is its checks and its effect -/

/-- The two states have the parameters and the BACKEND in common, which faults depend on (60_exceptions.md R301). -/
structure State.SameChecks (s s' : State) : Prop where
  cfg : s'.cfg = s.cfg
  backendValid : s'.session.backendValid = s.session.backendValid
  backendSlot : s'.session.backendSlot = s.session.backendSlot

section
variable {s s' : State} (h : s.SameChecks s')
include h

theorem State.SameChecks.par : s'.par = s.par := by
  rw [State.par, h.cfg]

theorem State.SameChecks.backend : s'.backend = s.backend := by
  simp only [State.backend, h.par, h.backendValid, h.backendSlot]

theorem State.SameChecks.fieldBits : s'.fieldBits = s.fieldBits := by
  rw [State.fieldBits, h.backend, State.fieldBits]

theorem State.SameChecks.txBits : s'.txBits = s.txBits := by
  rw [State.txBits, h.backend, State.txBits]

end

/-- NONE, or an outcome in the row of the command, not a fault (60_exceptions.md R302, R303). -/
def ReportsOutcome (i : Instr) (e : ErrCode) : Prop :=
  e = .none ∨ (e.isFault = false ∧ e ∈ reportedCodes i)

/-- The command runs these checks and then has this effect: the checks depend on the parameters and BACKEND and raise
faults, those in its row alone when the command is well-formed, and the effect reports an outcome (60_exceptions.md R301,
R303, R310). -/
structure IsChecked (i : Instr) (cs : State → List (ErrCode × Bool)) (effect : State → State) : Prop where
  run : ∀ s, exec i s = .next (checked (cs s) s (effect s))
  uniform : ∀ s s', s.SameChecks s' → cs s' = cs s
  faults : ∀ s, ∀ c ∈ cs s, c.1.isFault = true
  row : i.wf = true → ∀ s, ∀ c ∈ cs s, c.2 = true ∨ c.1 ∈ reportedCodes i
  outcome : ∀ s, (cs s).all (·.2) = true → ReportsOutcome i (effect s).status.err

/-- There are checks and an effect that the command consists of. -/
def HasChecks (i : Instr) : Prop :=
  ∃ cs effect, IsChecked i cs effect

/-- A command without checks. -/
theorem HasChecks.of_unchecked {i : Instr} {effect : State → State} (hrun : ∀ s, exec i s = .next (effect s))
    (hout : ∀ s, ReportsOutcome i (effect s).status.err) : HasChecks i :=
  ⟨fun _ => [], effect, hrun, fun _ _ _ => rfl, fun _ => List.forall_mem_nil _, fun _ _ => List.forall_mem_nil _,
    fun s _ => hout s⟩

/-- All checks pass, or the same fault is taken in every state. -/
theorem checks_pass_or_fault (cs : List (ErrCode × Bool)) :
    cs.all (·.2) = true ∨ ∃ x, (x, false) ∈ cs ∧ ∀ s ok, checked cs s ok = s.takeFault x := by
  induction cs with
  | nil => exact .inl rfl
  | cons c r ih =>
    obtain ⟨x, good⟩ := c
    cases good with
    | false => exact .inr ⟨x, List.mem_cons_self, fun _ _ => rfl⟩
    | true =>
      exact ih.imp (fun hr => by simpa using hr) fun ⟨y, hy, e⟩ => ⟨y, List.mem_cons_of_mem _ hy, e⟩

/-! ## The codec commands -/

/-- The opcode has a LEN operand (the LEN column of 30_encoding.md R87). -/
def opUsesLen : StepOp → Bool
  | .movb | .fill | .crc16 | .crc16a | .crc16v | .crcs | .crcsa | .crcsv | .conve | .vitd | .ilv | .dilv | .scr => true
  | .gol24e | .gol24d | .gol23e | .gol23d | .h1511e | .h1511d | .h1611e | .h1611d | .h139e | .h139d | .bptce
  | .bptcd => false

/-- The outcomes of the opcode's rule besides NONE (the last column of 60_exceptions.md R303). -/
def opOutcomes : StepOp → List ErrCode
  | .crc16v | .crcsv => [.crcMismatch]
  | .gol24d | .h1611d | .h139d | .bptcd => [.fecUncorr]
  | .movb | .fill | .crc16 | .crc16a | .crcs | .crcsa | .gol24e | .gol23e | .gol23d | .h1511e | .h1511d | .h1611e
  | .h139e | .bptce | .conve | .vitd | .ilv | .dilv | .scr => []

/-- The row of a codec command in the table of 60_exceptions.md R303, by the operands of its opcode. -/
def opRow (op : StepOp) : List ErrCode :=
  (if op.usesSel then [.badSel] else []) ++ (if opUsesLen op then [.badLen] else []) ++ .range :: opOutcomes op

/-- An opcode without LEN accepts the zero in its place. -/
theorem lenOk_zero {op : StepOp} (h : opUsesLen op = false) (vitMax : Nat) (d : Descriptor) (var : Nat) :
    op.lenOk vitMax d var 0 = true := by
  cases op with
  | movb | fill | crc16 | crc16a | crc16v | crcs | crcsa | crcsv | conve | vitd | ilv | dilv | scr => cases h
  | gol24e | gol24d | gol23e | gol23d | h1511e | h1511d | h1611e | h1611d | h139e | h139d | bptce | bptcd => rfl

/-- Only four decoders report an uncorrectable error, and only the two CRC checks a mismatch (60_exceptions.md R305,
R306). -/
theorem stepRule_err_mem (op : StepOp) (p : Params) (d : Descriptor) (m : Memory) (x : Operands) :
    (stepRule op p d m x).err = .none ∨ (stepRule op p d m x).err ∈ opOutcomes op := by
  cases op with
  | crc16v | crcsv =>
    simp only [stepRule, ruleCrc16v, ruleCrcsv, crcVerdict]
    split
    exacts [.inl rfl, .inr List.mem_cons_self]
  | gol24d =>
    unfold stepRule ruleGol24d
    dsimp only
    split
    exacts [.inl rfl, .inr List.mem_cons_self]
  | h1511d =>
    simp only [stepRule, ruleH1511d]
    split <;> exact .inl rfl
  | h1611d | h139d =>
    simp only [stepRule, ruleH1611d, ruleH139d]
    repeat' split
    exacts [.inl rfl, .inl rfl, .inr List.mem_cons_self]
  | bptcd =>
    simp only [stepRule, ruleBptcd]
    split
    exacts [.inl rfl, .inr List.mem_cons_self]
  | movb | fill | crc16 | crc16a | crcs | crcsa | gol24e | gol23e | gol23d | h1511e | h1611e | h139e | bptce | conve
  | vitd | ilv | dilv | scr => exact .inl rfl

/-- A codec command other than NOP is the shared operation on the rule of its opcode; its legal VAR and its row in the
table of R303 are those of the opcode, and LEN is 0 where it has none. -/
theorem exec_codec_row (i : Instr) (h : isCodec i = true) (hn : i ≠ .nop) :
    ∃ (op : StepOp) (sel : BitVec 4) (x : Operands), (∀ s, exec i s = codecCommand op (stepRule op) sel x s)
      ∧ i.wf = op.varOk x.var ∧ (opUsesLen op = false → x.len = 0) ∧ reportedCodes i = opRow op := by
  cases i with
  | nop => exact absurd rfl hn
  | gol24e | gol24d | gol23e | gol23d | h1511e | h1511d | h1611e | h1611d | h139e | h139d | bptce | bptcd =>
    exact ⟨_, _, _, fun _ => rfl, rfl, fun _ => rfl, rfl⟩
  | movb | fill | crc16 | crc16a | crc16v | crcs | crcsa | crcsv | conve | vitd | ilv | dilv | scr =>
    exact ⟨_, _, _, fun _ => rfl, rfl, nofun, rfl⟩
  | frdec | frenc | envp | envu | scon | slnk | sdis | srxf | srxt | stxs | stxe | stxt => cases h

/-- What a codec rule reports is no fault (60_exceptions.md R302). -/
theorem opOutcomes_isFault {op : StepOp} {e : ErrCode} (h : e ∈ opOutcomes op) : e.isFault = false := by
  have hall : ∀ e ∈ opOutcomes op, e.isFault = false := by
    cases op <;> simp [opOutcomes, ErrCode.isFault]
  exact hall e h

theorem hasChecks_codec {i : Instr} (h : isCodec i = true) : HasChecks i := by
  by_cases hn : i = .nop
  · subst hn
    exact .of_unchecked (fun _ => rfl) fun _ => .inl rfl
  obtain ⟨op, sel, x, hrun, hwf, hlen, hrow⟩ := exec_codec_row i h hn
  refine ⟨fun s => codecChecks op s.par sel x, _, hrun, fun s s' hs => ?uniform, fun s c hc => codecChecks_isFault hc,
    fun hi s => ?row, fun s _ => ?outcome⟩
  case uniform => rw [hs.par]
  case row =>
    rw [hrow, opRow]
    simp only [codecChecks, List.forall_mem_cons, List.not_mem_nil, false_imp_iff, implies_true, and_true]
    refine ⟨.inl (hwf.symm.trans hi), ?sel, ?len, .inr (by simp)⟩
    case sel => cases op.usesSel <;> simp
    case len =>
      cases hu : opUsesLen op with
      | true => simp
      | false => exact .inl (hlen hu ▸ lenOk_zero hu ..)
  case outcome =>
    refine (stepRule_err_mem op s.par (s.par.descFor sel) s.dmem x).imp_right fun hmem => ⟨opOutcomes_isFault hmem, ?_⟩
    rw [hrow, opRow]
    exact List.mem_append_right _ (List.mem_cons_of_mem _ hmem)

/-! ## Frames -/

/-- The failures of a frame program are outcomes of its steps (46_frame.md R224). -/
theorem runProg_reports {i : Instr} (hfec : .fecUncorr ∈ reportedCodes i) (hcrc : .crcMismatch ∈ reportedCodes i)
    (p : Params) (d : Descriptor) (w f : Nat) (prog : List Step) (m : Memory) :
    ReportsOutcome i (runProg p d w f prog m).ctl ∧ ReportsOutcome i (runProg p d w f prog m).voice := by
  refine runProg_codes (.inl rfl) fun t _ m' => ?_
  rcases stepRule_err t.op p d m' (stepOperands w f t) with h | h | h <;> rw [h]
  exacts [.inl rfl, .inr ⟨rfl, hfec⟩, .inr ⟨rfl, hcrc⟩]

theorem parseFrame_reports {i : Instr} (hfec : .fecUncorr ∈ reportedCodes i) (hcrc : .crcMismatch ∈ reportedCodes i)
    {p : Params} {d : Descriptor} {m : Memory} {w n f : Nat} {y : Parsed} (h : parseFrame p d m w n f = some y) :
    ReportsOutcome i y.prog.ctl ∧ ReportsOutcome i y.prog.voice := by
  obtain ⟨_, _, hprog⟩ := parseFrame_eq_some h
  rw [hprog]
  exact runProg_reports hfec hcrc ..

theorem ReportsOutcome.orElse {i : Instr} {a b : ErrCode} (ha : ReportsOutcome i a) (hb : ReportsOutcome i b) :
    ReportsOutcome i (a.orElse b) := by
  unfold ErrCode.orElse
  split
  exacts [hb, ha]

/-- A message that reassembly completes fails with an outcome of its check program (47_session.md R270). -/
theorem reassemble_reports {i : Instr} (hfec : .fecUncorr ∈ reportedCodes i) (hcrc : .crcMismatch ∈ reportedCodes i)
    (p : Params) (d : Descriptor) (k : FrameKind) (m : Memory) (w f : Nat) (se : Session) :
    ReportsOutcome i (reassemble p d k m w f se).msg := by
  rcases reassemble_cases p d k m w f se with h | ⟨e, xi, xf, _, _, _, _, _, ⟨_, h⟩ | ⟨_, h⟩⟩
  · rw [h]
    exact .inl rfl
  · rw [h]
    exact .inl rfl
  · rw [h]
    rcases completeMessage_cases p d e m w f
      (storeFragment e (fieldVal m f xi) (m.readBits (f + xf.off) e.fragBits) se) with ⟨_, h'⟩ | ⟨_, h'⟩ <;> rw [h']
    exacts [.inl rfl, (runProg_reports hfec hcrc ..).1]

theorem hasChecks_frdec (sel : BitVec 4) (len dst src : BitVec 16) : HasChecks (.frdec sel len dst src) := by
  refine ⟨_, _, fun _ => rfl, fun s s' h => ?uniform, fun s => ?faults, fun _ s => ?row, fun s _ => ?outcome⟩
  case uniform => simp only [h.par]
  case faults => simp [ErrCode.isFault]
  case row => simp [reportedCodes]
  case outcome =>
    split
    · exact .inr ⟨rfl, by simp [reportedCodes, State.framing]⟩
    next y hy =>
      obtain ⟨hctl, hvoice⟩ := parseFrame_reports (i := .frdec sel len dst src) (by simp [reportedCodes])
        (by simp [reportedCodes]) hy
      exact hctl.orElse hvoice

theorem hasChecks_frenc (var sel : BitVec 4) (dst src : BitVec 16) : HasChecks (.frenc var sel dst src) := by
  refine ⟨_, _, fun _ => rfl, fun s s' h => ?uniform, fun s => ?faults, fun _ s => ?row, fun s hpass => ?outcome⟩
  case uniform => simp only [h.par]
  case faults => simp [ErrCode.isFault]
  case row => simp [reportedCodes]
  case outcome =>
    simp only [List.all_cons, Bool.and_eq_true, decide_eq_true_eq] at hpass
    obtain ⟨⟨_, hkind⟩, _⟩ := hpass
    rw [List.getElem?_eq_getElem hkind]
    exact .inl rfl

theorem hasChecks_envp (ty : BitVec 8) (len dst src : BitVec 16) : HasChecks (.envp ty len dst src) := by
  refine ⟨_, _, fun _ => rfl, fun s s' h => ?uniform, fun s => ?faults, fun _ s => ?row, fun _ _ => .inl rfl⟩
  case uniform => simp only [h.par]
  case faults => simp [ErrCode.isFault]
  case row => simp [reportedCodes]

theorem hasChecks_envu (len dst src : BitVec 16) : HasChecks (.envu len dst src) := by
  refine ⟨_, _, fun _ => rfl, fun s s' h => ?uniform, fun s => ?faults, fun _ s => ?row, fun s _ => ?outcome⟩
  case uniform => simp only [h.par]
  case faults => simp [ErrCode.isFault]
  case row => simp [reportedCodes]
  case outcome =>
    split
    · exact .inr ⟨rfl, by simp [reportedCodes, State.framing]⟩
    · exact .inl rfl

/-! ## The session -/

/-- A refused command reports the code of its refusal. -/
theorem ReportsOutcome.noEffect {i : Instr} {x : ErrCode} (hx : x.isFault = false) (hi : x ∈ reportedCodes i)
    (s : State) : ReportsOutcome i (s.noEffect x).status.err :=
  .inr ⟨hx, hi⟩

theorem hasChecks_scon (var sel : BitVec 4) (src : BitVec 16) : HasChecks (.scon var sel src) := by
  refine ⟨_, _, fun _ => rfl, fun s s' h => ?uniform, fun s => ?faults, fun hvar s => ?row, fun s _ => ?outcome⟩
  case uniform => simp only [h.par]
  case faults => simp [ErrCode.isFault]
  case row => simp [reportedCodes, of_decide_eq_true hvar]
  case outcome =>
    repeat' split
    · exact .noEffect rfl (by simp [reportedCodes]) s
    · exact .noEffect rfl (by simp [reportedCodes]) s
    · exact .inr ⟨rfl, by simp [reportedCodes, State.configError, State.sessionDone]⟩
    · exact .inl rfl

theorem hasChecks_slnk (var : BitVec 4) : HasChecks (.slnk var) := by
  have hrefused : ∀ s : State, ReportsOutcome (.slnk var) (s.noEffect .badState).status.err :=
    .noEffect rfl (by simp [reportedCodes])
  refine ⟨_, _, fun _ => rfl, fun _ _ _ => rfl, fun s => ?faults, fun hvar s => ?row, fun s _ => ?outcome⟩
  case faults => simp [ErrCode.isFault]
  case row => simp [of_decide_eq_true hvar]
  case outcome =>
    repeat' split
    exacts [.inl rfl, hrefused s, hrefused s, .inl rfl, hrefused s,
      .inr ⟨rfl, by simp [reportedCodes, State.sessionDone]⟩, hrefused s, .inl rfl, hrefused s]

theorem hasChecks_sdis : HasChecks .sdis :=
  .of_unchecked (fun _ => rfl) fun _ => .inl rfl

theorem hasChecks_srxf (len dst src : BitVec 16) : HasChecks (.srxf len dst src) := by
  have hfec : ErrCode.fecUncorr ∈ reportedCodes (.srxf len dst src) := by simp [reportedCodes]
  have hcrc : ErrCode.crcMismatch ∈ reportedCodes (.srxf len dst src) := by simp [reportedCodes]
  refine ⟨_, _, fun _ => rfl, fun s s' h => ?uniform, fun s => ?faults, fun _ s => ?row, fun s _ => ?outcome⟩
  case uniform => simp only [h.par, h.fieldBits]
  case faults => simp [ErrCode.isFault]
  case row => simp [reportedCodes]
  case outcome =>
    split
    · exact .noEffect rfl (by simp [reportedCodes]) s
    split
    · exact .noEffect rfl (by simp [reportedCodes]) s
    split
    · exact .inr ⟨rfl, by simp [reportedCodes, State.framing]⟩
    next d _ _ _ y hy =>
      obtain ⟨hctl, hvoice⟩ := parseFrame_reports hfec hcrc hy
      by_cases hc : y.prog.ctl = .none
      · by_cases hv : y.prog.voice = .none
        · rw [receive_of_valid s d _ _ hc hv]
          exact reassemble_reports hfec hcrc ..
        · rw [receive_of_voice_failed hc hv]
          exact hvoice
      · rw [receive_of_control_failed hc]
        exact hctl

theorem hasChecks_srxt (var : BitVec 4) : HasChecks (.srxt var) := by
  refine ⟨_, _, fun _ => rfl, fun _ _ _ => rfl, fun s => ?faults, fun hvar s => ?row, fun s _ => ?outcome⟩
  case faults => simp [ErrCode.isFault]
  case row => simp [of_decide_eq_true hvar]
  case outcome =>
    simp only [callTick_eq]
    repeat' split
    · exact .noEffect rfl (by simp [reportedCodes]) s
    · exact .noEffect rfl (by simp [reportedCodes]) s
    · exact .inr ⟨rfl, by simp [reportedCodes, State.sessionDone]⟩
    · exact .inr ⟨rfl, by simp [reportedCodes, State.ticked]⟩
    · exact .inl rfl
    · exact .inl rfl
    · exact .inl rfl

theorem hasChecks_stxs (imm : BitVec 32) : HasChecks (.stxs imm) := by
  refine .of_unchecked (fun _ => rfl) fun s => ?_
  repeat' split
  · exact .noEffect rfl (by simp [reportedCodes]) s
  · exact .noEffect rfl (by simp [reportedCodes]) s
  · exact .inl rfl

theorem hasChecks_stxe : HasChecks .stxe := by
  refine .of_unchecked (fun _ => rfl) fun s => ?_
  split
  · exact .inl rfl
  · exact .inl rfl
  · exact .noEffect rfl (by simp [reportedCodes]) s
  · exact .noEffect rfl (by simp [reportedCodes]) s

theorem hasChecks_stxt (var : BitVec 4) (dst src : BitVec 16) : HasChecks (.stxt var dst src) := by
  refine ⟨_, _, fun _ => rfl, fun s s' h => ?uniform, fun s => ?faults, fun hvar s => ?row, fun s _ => ?outcome⟩
  case uniform => simp only [h.par, h.fieldBits, h.txBits]
  case faults => simp [ErrCode.isFault]
  case row => simp [reportedCodes, of_decide_eq_true hvar]
  case outcome =>
    repeat' split
    · exact .noEffect rfl (by simp [reportedCodes]) s
    · exact .noEffect rfl (by simp [reportedCodes]) s
    · exact .inl rfl

/-! ## The statements -/

theorem exec_hasChecks (i : Instr) : HasChecks i := by
  cases i with
  | frdec sel len dst src => exact hasChecks_frdec sel len dst src
  | frenc var sel dst src => exact hasChecks_frenc var sel dst src
  | envp ty len dst src => exact hasChecks_envp ty len dst src
  | envu len dst src => exact hasChecks_envu len dst src
  | scon var sel src => exact hasChecks_scon var sel src
  | slnk var => exact hasChecks_slnk var
  | sdis => exact hasChecks_sdis
  | srxf len dst src => exact hasChecks_srxf len dst src
  | srxt var => exact hasChecks_srxt var
  | stxs imm => exact hasChecks_stxs imm
  | stxe => exact hasChecks_stxe
  | stxt var dst src => exact hasChecks_stxt var dst src
  | _ => exact hasChecks_codec rfl

/-- Settles O15: the code is that of a check that failed, or the outcome of the effect. -/
theorem commandsReportOnlyTheirCodes : Obligations.CommandsReportOnlyTheirCodes := by
  intro i s t hwf ht
  obtain ⟨cs, effect, h⟩ := exec_hasChecks i
  obtain rfl := Host.Outcome.next.inj ((h.run s).symm.trans ht)
  rcases checked_cases (cs s) s (effect s) with ⟨hpass, e⟩ | ⟨x, hx, e⟩
  · rw [e]
    exact (h.outcome s hpass).imp_right And.right
  · rw [e]
    exact .inr ((h.row hwf s _ hx).resolve_left Bool.false_ne_true)

/-- A command takes the same fault in every state with the same parameters and BACKEND, or reports none (60_exceptions.md
R301, R313). -/
theorem exec_fault_uniform (i : Instr) (s : State) :
    (∃ x : ErrCode, x.isFault = true ∧ ∀ s', s.SameChecks s' → exec i s' = .next (s'.takeFault x))
      ∨ ∀ t, exec i s = .next t → t.status.err.isFault = false := by
  obtain ⟨cs, effect, h⟩ := exec_hasChecks i
  rcases checks_pass_or_fault (cs s) with hpass | ⟨x, hx, hfault⟩
  · refine .inr fun t ht => ?_
    obtain rfl := Host.Outcome.next.inj ((h.run s).symm.trans ht)
    rw [checked_pass hpass]
    rcases h.outcome s hpass with hnone | ⟨hno, _⟩
    · rw [hnone]
      rfl
    · exact hno
  · refine .inl ⟨x, h.faults s _ hx, fun s' hs => ?_⟩
    rw [h.run, h.uniform s s' hs, hfault]

/-- The same of the command word, which may be no command (60_exceptions.md R310). -/
theorem runCommand_fault_uniform (s : State) :
    (∃ x : ErrCode, ∀ s' : State, s'.cmdHi = s.cmdHi → s'.cmdLo = s.cmdLo → s.SameChecks s' →
        runCommand s' = .next (s'.takeFault x))
      ∨ ∀ t, runCommand s = .next t → t.status.err.isFault = false := by
  cases hd : decode (s.cmdHi ++ s.cmdLo) with
  | error x =>
    exact .inl ⟨decodeFault x, fun s' hhi hlo _ => runCommand_of_decode_error (by rw [hhi, hlo, hd])⟩
  | ok i =>
    rcases exec_fault_uniform i s with ⟨x, _, hx⟩ | hno
    · exact .inl ⟨x, fun s' hhi hlo hs => (runCommand_of_decode_ok (by rw [hhi, hlo, hd])).trans (hx s' hs)⟩
    · exact .inr fun t ht => hno t ((runCommand_of_decode_ok hd).symm.trans ht)

/-- Settles O13: a word that faults takes the fault `runCommand_fault_uniform` finds, here and in every state like it. -/
theorem faultsArePreciseAndIgnoreData : Obligations.FaultsArePreciseAndIgnoreData := by
  intro s t ht hfault
  obtain ⟨x, hx⟩ := (runCommand_fault_uniform s).resolve_right fun hno => absurd (hno t ht) (by simp [hfault])
  obtain rfl := Host.Outcome.next.inj ((hx s rfl rfl ⟨rfl, rfl, rfl⟩).symm.trans ht)
  refine ⟨rfl, rfl, rfl, sat16_toNat _, rfl, fun s' t' hhi hlo hcfg hvalid hslot ht' => ?_⟩
  obtain rfl := Host.Outcome.next.inj ((hx s' hhi hlo ⟨hcfg, hvalid, hslot⟩).symm.trans ht')
  rfl

end Sys2Proof.Machine
end
